-- ==== Sys2Proof/Word.lean ====
section
/-! DEFINITION. The word types of the HCE (00_scope.md R8, R10 to R12): every value is unsigned, words are 32 bits,
symbols and bytes 8 bits, bus addresses 14 bits; a code or partial code is a finite bit string, first bit first. -/

namespace Sys2Proof

/-- A 32-bit command word or register value (R8, R11). -/
abbrev Word := BitVec 32

/-- A byte, and so a symbol 0..255 (R8 SYMBOL_WIDTH). -/
abbrev Byte := BitVec 8

/-- A 14-bit byte address of the register window (R8, R51). -/
abbrev Addr := BitVec 14

/-- A bit string `p_0 p_1 ...`; `p_0` is the bit nearest the root and the first transmitted (R12). -/
abbrev Bits := List Bool

end Sys2Proof
end

