-- ==== Sys2Proof/Syntax.lean ====
section
/-! DEFINITION. The commands of the HCE as syntax: one constructor per row of the opcode map (30_encoding.md R90),
with the operands of R88. -/

namespace Sys2Proof

/-- The thirteen commands. `sym` is the field SYM = h[7:0], `len` the field LEN = h[15:8], `data` the data words of
CT_LOAD in order, `count` the extension word of DEC_START (R86, R88). -/
inductive Instr where
  | nop
  | freqClear
  | freqAcc (sym : Byte)
  | build
  | genCodes
  | encInit
  | encByte (sym : Byte)
  | encFlush
  | ctClear
  | ctLoad (sym len : Byte) (data : List Word)
  | decStart (count : Word)
  | decFeed (sym : Byte)
  | decEnd
deriving DecidableEq, Repr

end Sys2Proof
end

