-- ==== Sys2Proof/WellFormed.lean ====
section
/-! DEFINITION. What makes a command term well formed: CT_LOAD carries exactly the number of data words its LEN
fixes (30_encoding.md R85, R89); every other command is well formed as it stands. -/

namespace Sys2Proof

/-- R89: the number of data words of a code of `len` bits, `(LEN + 31) div 32`. -/
def codeWords (len : Byte) : Nat := (len.toNat + 31) / 32

/-- The check on a command term (R89). -/
def Instr.wellFormed : Instr → Bool
  | .nop => true
  | .freqClear => true
  | .freqAcc _ => true
  | .build => true
  | .genCodes => true
  | .encInit => true
  | .encByte _ => true
  | .encFlush => true
  | .ctClear => true
  | .ctLoad _ len data => data.length == codeWords len
  | .decStart _ => true
  | .decFeed _ => true
  | .decEnd => true

/-- A command term that spells a command of the HCE. -/
abbrev WellFormed (i : Instr) : Prop := i.wellFormed = true

end Sys2Proof
end

