-- ==== Sys2Proof/Decode.lean ====
section
/-! DEFINITION. Decoding and encoding of command words (30_encoding.md R85 to R92). `decode` takes the words the host
wrote to CMD, first word first, and answers the command and the words that follow it, or why there is none. -/

namespace Sys2Proof

/-- Why a list of words gives no command. -/
inductive DecodeError where
  /-- R91 case 1: the opcode is none of the thirteen (ILLEGAL_COMMAND sub-code 1). -/
  | unassignedOpcode
  /-- R91 case 2: a reserved field of the opcode's row is not zero (ILLEGAL_COMMAND sub-code 2). -/
  | reservedNonzero
  /-- R89: an extension word of the header is not there yet (the engine holds, R195). -/
  | missingExtension
  /-- There is no header word. -/
  | noWord
deriving DecidableEq, Repr

/-- The command a header word spells, without its operands (the rows of R90). -/
inductive Op where
  | nop | freqClear | freqAcc | build | genCodes | encInit | encByte | encFlush
  | ctClear | ctLoad | decStart | decFeed | decEnd
deriving DecidableEq, Repr

/-- One row of the match and mask table of R90. -/
structure Row where
  op : Op
  pat : Word
  mask : Word
deriving DecidableEq, Repr

/-- The match and mask table of R90, row for row. -/
def opcodeTable : List Row :=
  [⟨.nop, 0x00000000, 0xFFFFFFFF⟩, ⟨.freqClear, 0x10000000, 0xFFFFFFFF⟩, ⟨.freqAcc, 0x11000000, 0xFFFFFF00⟩,
   ⟨.build, 0x20000000, 0xFFFFFFFF⟩, ⟨.genCodes, 0x30000000, 0xFFFFFFFF⟩, ⟨.encInit, 0x40000000, 0xFFFFFFFF⟩,
   ⟨.encByte, 0x41000000, 0xFFFFFF00⟩, ⟨.encFlush, 0x42000000, 0xFFFFFFFF⟩, ⟨.ctClear, 0x50000000, 0xFFFFFFFF⟩,
   ⟨.ctLoad, 0x51000000, 0xFFFF0000⟩, ⟨.decStart, 0x60000000, 0xFFFFFFFF⟩, ⟨.decFeed, 0x61000000, 0xFFFFFF00⟩,
   ⟨.decEnd, 0x62000000, 0xFFFFFFFF⟩]

/-- R86: OPC = h[31:24]. -/
def opcOf (h : Word) : Byte := h.extractLsb' 24 8

/-- R86: LEN = h[15:8]. -/
def lenOf (h : Word) : Byte := h.extractLsb' 8 8

/-- R86: SYM = h[7:0]. -/
def symOf (h : Word) : Byte := h.extractLsb' 0 8

/-- R91: the classification of a header word, opcode first, then the reserved fields. -/
def classify (h : Word) : Except DecodeError Op :=
  match opcodeTable.find? (fun r => opcOf r.pat == opcOf h) with
  | none => .error .unassignedOpcode
  | some r => if h &&& r.mask = r.pat then .ok r.op else .error .reservedNonzero

/-- R89: the number of extension words, a function of the header word alone. -/
def extCount (h : Word) : Nat :=
  if opcOf h = 0x51 then codeWords (lenOf h) else if opcOf h = 0x60 then 1 else 0

/-- R88: the operands of a header word of the given row, with its extension words. -/
def assemble (op : Op) (h : Word) (ext : List Word) : Instr :=
  match op with
  | .nop => .nop
  | .freqClear => .freqClear
  | .freqAcc => .freqAcc (symOf h)
  | .build => .build
  | .genCodes => .genCodes
  | .encInit => .encInit
  | .encByte => .encByte (symOf h)
  | .encFlush => .encFlush
  | .ctClear => .ctClear
  | .ctLoad => .ctLoad (symOf h) (lenOf h) ext
  | .decStart => .decStart (ext.headD 0)
  | .decFeed => .decFeed (symOf h)
  | .decEnd => .decEnd

/-- R85, R89, R91: the first command of a list of words and the words after it. -/
def decode : List Word → Except DecodeError (Instr × List Word)
  | [] => .error .noWord
  | h :: ws =>
    match classify h with
    | .error e => .error e
    | .ok op =>
      if ws.length < extCount h then .error .missingExtension
      else .ok (assemble op h (ws.take (extCount h)), ws.drop (extCount h))

/-! ## The encoder, from the formats of R87 and the opcode map of R90 -/

/-- The row of R90 a command term belongs to. -/
def Instr.op : Instr → Op
  | .nop => .nop
  | .freqClear => .freqClear
  | .freqAcc _ => .freqAcc
  | .build => .build
  | .genCodes => .genCodes
  | .encInit => .encInit
  | .encByte _ => .encByte
  | .encFlush => .encFlush
  | .ctClear => .ctClear
  | .ctLoad _ _ _ => .ctLoad
  | .decStart _ => .decStart
  | .decFeed _ => .decFeed
  | .decEnd => .decEnd

/-- R90: the opcode of each row. -/
def Op.code : Op → Byte
  | .nop => 0x00
  | .freqClear => 0x10
  | .freqAcc => 0x11
  | .build => 0x20
  | .genCodes => 0x30
  | .encInit => 0x40
  | .encByte => 0x41
  | .encFlush => 0x42
  | .ctClear => 0x50
  | .ctLoad => 0x51
  | .decStart => 0x60
  | .decFeed => 0x61
  | .decEnd => 0x62

/-- R11: a field placed in a word with its least significant bit at bit `k`. -/
def fieldAt {n : Nat} (v : BitVec n) (k : Nat) : Word := v.setWidth 32 <<< k

/-- R86: a header word from its fields; RSV is 0. -/
def mkHeader (opc len sym : Byte) : Word := fieldAt opc 24 ||| fieldAt len 8 ||| fieldAt sym 0

/-- R87: the header word of a command: LEN is 0 outside format L, SYM is 0 in formats Z and C. -/
def Instr.header : Instr → Word
  | .nop => mkHeader Op.nop.code 0 0
  | .freqClear => mkHeader Op.freqClear.code 0 0
  | .freqAcc sym => mkHeader Op.freqAcc.code 0 sym
  | .build => mkHeader Op.build.code 0 0
  | .genCodes => mkHeader Op.genCodes.code 0 0
  | .encInit => mkHeader Op.encInit.code 0 0
  | .encByte sym => mkHeader Op.encByte.code 0 sym
  | .encFlush => mkHeader Op.encFlush.code 0 0
  | .ctClear => mkHeader Op.ctClear.code 0 0
  | .ctLoad sym len _ => mkHeader Op.ctLoad.code len sym
  | .decStart _ => mkHeader Op.decStart.code 0 0
  | .decFeed sym => mkHeader Op.decFeed.code 0 sym
  | .decEnd => mkHeader Op.decEnd.code 0 0

/-- R87: the extension words of a command. -/
def Instr.ext : Instr → List Word
  | .nop => []
  | .freqClear => []
  | .freqAcc _ => []
  | .build => []
  | .genCodes => []
  | .encInit => []
  | .encByte _ => []
  | .encFlush => []
  | .ctClear => []
  | .ctLoad _ _ data => data
  | .decStart count => [count]
  | .decFeed _ => []
  | .decEnd => []

/-- The words of a command, in the order the host writes them to CMD (R85). -/
def encode (i : Instr) : List Word := i.header :: i.ext

/-! ## The opcode table's numbering of bits -/

/-- The words of an instruction whose bits are `w` (bit 0 the least significant bit of the first word), `nbits` of
them given and every later bit 0: nine words, the longest command (R85). -/
def tableWords (nbits w : Nat) : List Word :=
  (List.range 9).map fun k => BitVec.ofNat 32 ((w % 2 ^ nbits) >>> (32 * k))

/-- The command the decoder reads from an instruction of the opcode table. -/
def decodeTableWord (nbits w : Nat) : Option Instr :=
  match decode (tableWords nbits w) with
  | .ok (i, _) => some i
  | .error _ => none

end Sys2Proof
end

