-- ==== Sys2Proof/Config.lean ====
section
/-! DEFINITION. What an instance fixes (00_scope.md R8, R9) and the one free value of the model. The two OPEN
parameters CMD_FIFO_DEPTH and OUT_FIFO_DEPTH are fields of the state (`Params`), so that every statement over all
states holds for every instance (log 3). -/

namespace Sys2Proof.Config

/-- R54: the constant of the ID register, "HUFF". -/
def idValue : Word := 0x48554646

/-- R8, R55: the longest code, in bits. -/
def lMax : Nat := 255

/-- R8, R55: the width of the counters. -/
def countWidth : Nat := 32

/-- R8: the number of records of the node arena. -/
abbrev nodeMax : Nat := 511

/-- R8: the reference depth of the command FIFO. -/
def refCmdDepth : Byte := 16

/-- R8: the reference depth of the output FIFO. -/
def refOutDepth : Byte := 64

/-- FREE VALUE (R80, 93_implementation_defined.md S1): what a read returns while STATUS.BUSY = 1, before the
register's reserved bits are cleared. The argument is the draw's number, so two draws need not agree; nothing
constrains the value (log 5, 6). -/
opaque busyRead : Nat → Word

end Sys2Proof.Config
end

