-- ==== Sys2Proof/Machine/State.lean ====
section
/-! DEFINITION. The state of the HCE (10_state.md R23 to R45), element for element, with the instance's parameters
(R8), the bus port (R50) and the data that says what the host will do and which agent moves next. -/

namespace Sys2Proof.Machine

/-- A table with one entry per symbol 0..255. -/
abbrev Table (α : Type) := Vector α 256

/-- R23, R24: FREQ[0..255] and TOTAL. -/
structure FreqTable where
  count : Table Word
  total : Word
deriving DecidableEq, Repr

/-- R26: one record of the node arena, a tagged union of LEAF and INTERNAL (log 19). -/
inductive Node where
  | leaf (sym : Byte) (freq : Word)
  | internal (freq : Word) (left right : BitVec 9)
deriving DecidableEq, Repr

/-- R26 to R28: NODE[0..510], ROOT, NNODES, TREE_VALID. -/
structure Tree where
  node : Vector Node Config.nodeMax
  root : BitVec 9
  nnodes : BitVec 10
  valid : Bool
deriving DecidableEq, Repr

/-- R29, R30: CT_LEN[0..255] and CT_BITS[0..255], code bit `k` at bit `255 - k` (word `k div 32`, bit
`31 - k mod 32`, word 0 the most significant, R14). -/
structure CodeTable where
  len : Table Byte
  bits : Table (BitVec 256)
deriving DecidableEq, Repr

/-- R33, R34: ENC_ACC (first pending bit in bit 7), ENC_ACC_LEN, ENC_BITS. -/
structure Encoder where
  acc : Byte
  accLen : BitVec 3
  bits : BitVec 64
deriving DecidableEq, Repr

/-- R35: MODE. -/
inductive Mode where
  | idle
  | decoding
deriving DecidableEq, Repr

/-- R35 to R37: MODE, DEC_DECLARED, DEC_REMAINING, DEC_PLEN, DEC_PBITS (left-aligned, R14). -/
structure Decoder where
  mode : Mode
  declared : Word
  remaining : Word
  plen : Byte
  pbits : BitVec 256
deriving DecidableEq, Repr

/-- R201: the seven error codes; 7..15 are never produced (93_implementation_defined.md S7). -/
inductive ErrCode where
  | none
  | emptyInput
  | corruptCodebook
  | truncatedStream
  | missingCode
  | illegalCommand
  | countOverflow
deriving DecidableEq, Repr

/-- R38, R39: ERROR and the error record ERR_CODE, ERR_SUB, ERR_OPC, ERR_ARG, ERR_BITPOS, ERR_INFO. -/
structure ErrRecord where
  error : Bool
  code : ErrCode
  sub : BitVec 4
  opc : Byte
  arg : Byte
  bitpos : BitVec 3
  info : Word
deriving DecidableEq, Repr

/-- R40: IRQ_EN_ERR and IRQ_EN_IDLE. -/
structure Ctrl where
  irqEnErr : Bool
  irqEnIdle : Bool
deriving DecidableEq, Repr

/-- R43: the command in execution: its header word, the extension words taken so far, the output pushes made. -/
structure Exec where
  header : Word
  taken : List Word
  pushed : Nat
deriving DecidableEq, Repr

/-- R8, R55: the instance's two OPEN parameters. Each is in 1..255: a depth of 0 is no `Params` (log 3). -/
structure Params where
  cmdDepth : Byte
  outDepth : Byte
  cmdPositive : 0 < cmdDepth.toNat := by decide
  outPositive : 0 < outDepth.toNat := by decide
deriving DecidableEq, Repr

/-- One access the host makes on the bus (R50, R51): always 32 bits. -/
inductive BusOp where
  | read (addr : Addr)
  | write (addr : Addr) (value : Word)
deriving DecidableEq, Repr

/-- The host's side of the bus (R20, R50, R80). `pending`: the accesses it will still issue, in order. `stalled`: the
CMD write that waits on a full CMDQ (R69). `seen`: what its reads returned, oldest first. `readsPassStall`: whether
this host's bus can read while a write is stalled (R239, log 9). `draws`: how many free values reads have drawn
(log 6). All but `stalled` are the model's own. -/
structure HostPort where
  pending : List BusOp
  stalled : Option Word
  seen : List Word
  readsPassStall : Bool
  draws : Nat
deriving DecidableEq, Repr

/-- Who moves next (log 1): the host's bus, the engine (with at most so many output pushes in this turn, R196, or no
limit), or the pin `rst_n` taking a level (R230). -/
inductive Turn where
  | host
  | engine (pushes : Option Nat)
  | rstN (level : Bool)
deriving DecidableEq, Repr

/-- The state of the machine (R45). `sched`: the turns to come; when it is empty the engine moves (log 1). `grant`: the
pushes the engine may make in its turn, none meaning no limit (log 7). Both are the model's own. -/
structure State where
  freq : FreqTable
  tree : Tree
  ct : CodeTable
  enc : Encoder
  dec : Decoder
  err : ErrRecord
  ctrl : Ctrl
  cmdq : List Word
  outq : List Byte
  executing : Option Exec
  rstN : Bool
  params : Params
  host : HostPort
  sched : List Turn
  grant : Option Nat
deriving DecidableEq, Repr

/-- Why a step stops. Every error of the HCE itself is a next state (R209), so this is the model's only stop. -/
inductive Fault where
  /-- Raised by GEN_CODES alone: TREE_VALID = 1 over an arena in which the walk from ROOT does not end within L_MAX
  levels or leaves the arena. R28 and R121 rule this out wherever BUILD wrote the arena, and the spec gives the walk
  no result there. SAFE: the model stops where no run of the hardware can be (log 12). -/
  | arenaHoldsNoTree
deriving DecidableEq, Repr

/-- Why an instruction has no meaning in the model. -/
inductive Refusal where
  /-- Raised by an arm of `exec` whose instruction has no meaning yet; no arm does. SAFE: the model stops. -/
  | notModelled (mnemonic : String)
deriving DecidableEq, Repr

/-- R23, R24: the empty frequency table. -/
def FreqTable.empty : FreqTable := { count := Vector.replicate 256 0, total := 0 }

/-- R29, R30: the code table with no entry. -/
def CodeTable.empty : CodeTable := { len := Vector.replicate 256 0, bits := Vector.replicate 256 0 }

/-- R38, R39: no error recorded. -/
def ErrRecord.clear : ErrRecord :=
  { error := false, code := .none, sub := 0, opc := 0, arg := 0, bitpos := 0, info := 0 }

/-- R45, R231: the machine right after reset. NODE, ROOT and NNODES are unspecified there (S2); the model names
Leaf(0, 0), 0 and 0 (log 4). The FIFO depths are the reference values of R8 (log 3), `rst_n` is high (log 11), and
the host has issued nothing (log 1). -/
def State.reset : State where
  freq := FreqTable.empty
  tree := { node := Vector.replicate Config.nodeMax (.leaf 0 0), root := 0, nnodes := 0, valid := false }
  ct := CodeTable.empty
  enc := { acc := 0, accLen := 0, bits := 0 }
  dec := { mode := .idle, declared := 0, remaining := 0, plen := 0, pbits := 0 }
  err := ErrRecord.clear
  ctrl := { irqEnErr := false, irqEnIdle := false }
  cmdq := []
  outq := []
  executing := none
  rstN := true
  params := { cmdDepth := Config.refCmdDepth, outDepth := Config.refOutDepth }
  host := { pending := [], stalled := none, seen := [], readsPassStall := false, draws := 0 }
  sched := []
  grant := none

end Sys2Proof.Machine
end

