-- ==== Sys2Proof/Machine/Operands.lean ====
section
/-! DEFINITION. The operand forms: symbols and their table entries, bit strings and their left-aligned storage
(00_scope.md R12 to R14), the code of a symbol (10_state.md R30), and the search of the code table (46_decoder.md
R173, R174). -/

namespace Sys2Proof.Machine

/-! ## Tables indexed by a symbol -/

/-- R16: the symbols 0..255 in ascending order. -/
def allSymbols : List Byte := (List.range 256).map (BitVec.ofNat 8)

/-- The entry of symbol `s`, written `T[s]` in the spec. -/
def entry {α : Type} (t : Table α) (s : Byte) : α := t[s.toNat]'s.isLt

/-- `T[s] <- v`. -/
def setEntry {α : Type} (t : Table α) (s : Byte) (v : α) : Table α := t.set s.toNat v s.isLt

/-! ## Bit strings -/

/-- The bits of `p` placed from position `k` on in a word of `n` bits, position 0 the most significant. -/
def placeBits (n : Nat) : Nat → Bits → BitVec n
  | _, [] => 0
  | k, b :: bs => (if b then BitVec.twoPow n (n - 1 - k) else 0) ||| placeBits n (k + 1) bs

/-- R14: a bit string stored left-aligned in `n` bits, zero-filled. With `n = 8` it is also the byte of R13. -/
def store (n : Nat) (p : Bits) : BitVec n := placeBits n 0 p

/-- R14: the first `m` bits of left-aligned storage. With `n = 8` and `m = 8` it is `bits(B)` of R13. -/
def load {n : Nat} (w : BitVec n) (m : Nat) : Bits := (List.range m).map w.getMsbD

/-- R88: the `m` code bits held in data words, bit `k` at bit `31 - k mod 32` of word `k div 32`. Bits at positions
`m` and beyond are ignored. -/
def loadWords (d : List Word) (m : Nat) : Bits :=
  (List.range m).map fun k => (d.getD (k / 32) 0).getMsbD (k % 32)

/-- R13: `bits(B)`, most significant bit first. -/
def bitsOfByte (b : Byte) : Bits := load b 8

/-- R13: `byte(b_0 .. b_7)`; a shorter group is padded with zeros on the right (R142). -/
def byteOfBits (p : Bits) : Byte := store 8 p

/-! ## The code table -/

/-- R30: `code(s) = load(CT_BITS[s], CT_LEN[s])`. -/
def CodeTable.code (ct : CodeTable) (s : Byte) : Bits := load (entry ct.bits s) (entry ct.len s).toNat

/-- `CT_LEN[s] <- |p|`, `CT_BITS[s] <- store(p)` (R125, R156). -/
def CodeTable.put (ct : CodeTable) (s : Byte) (p : Bits) : CodeTable :=
  { len := setEntry ct.len s (BitVec.ofNat 8 p.length), bits := setEntry ct.bits s (store 256 p) }

/-- R173: the symbol whose code is the non-empty string `p`. By R31 at most one qualifies; the search goes in
ascending order (log 23). -/
def CodeTable.matching (ct : CodeTable) (p : Bits) : Option Byte :=
  allSymbols.find? fun s => (entry ct.len s).toNat == p.length && ct.code s == p

/-- R174: `p` is a proper prefix of some code. -/
def CodeTable.live (ct : CodeTable) (p : Bits) : Bool :=
  allSymbols.any fun s => decide (p.length < (entry ct.len s).toNat) && (ct.code s).take p.length == p

/-- R25: the number of symbols with FREQ[s] > 0. -/
def nsym (f : FreqTable) : Nat := (allSymbols.filter fun s => entry f.count s != 0).length

/-- R32: the number of symbols with CT_LEN[s] != 0. -/
def ctCount (ct : CodeTable) : Nat := (allSymbols.filter fun s => entry ct.len s != 0).length

/-! ## Encoder and decoder strings -/

/-- R33: the encoder's pending bits as a bit string. -/
def Encoder.pending (e : Encoder) : Bits := load e.acc e.accLen.toNat

/-- R33: the encoder with the pending bits `p` (fewer than eight). -/
def Encoder.withPending (e : Encoder) (p : Bits) : Encoder :=
  { e with acc := store 8 p, accLen := BitVec.ofNat 3 p.length }

/-- R37: the decoder's partial code as a bit string. -/
def Decoder.partialCode (d : Decoder) : Bits := load d.pbits d.plen.toNat

/-- R37: the decoder with the partial code `p`. -/
def Decoder.withPartial (d : Decoder) (p : Bits) : Decoder :=
  { d with plen := BitVec.ofNat 8 p.length, pbits := store 256 p }

end Sys2Proof.Machine
end

