-- ==== Sys2Proof/Machine/Flags.lean ====
section
/-! DEFINITION. The status bits of the HCE: the computed bits BUSY, EXT_WAIT and IRQ (10_state.md R44), the STATUS
register (20_memory.md R57) and the encodings of the error record (R58, R201). The HCE has no condition codes (R46). -/

namespace Sys2Proof.Machine

/-- R44: BUSY = 1 exactly when CMDQ is non-empty or EXEC != NONE. -/
def State.busy (s : State) : Bool := !s.cmdq.isEmpty || s.executing.isSome

/-- The extension words of a command in execution that are not taken yet (R89). -/
def Exec.missing (e : Exec) : Nat := extCount e.header - e.taken.length

/-- R44: EXT_WAIT = 1 exactly when EXEC holds a header whose extension words are not all taken and CMDQ is empty. -/
def State.extWait (s : State) : Bool :=
  match s.executing with
  | none => false
  | some e => decide (0 < e.missing) && s.cmdq.isEmpty

/-- R57: OUT_NONEMPTY = 1 when OUTQ holds at least one byte. -/
def State.outNonempty (s : State) : Bool := !s.outq.isEmpty

/-- R44, R213: `irq = (IRQ_EN_ERR and ERROR) or (IRQ_EN_IDLE and not BUSY)`. While `rst_n` is low the state is the
reset state, with both enables 0, so the output is low (log 24). -/
def State.irq (s : State) : Bool := (s.ctrl.irqEnErr && s.err.error) || (s.ctrl.irqEnIdle && !s.busy)

/-- R35, R57: STATUS.DECODING. -/
def Mode.isDecoding : Mode → Bool
  | .idle => false
  | .decoding => true

/-- A status bit at its place in a register. -/
def bitAt (b : Bool) (k : Nat) : Word := fieldAt (BitVec.ofBool b) k

/-- R57: the STATUS register. -/
def State.status (s : State) : Word :=
  bitAt s.busy 0 ||| bitAt s.err.error 1 ||| bitAt s.tree.valid 2 ||| bitAt s.dec.mode.isDecoding 3 |||
    bitAt s.extWait 4 ||| bitAt s.outNonempty 5 ||| bitAt s.irq 6

/-- R201: the number of each error code. -/
def ErrCode.number : ErrCode → BitVec 4
  | .none => 0
  | .emptyInput => 1
  | .corruptCodebook => 2
  | .truncatedStream => 3
  | .missingCode => 4
  | .illegalCommand => 5
  | .countOverflow => 6

/-- R58: the ERR register: CODE [3:0], SUB [7:4], OPC [15:8], ARG [23:16], BITPOS [26:24]. -/
def ErrRecord.word (e : ErrRecord) : Word :=
  fieldAt e.code.number 0 ||| fieldAt e.sub 4 ||| fieldAt e.opc 8 ||| fieldAt e.arg 16 ||| fieldAt e.bitpos 24

end Sys2Proof.Machine
end

