-- ==== Sys2Proof/Machine/Ops.lean ====
section
/-! DEFINITION. The operations every command shares: error entry (60_exceptions.md R209) and the way out of the error
state (R210, 70_reset_and_hazards.md R230 to R233), acceptance by mode (47_control.md R193), completion (R190), taking
words from CMDQ (R15 CmdPop) and pushing bytes to OUTQ (R15 OutPush, R195, R196). -/

namespace Sys2Proof.Machine

/-- What one step or one command answers. -/
abbrev Result := Host.Outcome State Fault Refusal

/-! ## Errors: entry, and leaving the error state -/

/-- R209: error entry, `raise E(sub, info)` of the command with header word `h`. Nothing but ERROR, the record and
EXEC changes: there is no vector, no handler and no saved program counter. -/
def raise (code : ErrCode) (sub : BitVec 4) (info : Word) (bitpos : BitVec 3) (h : Word) (s : State) : State :=
  { s with
    err := { error := true, code, sub, opc := opcOf h, arg := symOf h, bitpos, info }
    executing := none }

/-- R210, R231: every element of R45 takes its reset value; the instance, the pin, the host and the schedule are not
elements of R45. This is the only way out of the error state: there is no return-from-error command. -/
def resetElements (s : State) : State :=
  { State.reset with
    params := s.params, rstN := s.rstN, host := s.host, sched := s.sched, grant := s.grant }

/-- R230, R232: the pin `rst_n` takes a level. While it is low the state holds its reset values and a stalled write is
ignored (log 11). -/
def setRstN (level : Bool) (s : State) : State :=
  if level then { s with rstN := true }
  else { resetElements s with rstN := false, host := { s.host with stalled := none } }

/-! ## Acceptance and completion -/

/-- R193: the mode table `accepted(OPC, MODE)`. -/
def accepted : Op → Mode → Bool
  | .nop, .idle => true
  | .nop, .decoding => true
  | .freqClear, .idle => true
  | .freqClear, .decoding => false
  | .freqAcc, .idle => true
  | .freqAcc, .decoding => false
  | .build, .idle => true
  | .build, .decoding => false
  | .genCodes, .idle => true
  | .genCodes, .decoding => false
  | .encInit, .idle => true
  | .encInit, .decoding => false
  | .encByte, .idle => true
  | .encByte, .decoding => false
  | .encFlush, .idle => true
  | .encFlush, .decoding => false
  | .ctClear, .idle => true
  | .ctClear, .decoding => false
  | .ctLoad, .idle => true
  | .ctLoad, .decoding => false
  | .decStart, .idle => true
  | .decStart, .decoding => false
  | .decFeed, .idle => false
  | .decFeed, .decoding => true
  | .decEnd, .idle => false
  | .decEnd, .decoding => true

/-- R190, R193: ILLEGAL_COMMAND sub-code 3 with ERR_INFO = h. -/
def refuseMode (h : Word) (s : State) : State := raise .illegalCommand 3 h 0 h s

/-- R191 step 4: a command runs only in a mode that accepts it (log 14). -/
def whenAccepted (i : Instr) (s : State) (run : Result) : Result :=
  if accepted i.op s.dec.mode then run else .next (refuseMode i.header s)

/-- R190, last line: EXEC <- NONE. -/
def complete (s : State) : State := { s with executing := none }

/-! ## The queues -/

/-- The pushes the engine can make in this turn before it holds: the free slots of OUTQ (R15, R195), and no more than
the turn grants (R196, log 7). -/
def slots (s : State) : Nat :=
  match s.grant with
  | none => s.params.outDepth.toNat - s.outq.length
  | some k => min k (s.params.outDepth.toNat - s.outq.length)

/-- R43: how far the command in execution has gone; `i` itself, with nothing pushed yet, when it begins. -/
def progress (i : Instr) (s : State) : Exec :=
  s.executing.getD { header := i.header, taken := i.ext, pushed := 0 }

/-- The bytes of `i` still to push: those after the ones its EXEC counts as pushed (R43). -/
def unpushed (i : Instr) (bytes : List Byte) (s : State) : List Byte := bytes.drop (progress i s).pushed

/-- R15, R190, R195, R196: command `i` pushes `bytes` to OUTQ in order, from the first one not pushed yet. With a slot
for each of them it makes its other writes, `final`, and completes; else it pushes what it can and stays in EXEC. -/
def emit (i : Instr) (bytes : List Byte) (final : State → State) (s : State) : State :=
  if (unpushed i bytes s).length ≤ slots s then
    complete (final { s with outq := s.outq ++ unpushed i bytes s })
  else
    { s with
      outq := s.outq ++ (unpushed i bytes s).take (slots s)
      executing := some { progress i s with pushed := (progress i s).pushed + slots s } }

/-- R69: whether CMDQ has a free slot. -/
def cmdRoom (s : State) : Bool := decide (s.cmdq.length < s.params.cmdDepth.toNat)

/-- R190: the engine takes the header `h` from the head of CMDQ, `rest` being what is left: EXEC <- h. -/
def beginCommand (h : Word) (rest : List Word) (s : State) : State :=
  { s with cmdq := rest, executing := some { header := h, taken := [], pushed := 0 } }

/-- R89, R191 step 5: the command `e` takes the extension words it misses, as far as CMDQ holds them. -/
def takeWords (e : Exec) (s : State) : Exec × State :=
  let e' := { e with taken := e.taken ++ s.cmdq.take e.missing }
  (e', { s with cmdq := s.cmdq.drop e.missing, executing := some e' })

end Sys2Proof.Machine
end

