-- ==== Sys2Proof/Machine/Bus.lean ====
section
/-! DEFINITION. The host's bus: the register map (20_memory.md R53 to R74), one read, one write, and the host's turn
(R80). Every access is 32 bits and address bits [1:0] are ignored (R51); no access faults (R79). -/

namespace Sys2Proof.Machine

/-- The registers of the map of R53; `reserved` stands for every other offset (R74). -/
inductive Reg where
  | id | params | ctrl | status | err | errInfo | total | nsym | ctCount | encBitsLo | encBitsHi | encAcc
  | decDeclared | decRemaining | decPlen | outLevel | cmd | outData
  | decPbits (w : BitVec 3)
  | freq (s : Byte)
  | codeLen (s : Byte)
  | codeBits (s : Byte) (w : BitVec 3)
  | reserved
deriving DecidableEq, Repr

/-- The windows of R53, by byte offset (a multiple of 4). -/
def windowAt (o : Nat) : Reg :=
  if 0x080 ≤ o ∧ o < 0x0A0 then .decPbits (BitVec.ofNat 3 ((o - 0x080) / 4))
  else if 0x400 ≤ o ∧ o < 0x800 then .freq (BitVec.ofNat 8 ((o - 0x400) / 4))
  else if 0x800 ≤ o ∧ o < 0xC00 then .codeLen (BitVec.ofNat 8 ((o - 0x800) / 4))
  else if 0x1000 ≤ o ∧ o < 0x3000 then
    .codeBits (BitVec.ofNat 8 ((o - 0x1000) / 32)) (BitVec.ofNat 3 ((o - 0x1000) / 4))
  else .reserved

/-- R51, R53: the register an address selects. -/
def regAt (a : Addr) : Reg :=
  match a.toNat / 4 * 4 with
  | 0x000 => .id
  | 0x004 => .params
  | 0x008 => .ctrl
  | 0x00C => .status
  | 0x010 => .err
  | 0x014 => .errInfo
  | 0x018 => .total
  | 0x01C => .nsym
  | 0x020 => .ctCount
  | 0x024 => .encBitsLo
  | 0x028 => .encBitsHi
  | 0x02C => .encAcc
  | 0x030 => .decDeclared
  | 0x034 => .decRemaining
  | 0x038 => .decPlen
  | 0x03C => .outLevel
  | 0x040 => .cmd
  | 0x044 => .outData
  | o => windowAt o

/-- R14: word `w` of left-aligned storage, word 0 holding bits 0..31. -/
def storageWord (b : BitVec 256) (w : BitVec 3) : Word := b.extractLsb' (224 - 32 * w.toNat) 32

/-- R55: the PARAMS register. -/
def Params.word (p : Params) : Word :=
  fieldAt (BitVec.ofNat 8 Config.lMax) 0 ||| fieldAt (BitVec.ofNat 8 Config.countWidth) 8 |||
    fieldAt p.cmdDepth 16 ||| fieldAt p.outDepth 24

/-- R56: the CTRL register as read; bit 0 reads 0. -/
def Ctrl.word (c : Ctrl) : Word := bitAt c.irqEnErr 1 ||| bitAt c.irqEnIdle 2

/-- R64: the ENC_ACC register: ENC_ACC_LEN [2:0], the pending bits [15:8]. -/
def Encoder.accWord (e : Encoder) : Word := fieldAt e.accLen 0 ||| fieldAt e.acc 8

/-- R54 to R74: the value a register shows. CMD and reserved offsets read 0 (R69, R74); OUT_DATA is read by
`busRead`. -/
def regValue (s : State) : Reg → Word
  | .id => Config.idValue
  | .params => s.params.word
  | .ctrl => s.ctrl.word
  | .status => s.status
  | .err => s.err.word
  | .errInfo => s.err.info
  | .total => s.freq.total
  | .nsym => BitVec.ofNat 32 (nsym s.freq)
  | .ctCount => BitVec.ofNat 32 (ctCount s.ct)
  | .encBitsLo => s.enc.bits.extractLsb' 0 32
  | .encBitsHi => s.enc.bits.extractLsb' 32 32
  | .encAcc => s.enc.accWord
  | .decDeclared => s.dec.declared
  | .decRemaining => s.dec.remaining
  | .decPlen => s.dec.plen.setWidth 32
  | .outLevel => BitVec.ofNat 32 s.outq.length
  | .cmd => 0
  | .outData => 0
  | .decPbits w => storageWord s.dec.pbits w
  | .freq sym => entry s.freq.count sym
  | .codeLen sym => (entry s.ct.len sym).setWidth 32
  | .codeBits sym w => storageWord (entry s.ct.bits sym) w
  | .reserved => 0

/-- R80, 93_implementation_defined.md S1: the registers a command may write, which read as any value while BUSY = 1,
each with the bits that are not reserved in it (log 5). STATUS, OUT_LEVEL, OUT_DATA, CTRL, ID and PARAMS are always
exact. -/
def drawnBits : Reg → Option Word
  | .id => none
  | .params => none
  | .ctrl => none
  | .status => none
  | .err => some 0x07FFFFFF
  | .errInfo => some 0xFFFFFFFF
  | .total => some 0xFFFFFFFF
  | .nsym => some 0x000001FF
  | .ctCount => some 0x000001FF
  | .encBitsLo => some 0xFFFFFFFF
  | .encBitsHi => some 0xFFFFFFFF
  | .encAcc => some 0x0000FF07
  | .decDeclared => some 0xFFFFFFFF
  | .decRemaining => some 0xFFFFFFFF
  | .decPlen => some 0x000000FF
  | .outLevel => none
  | .cmd => none
  | .outData => none
  | .decPbits _ => some 0xFFFFFFFF
  | .freq _ => some 0xFFFFFFFF
  | .codeLen _ => some 0x000000FF
  | .codeBits _ _ => some 0xFFFFFFFF
  | .reserved => none

/-- R70: a read of OUT_DATA: 0x100 | B and B is removed, or 0 and nothing changes. -/
def popOut (s : State) : Word × State :=
  match s.outq with
  | [] => (0, s)
  | b :: rest => (0x100 ||| b.setWidth 32, { s with outq := rest })

/-- R80: one free value drawn for a read of a register whose non-reserved bits are `bits`. -/
def drawRead (bits : Word) (s : State) : Word × State :=
  (Config.busyRead s.host.draws &&& bits, { s with host := { s.host with draws := s.host.draws + 1 } })

/-- `MemRead(addr, 4)` (R52, R232): the value, and the state after it. -/
def busRead (a : Addr) (s : State) : Word × State :=
  if s.rstN = false then (0, s)
  else if regAt a = .outData then popOut s
  else
    match drawnBits (regAt a), s.busy with
    | some bits, true => drawRead bits s
    | some _, false => (regValue s (regAt a), s)
    | none, _ => (regValue s (regAt a), s)

/-- R56: a write of CTRL: a soft reset and nothing else (R233), or the two interrupt enables. -/
def writeCtrl (v : Word) (s : State) : State :=
  if v.getLsbD 0 then resetElements s
  else { s with ctrl := { irqEnErr := v.getLsbD 1, irqEnIdle := v.getLsbD 2 } }

/-- `MemWrite(addr, 4, v)` (R52, R56, R69, R232): the state after it, or none while the write has to wait for a slot
of CMDQ. -/
def busWrite (a : Addr) (v : Word) (s : State) : Option State :=
  if s.rstN = false then some s
  else if regAt a = .ctrl then some (writeCtrl v s)
  else if regAt a = .cmd then
    if cmdRoom s then some { s with cmdq := s.cmdq ++ [v] } else none
  else some s

/-- The host's next access leaves the list of those it will still make. -/
def withPending (ops : List BusOp) (s : State) : State := { s with host := { s.host with pending := ops } }

/-- The write that waits on the bus, if any (R69). -/
def withStalled (w : Option Word) (s : State) : State := { s with host := { s.host with stalled := w } }

/-- The host reads an address and keeps the value (R80, log 16). -/
def hostRead (a : Addr) (s : State) : State :=
  let r := busRead a s
  { r.2 with host := { r.2.host with seen := r.2.host.seen ++ [r.1] } }

/-- The host writes an address; a CMD write on a full CMDQ is left waiting on the bus (R69). -/
def hostWrite (a : Addr) (v : Word) (s : State) : State :=
  match busWrite a v s with
  | some t => t
  | none => withStalled (some v) s

/-- The byte address of the CMD register (R53). -/
def cmdAddr : Addr := 0x040

/-- The host's turn (R80). A waiting write completes once CMDQ has a slot; while it waits the host makes no other
access, but for reads on a bus that can read while a write is stalled (R239, log 9). -/
def hostTurn (s : State) : State :=
  match s.host.stalled, s.host.pending with
  | some v, ops =>
    if cmdRoom s then hostWrite cmdAddr v (withStalled none s)
    else
      match s.host.readsPassStall, ops with
      | true, .read a :: rest => hostRead a (withPending rest s)
      | true, .write _ _ :: _ => s
      | true, [] => s
      | false, _ => s
  | none, [] => s
  | none, .read a :: rest => hostRead a (withPending rest s)
  | none, .write a v :: rest => hostWrite a v (withPending rest s)

end Sys2Proof.Machine
end

