-- ==== Sys2Proof/Machine/BitDecoder.lean ====
section
/-! DEFINITION. The bit-stream decoder: DEC_START, DEC_FEED, DEC_END (46_decoder.md R170 to R181). -/

namespace Sys2Proof.Machine

/-- What a run of payload bits does (R171): the symbols pushed, DEC_REMAINING and the partial code after it, and, when
a bit made a dead prefix, how many bits stood after that bit. -/
structure Feed where
  out : List Byte
  remaining : Word
  rest : Bits
  dead : Option Nat
deriving DecidableEq, Repr

/-- R171: payload bits matched one by one from the partial code `p`, the shortest match first (R173), until no symbol
is owed (R178) or a prefix is dead (R174). -/
def feedBits (ct : CodeTable) : Bits → Word → Bits → Feed
  | [], remaining, p => { out := [], remaining := remaining, rest := p, dead := none }
  | b :: bs, remaining, p =>
    if remaining = 0 then { out := [], remaining := remaining, rest := p, dead := none }
    else
      match ct.matching (p ++ [b]) with
      | some s =>
        let f := feedBits ct bs (remaining - 1) []
        { f with out := s :: f.out }
      | none =>
        if ct.live (p ++ [b]) then feedBits ct bs remaining (p ++ [b])
        else { out := [], remaining := remaining, rest := p ++ [b], dead := some bs.length }

/-- R170: begin decoding a payload of `count` symbols. -/
def execDecStart (count : Word) (s : State) : Result :=
  whenAccepted (.decStart count) s (.next (complete { s with
    dec := { mode := .decoding, declared := count, remaining := count, plen := 0, pbits := 0 } }))

/-- R171: the writes of DEC_FEED after its pushes: DEC_REMAINING and the partial code, and for a dead prefix
CORRUPT_CODEBOOK sub-code 4 with the symbols emitted since DEC_START and the failing bit's index. -/
def feedWrites (f : Feed) (h : Word) (t : State) : State :=
  let t' := { t with dec := { t.dec.withPartial f.rest with remaining := f.remaining } }
  match f.dead with
  | none => t'
  | some k => raise .corruptCodebook 4 (t.dec.declared - f.remaining) (BitVec.ofNat 3 k) h t'

/-- R171: what the eight bits of a payload byte do, most significant first. -/
def feedByte (sym : Byte) (s : State) : Feed :=
  feedBits s.ct (bitsOfByte sym) s.dec.remaining s.dec.partialCode

/-- R171: decode the eight bits of one payload byte. -/
def execDecFeed (sym : Byte) (s : State) : Result :=
  whenAccepted (.decFeed sym) s (.next (
    emit (.decFeed sym) (feedByte sym s).out (feedWrites (feedByte sym s) (Instr.decFeed sym).header) s))

/-- R172: the end of the payload; TRUNCATED_STREAM when symbols are still owed. -/
def execDecEnd (s : State) : Result :=
  whenAccepted .decEnd s (.next (
    if s.dec.remaining = 0 then complete { s with dec := { s.dec with mode := .idle } }
    else raise .truncatedStream (if s.dec.plen = 0 then 0 else 1) s.dec.remaining 0 Instr.decEnd.header s))

end Sys2Proof.Machine
end

