-- ==== Sys2Proof/Machine/BitEncoder.lean ====
section
/-! DEFINITION. The bit-stream encoder: ENC_INIT, ENC_BYTE, ENC_FLUSH (44_encoder.md R140 to R147). -/

namespace Sys2Proof.Machine

/-- R141: the bits `c` appended one by one to the pending bits `acc`: the bytes completed on the way, first bit of each
group in bit 7, and the bits left pending. -/
def packBits : Bits → Bits → List Byte × Bits
  | acc, [] => ([], acc)
  | acc, b :: bs =>
    if (acc ++ [b]).length = 8 then
      let r := packBits [] bs
      (byteOfBits (acc ++ [b]) :: r.1, r.2)
    else packBits (acc ++ [b]) bs

/-- R141: what appending the code of `sym` to the pending bits gives: the bytes to push and the bits left pending. -/
def encodeSym (sym : Byte) (s : State) : List Byte × Bits := packBits s.enc.pending (s.ct.code sym)

/-- R142: the pending bits, if any, zero-padded to a byte. -/
def flushBytes (s : State) : List Byte := if s.enc.pending.isEmpty then [] else [byteOfBits s.enc.pending]

/-- R140: pending bits are discarded and ENC_BITS becomes 0. -/
def execEncInit (s : State) : Result :=
  whenAccepted .encInit s (.next (complete { s with enc := { acc := 0, accLen := 0, bits := 0 } }))

/-- R141: the writes of ENC_BYTE after its pushes: the bits left pending, and ENC_BITS plus the code's length modulo
2^64. -/
def encodeWrites (len : Byte) (rest : Bits) (t : State) : State :=
  { t with enc := { t.enc.withPending rest with bits := t.enc.bits + len.setWidth 64 } }

/-- R141, R145: append the code of `sym`, push each byte it completes; MISSING_CODE when `sym` has no entry. -/
def execEncByte (sym : Byte) (s : State) : Result :=
  whenAccepted (.encByte sym) s (.next (
    if entry s.ct.len sym = 0 then raise .missingCode 0 0 0 (Instr.encByte sym).header s
    else
      emit (.encByte sym) (encodeSym sym s).1 (encodeWrites (entry s.ct.len sym) (encodeSym sym s).2) s))

/-- R142: the writes of ENC_FLUSH after its push: nothing is pending. -/
def flushWrites (t : State) : State := { t with enc := t.enc.withPending [] }

/-- R142: pad the last byte and emit it, or nothing when no bit is pending; ENC_BITS keeps its value. -/
def execEncFlush (s : State) : Result :=
  whenAccepted .encFlush s (.next (
    if s.enc.pending.isEmpty then complete s else emit .encFlush (flushBytes s) flushWrites s))

end Sys2Proof.Machine
end

