-- ==== Sys2Proof/Machine/CodeGen.lean ====
section
/-! DEFINITION. The code-table generator: GEN_CODES (43_code_table.md R125 to R132). -/

namespace Sys2Proof.Machine

/-- R125: `visit(i, p)`: the leaves below handle `i` with their paths, left = append 0, right = append 1. `fuel` is the
number of levels still allowed; none where the arena holds no finite tree of that depth (log 12). -/
def visit (node : Vector Node Config.nodeMax) : Nat → BitVec 9 → Bits → Option (List (Byte × Bits))
  | 0, _, _ => none
  | fuel + 1, i, p =>
    match node[i.toNat]? with
    | none => none
    | some (.leaf sym _) => some [(sym, p)]
    | some (.internal _ left right) =>
      match visit node fuel left (p ++ [false]) with
      | none => none
      | some below =>
        match visit node fuel right (p ++ [true]) with
        | none => none
        | some above => some (below ++ above)

/-- R125, R126: every symbol of the tree with its code; a root that is a leaf gets the one-bit code "0". A path has at
most L_MAX bits (R121). -/
def treeCodes (t : Tree) : Option (List (Byte × Bits)) :=
  match t.node[t.root.toNat]? with
  | some (.leaf sym _) => some [(sym, [false])]
  | _ => visit t.node (Config.lMax + 1) t.root []

/-- R125: the code table that holds exactly the given entries. -/
def tableOf (codes : List (Byte × Bits)) : CodeTable :=
  codes.foldl (fun ct c => ct.put c.1 c.2) CodeTable.empty

/-- R125, R132: write the code table from the tree and discard the tree; ILLEGAL_COMMAND sub-code 4 when there is
none. -/
def execGenCodes (s : State) : Result :=
  whenAccepted .genCodes s (
    if s.tree.valid = false then
      .next (raise .illegalCommand 4 Instr.genCodes.header 0 Instr.genCodes.header s)
    else
      match treeCodes s.tree with
      | none => .fault .arenaHoldsNoTree
      | some codes => .next (complete { s with ct := tableOf codes, tree := { s.tree with valid := false } }))

end Sys2Proof.Machine
end

