-- ==== Sys2Proof/Machine/Codebook.lean ====
section
/-! DEFINITION. The code-table load path: CT_CLEAR and CT_LOAD (45_codebook_load.md R155 to R162). -/

namespace Sys2Proof.Machine

/-- R159: the symbol whose entry holds the code `c`, of length `len`, already. -/
def CodeTable.holder (ct : CodeTable) (len : Byte) (c : Bits) : Option Byte :=
  allSymbols.find? fun t => entry ct.len t == len && load (entry ct.bits t) len.toNat == c

/-- R155: no symbol has a code. -/
def execCtClear (s : State) : Result :=
  whenAccepted .ctClear s (.next (complete { s with ct := CodeTable.empty }))

/-- R156 to R160: load one codebook record. The checks in order: empty code, duplicate symbol, duplicate code;
prefixes are not checked. -/
def execCtLoad (sym len : Byte) (data : List Word) (s : State) : Result :=
  whenAccepted (.ctLoad sym len data) s (.next (
    let h := (Instr.ctLoad sym len data).header
    let c := loadWords data len.toNat
    if len = 0 then raise .corruptCodebook 1 0 0 h s
    else if entry s.ct.len sym ≠ 0 then raise .corruptCodebook 2 (sym.setWidth 32) 0 h s
    else
      match s.ct.holder len c with
      | some t => raise .corruptCodebook 3 (t.setWidth 32) 0 h s
      | none => complete { s with ct := s.ct.put sym c }))

end Sys2Proof.Machine
end

