-- ==== Sys2Proof/Machine/Control.lean ====
section
/-! DEFINITION. The command of the front end: NOP (47_control.md R194). -/

namespace Sys2Proof.Machine

/-- R194: no effect. -/
def execNop (s : State) : Result := whenAccepted .nop s (.next (complete s))

end Sys2Proof.Machine
end

