-- ==== Sys2Proof/Machine/Frequency.lean ====
section
/-! DEFINITION. The frequency accumulator: FREQ_CLEAR and FREQ_ACC (41_frequency.md R100 to R105). -/

namespace Sys2Proof.Machine

/-- R102: one more occurrence of `sym`. -/
def FreqTable.add (f : FreqTable) (sym : Byte) : FreqTable :=
  { count := setEntry f.count sym (entry f.count sym + 1), total := f.total + 1 }

/-- R101: every counter and the total become 0. -/
def execFreqClear (s : State) : Result :=
  whenAccepted .freqClear s (.next (complete { s with freq := FreqTable.empty }))

/-- R102, R207: count one input byte; a full TOTAL raises COUNT_OVERFLOW and changes no count. -/
def execFreqAcc (sym : Byte) (s : State) : Result :=
  whenAccepted (.freqAcc sym) s (.next (
    if s.freq.total = 0xFFFFFFFF then raise .countOverflow 0 0 0 (Instr.freqAcc sym).header s
    else complete { s with freq := s.freq.add sym }))

end Sys2Proof.Machine
end

