-- ==== Sys2Proof/Machine/TreeBuilder.lean ====
section
/-! DEFINITION. The tree builder: BUILD (42_tree_builder.md R110 to R121). -/

namespace Sys2Proof.Machine

/-- A node in the priority collection `A` of R110: its handle, and beside it NODE[handle].freq. -/
structure HeapEntry where
  freq : Word
  handle : BitVec 9
deriving DecidableEq, Repr

/-- R112: the smaller key `(freq, handle)`, compared lexicographically, goes first. -/
def HeapEntry.before (a b : HeapEntry) : Bool :=
  decide (a.freq < b.freq) || (decide (a.freq = b.freq) && decide (a.handle < b.handle))

/-- R110, R112: `argmin` over a non-empty collection, and the collection without it. -/
def popMin : List HeapEntry → Option (HeapEntry × List HeapEntry)
  | [] => none
  | e :: es =>
    match popMin es with
    | none => some (e, [])
    | some (m, rest) => if e.before m then some (e, es) else some (m, e :: rest)

/-- The variables of R110's pseudocode: the arena, the collection `A` and `next`. -/
structure Builder where
  node : Vector Node Config.nodeMax
  heap : List HeapEntry
  next : Nat
deriving DecidableEq, Repr

/-- R104, R111: the symbols that have an entry, in ascending order. -/
def presentSymbols (f : FreqTable) : List Byte := allSymbols.filter fun s => entry f.count s != 0

/-- R110, R111: the leaf of one symbol takes the next handle and joins the collection. -/
def addLeaf (f : FreqTable) (b : Builder) (sym : Byte) : Builder :=
  { node := b.node.setIfInBounds b.next (.leaf sym (entry f.count sym))
    heap := b.heap ++ [{ freq := entry f.count sym, handle := BitVec.ofNat 9 b.next }]
    next := b.next + 1 }

/-- R113, R114: one pass. The first node removed becomes the left child, the second the right child. The sum never
overflows (R117); in a state no run reaches it wraps (log 13). -/
def mergePass (b : Builder) : Builder :=
  match popMin b.heap with
  | none => b
  | some (x, heap₁) =>
    match popMin heap₁ with
    | none => b
    | some (y, heap₂) =>
      { node := b.node.setIfInBounds b.next (.internal (x.freq + y.freq) x.handle y.handle)
        heap := heap₂ ++ [{ freq := x.freq + y.freq, handle := BitVec.ofNat 9 b.next }]
        next := b.next + 1 }

/-- R113: so many passes. -/
def mergePasses : Nat → Builder → Builder
  | 0, b => b
  | n + 1, b => mergePasses n (mergePass b)

/-- R110: the collection of leaves over the arena as it was (R119: entries that are not written keep what they
held). -/
def leafBuilder (f : FreqTable) (node : Vector Node Config.nodeMax) : Builder :=
  (presentSymbols f).foldl (addLeaf f) { node := node, heap := [], next := 0 }

/-- R110, R113: the tree after `n - 1` passes; ROOT is the only element left in the collection. -/
def buildTree (f : FreqTable) (node : Vector Node Config.nodeMax) : Tree :=
  let b := mergePasses ((presentSymbols f).length - 1) (leafBuilder f node)
  { node := b.node
    root := (b.heap.head?.map HeapEntry.handle).getD 0
    nnodes := BitVec.ofNat 10 b.next
    valid := true }

/-- R110, R116: build the tree; EMPTY_INPUT when no symbol is present. -/
def execBuild (s : State) : Result :=
  whenAccepted .build s (.next (
    if (presentSymbols s.freq).isEmpty then raise .emptyInput 0 0 0 Instr.build.header s
    else complete { s with tree := buildTree s.freq s.tree.node }))

end Sys2Proof.Machine
end

