-- ==== Sys2Proof/Machine/Dispatch.lean ====
section
/-! DEFINITION. The meaning of each command (30_encoding.md R90), one arm per constructor. -/

namespace Sys2Proof.Machine

def exec (i : Instr) (s : State) : Host.Outcome State Fault Refusal :=
  match i with
  | .nop => Sys2Proof.Machine.execNop s
  | .freqClear => Sys2Proof.Machine.execFreqClear s
  | .freqAcc sym => Sys2Proof.Machine.execFreqAcc sym s
  | .build => Sys2Proof.Machine.execBuild s
  | .genCodes => Sys2Proof.Machine.execGenCodes s
  | .encInit => Sys2Proof.Machine.execEncInit s
  | .encByte sym => Sys2Proof.Machine.execEncByte sym s
  | .encFlush => Sys2Proof.Machine.execEncFlush s
  | .ctClear => Sys2Proof.Machine.execCtClear s
  | .ctLoad sym len data => Sys2Proof.Machine.execCtLoad sym len data s
  | .decStart count => Sys2Proof.Machine.execDecStart count s
  | .decFeed sym => Sys2Proof.Machine.execDecFeed sym s
  | .decEnd => Sys2Proof.Machine.execDecEnd s

end Sys2Proof.Machine
end

