-- ==== Sys2Proof/Machine/Engine.lean ====
section
/-! DEFINITION. The engine's step (47_control.md R190 to R197): taking a command from CMDQ, acceptance, holds; and the
turn of whichever agent moves (log 1). -/

namespace Sys2Proof.Machine

/-- R91, R190: a header word that spells no command raises ILLEGAL_COMMAND, sub-code 1 or 2, with ERR_INFO = h. The
two other answers of the decoder do not arise from a header word. -/
def refuseWord (d : DecodeError) (h : Word) (s : State) : State :=
  match d with
  | .unassignedOpcode => raise .illegalCommand 1 h 0 h s
  | .reservedNonzero => raise .illegalCommand 2 h 0 h s
  | .missingExtension => s
  | .noWord => s

/-- R190, R191 steps 5 and 6, R195: the command in execution takes the extension words it misses; with all of them it
runs, else the engine holds until the host writes more. -/
def runCommand (e : Exec) (s : State) : Result :=
  let e' := (takeWords e s).1
  let t := (takeWords e s).2
  if 0 < e'.missing then .next t
  else
    match decode (e'.header :: e'.taken) with
    | .ok (i, _) => exec i t
    | .error d => .next (refuseWord d e'.header t)

/-- R190, R191 steps 1 to 4: the engine takes the word `h` from the head of CMDQ. In the error state it is discarded
(R192); a header refused here takes none of its extension words. -/
def takeHeader (h : Word) (rest : List Word) (s : State) : Result :=
  if s.err.error then .next { s with cmdq := rest }
  else
    match classify h with
    | .error d => .next (refuseWord d h { s with cmdq := rest })
    | .ok op =>
      if accepted op s.dec.mode then
        runCommand { header := h, taken := [], pushed := 0 } (beginCommand h rest s)
      else .next (refuseMode h { s with cmdq := rest })

/-- R190, R195, R230: the engine's turn, with at most so many output pushes. While `rst_n` is low, and with CMDQ empty
and EXEC = NONE, there is no step: the state stays (log 2). -/
def engineTurn (pushes : Option Nat) (s : State) : Result :=
  let t := { s with grant := pushes }
  if s.rstN = false then .next t
  else
    match s.executing, s.cmdq with
    | some e, _ => runCommand e t
    | none, [] => .next t
    | none, h :: rest => takeHeader h rest t

/-- The turn of the agent `State.sched` names next; with nothing scheduled the engine moves (log 1). -/
def nextTurn (s : State) : Result :=
  match s.sched with
  | [] => engineTurn none s
  | .host :: ts => .next (hostTurn { s with sched := ts })
  | .engine k :: ts => engineTurn k { s with sched := ts }
  | .rstN level :: ts => .next (setRstN level { s with sched := ts })

/-- The words of a command of the opcode table (log 10): its header and the extension words the header takes, those
the table gives no bits being zero. -/
def fetchWords (nbits w : Nat) : List Word :=
  (tableWords nbits w).take (1 + extCount ((tableWords nbits w).headD 0))

/-- The command placed at the head of CMDQ, with no command in execution, and the next turn the engine's (log 10). -/
def placeCommand (ws : List Word) (s : State) : State :=
  { s with cmdq := ws ++ s.cmdq, executing := none, rstN := true, sched := .engine none :: s.sched }

end Sys2Proof.Machine
end

