-- ==== Sys2Proof/Machine/Step.lean ====
section
/-! DEFINITION. One step of the machine: the turn of the agent that moves next (10_state.md R20, 47_control.md R190). -/

namespace Sys2Proof.Machine

/-- One step: the host's bus access, the pin `rst_n`, or the engine's step (R20, R190). -/
def step (s : State) : Host.Outcome State Fault Refusal := nextTurn s

/-- `s` with the instruction of the opcode table whose bits are `w` as the words CMDQ gives next, so that the next
step is the engine's and takes exactly them (R22, R190). It stands for the host's CMD writes of those words (log 10). -/
def State.withFetchWord (s : State) (nbits w : Nat) : State := placeCommand (fetchWords nbits w) s

end Sys2Proof.Machine
end

