-- ==== Sys2Proof/Machine/Assembler.lean ====
section
/-! DEFINITION. The assembly syntax of the spec (30_encoding.md R93) and its pseudo-commands (R94): a line of text is
read into the commands it stands for. Nothing of the machine depends on this file. -/

namespace Sys2Proof.Machine

/-! ## Pseudo-commands (R94) -/

/-- R88: the data words of a code: `ceil(|c|/32)` words, first code bit in bit 31 of the first. -/
def dataWords (c : Bits) : List Word :=
  (List.range ((c.length + 31) / 32)).map fun j => store 32 ((c.drop (32 * j)).take 32)

/-- R93: `CT_LOAD sym, "c"`. -/
def loadCode (sym : Byte) (c : Bits) : Instr := .ctLoad sym (BitVec.ofNat 8 c.length) (dataWords c)

/-- R94: `FREQ_BYTES x1, .., xn`. -/
def freqBytes (xs : List Byte) : List Instr := xs.map .freqAcc

/-- R94: `ENC_BYTES x1, .., xn`. -/
def encBytes (xs : List Byte) : List Instr := xs.map .encByte

/-- R94: `DEC_BYTES x1, .., xn`. -/
def decBytes (xs : List Byte) : List Instr := xs.map .decFeed

/-- R236: the commands of a compression up to ENC_INIT: the counts, the tree and the code table. -/
def tablePass (xs : List Byte) : List Instr := [.freqClear] ++ freqBytes xs ++ [.build, .genCodes, .encInit]

/-- R236: the commands of a compression after ENC_INIT: the payload. -/
def payloadPass (xs : List Byte) : List Instr := encBytes xs ++ [.encFlush]

/-- R94, R236: `COMPRESS x1, .., xn`. -/
def compress (xs : List Byte) : List Instr := tablePass xs ++ payloadPass xs

/-- R94, R237: `LOAD_BOOK s1:"c1", .., sk:"ck"`. -/
def loadBook (book : List (Byte × Bits)) : List Instr := .ctClear :: book.map fun r => loadCode r.1 r.2

/-- R94, R237: `DECOMPRESS n, y1, .., ym`. -/
def decompress (count : Word) (ys : List Byte) : List Instr := [.decStart count] ++ decBytes ys ++ [.decEnd]

/-! ## Text (R93, log 20) -/

/-- The tokens of a line. -/
inductive Tok where
  | name (cs : List Char)
  | chr (c : Char)
  | str (cs : List Char)
  | comma
  | colon
deriving DecidableEq, Repr

/-- Where the reader of a line stands: between tokens, in a name or number, or in a quoted string. -/
inductive LexMode where
  | plain
  | name (acc : List Char)
  | str (acc : List Char)
deriving DecidableEq, Repr

/-- R93: the tokens of a line; a comment runs from `;` to the end of the line. DESIGN CHOICE (log 20, safe), R93 does
not say: a `;` inside a character or string literal belongs to the literal and begins no comment. -/
def lexLine : LexMode → List Char → Option (List Tok)
  | .plain, [] => some []
  | .name acc, [] => some [.name acc.reverse]
  | .str _, [] => none
  | .str acc, c :: cs =>
    if c = '"' then (lexLine .plain cs).map (.str acc.reverse :: ·) else lexLine (.str (c :: acc)) cs
  | .plain, '\'' :: c :: '\'' :: cs => (lexLine .plain cs).map (.chr c :: ·)
  | .plain, c :: cs =>
    if c = ';' then some []
    else if c = ' ' ∨ c = '\t' then lexLine .plain cs
    else if c = ',' then (lexLine .plain cs).map (.comma :: ·)
    else if c = ':' then (lexLine .plain cs).map (.colon :: ·)
    else if c = '"' then lexLine (.str []) cs
    else lexLine (.name [c]) cs
  | .name acc, c :: cs =>
    if c = ';' then some [.name acc.reverse]
    else if c = ' ' ∨ c = '\t' then (lexLine .plain cs).map (.name acc.reverse :: ·)
    else if c = ',' then (lexLine .plain cs).map fun ts => .name acc.reverse :: .comma :: ts
    else if c = ':' then (lexLine .plain cs).map fun ts => .name acc.reverse :: .colon :: ts
    else lexLine (.name (c :: acc)) cs

/-- The value of a digit in the given base. -/
def digitValue (base : Nat) (c : Char) : Option Nat :=
  let v :=
    if '0' ≤ c ∧ c ≤ '9' then c.toNat - '0'.toNat
    else if 'a' ≤ c ∧ c ≤ 'f' then c.toNat - 'a'.toNat + 10
    else if 'A' ≤ c ∧ c ≤ 'F' then c.toNat - 'A'.toNat + 10
    else base
  if v < base then some v else none

/-- The value of a string of digits after the value `acc`. -/
def digitsValue (base : Nat) : Nat → List Char → Option Nat
  | acc, [] => some acc
  | acc, c :: cs =>
    match digitValue base c with
    | none => none
    | some v => digitsValue base (acc * base + v) cs

/-- R93: a decimal or `0x` hexadecimal integer. -/
def numberValue : List Char → Option Nat
  | [] => none
  | '0' :: 'x' :: c :: cs => digitsValue 16 0 (c :: cs)
  | c :: cs => digitsValue 10 0 (c :: cs)

/-- R93: the code of an ASCII character. -/
def charByte (c : Char) : Option Byte := if c.toNat < 128 then some (BitVec.ofNat 8 c.toNat) else none

/-- R93: a symbol or byte operand. -/
def byteOperand : Tok → Option Byte
  | .name cs =>
    match numberValue cs with
    | some n => if n < 256 then some (BitVec.ofNat 8 n) else none
    | none => none
  | .chr c => charByte c
  | .str _ => none
  | .comma => none
  | .colon => none

/-- R93: the COUNT operand. -/
def countOperand : Tok → Option Word
  | .name cs =>
    match numberValue cs with
    | some n => if n < 2 ^ 32 then some (BitVec.ofNat 32 n) else none
    | none => none
  | .chr _ => none
  | .str _ => none
  | .comma => none
  | .colon => none

/-- R93: the characters `0` and `1` of a code. -/
def bitChars : List Char → Option Bits
  | [] => some []
  | c :: cs =>
    match bitChars cs with
    | none => none
    | some p => if c = '0' then some (false :: p) else if c = '1' then some (true :: p) else none

/-- R93: the `"bits"` operand, 1 to 255 characters. -/
def codeOperand : Tok → Option Bits
  | .str cs => if 1 ≤ cs.length ∧ cs.length ≤ Config.lMax then bitChars cs else none
  | .name _ => none
  | .chr _ => none
  | .comma => none
  | .colon => none

/-- R94: the bytes one operand of a pseudo-command stands for: a byte, or the characters of a string literal. -/
def bytesOperand : Tok → Option (List Byte)
  | .str cs => cs.mapM charByte
  | .name cs => (byteOperand (.name cs)).map fun b => [b]
  | .chr c => (charByte c).map fun b => [b]
  | .comma => none
  | .colon => none

/-- R94: a list of byte operands separated by commas, possibly empty. -/
def bytesList : List Tok → Option (List Byte)
  | [] => some []
  | [t] => bytesOperand t
  | t :: .comma :: ts =>
    match bytesOperand t, ts, bytesList ts with
    | some xs, _ :: _, some ys => some (xs ++ ys)
    | _, _, _ => none
  | _ => none

/-- R94: a list of records `s:"c"` separated by commas, possibly empty. -/
def bookList : List Tok → Option (List (Byte × Bits))
  | [] => some []
  | [s, .colon, c] => do return [(← byteOperand s, ← codeOperand c)]
  | s :: .colon :: c :: .comma :: ts =>
    match byteOperand s, codeOperand c, ts, bookList ts with
    | some sym, some code, _ :: _, some rs => some ((sym, code) :: rs)
    | _, _, _, _ => none
  | _ => none

/-- R93: the operands of a command without any. -/
def noOperand (i : Instr) : List Tok → Option (List Instr)
  | [] => some [i]
  | _ :: _ => none

/-- R93: the operand of a format B command. -/
def oneByte (f : Byte → Instr) : List Tok → Option (List Instr)
  | [t] => (byteOperand t).map fun b => [f b]
  | _ => none

/-- R93, R94: the commands a mnemonic with its operands stands for. -/
def assembleLine (name : String) (ops : List Tok) : Option (List Instr) :=
  match name with
  | "NOP" => noOperand .nop ops
  | "FREQ_CLEAR" => noOperand .freqClear ops
  | "FREQ_ACC" => oneByte .freqAcc ops
  | "BUILD" => noOperand .build ops
  | "GEN_CODES" => noOperand .genCodes ops
  | "ENC_INIT" => noOperand .encInit ops
  | "ENC_BYTE" => oneByte .encByte ops
  | "ENC_FLUSH" => noOperand .encFlush ops
  | "CT_CLEAR" => noOperand .ctClear ops
  | "CT_LOAD" =>
    match ops with
    | [s, .comma, c] => do return [loadCode (← byteOperand s) (← codeOperand c)]
    | _ => none
  | "DEC_START" =>
    match ops with
    | [t] => (countOperand t).map fun n => [.decStart n]
    | _ => none
  | "DEC_FEED" => oneByte .decFeed ops
  | "DEC_END" => noOperand .decEnd ops
  | "FREQ_BYTES" => (bytesList ops).map freqBytes
  | "ENC_BYTES" => (bytesList ops).map encBytes
  | "DEC_BYTES" => (bytesList ops).map decBytes
  | "COMPRESS" => (bytesList ops).map compress
  | "LOAD_BOOK" => (bookList ops).map loadBook
  | "DECOMPRESS" =>
    match ops with
    | [t] => (countOperand t).map fun n => decompress n []
    | t :: .comma :: u :: ts =>
      match countOperand t, bytesList (u :: ts) with
      | some n, some ys => some (decompress n ys)
      | _, _ => none
    | _ => none
  | _ => none

/-- R93: the commands of one line; an empty line or a line of comment has none; none where the text is not of the
syntax. -/
def assembleText (line : String) : Option (List Instr) :=
  match lexLine .plain line.toList with
  | some [] => some []
  | some (.name cs :: ops) => assembleLine (String.ofList cs) ops
  | _ => none

end Sys2Proof.Machine
end

