-- ==== Sys2Proof/Safety.lean ====
section
/-! DEFINITION. What a state of a run satisfies and when the engine has no step, in the terms the statements use. -/

namespace Sys2Proof.Machine

/-! ## Waiting and holding -/

/-- R190: the engine is idle: CMDQ is empty and EXEC = NONE. -/
def EngineIdle (s : State) : Prop := s.executing = none ∧ s.cmdq = []

/-- The bytes a command pushes to OUTQ, in order (R141, R142, R171); no other command pushes. -/
def pushesOf (i : Instr) (s : State) : List Byte :=
  match i with
  | .nop => []
  | .freqClear => []
  | .freqAcc _ => []
  | .build => []
  | .genCodes => []
  | .encInit => []
  | .encByte sym => (encodeSym sym s).1
  | .encFlush => flushBytes s
  | .ctClear => []
  | .ctLoad _ _ _ => []
  | .decStart _ => []
  | .decFeed sym => (feedByte sym s).out
  | .decEnd => []

/-- R43, R195: the command in execution, if any, was accepted, and it waits for an extension word or has bytes left to
push. -/
def ExecWaits (s : State) : Prop :=
  ∀ e, s.executing = some e →
    s.err.error = false ∧
    (∃ op, classify e.header = .ok op ∧ accepted op s.dec.mode = true) ∧
    (0 < e.missing ∨ ∃ i, decode (e.header :: e.taken) = .ok (i, []) ∧ e.pushed < (pushesOf i s).length)

/-- R239: the host's bus waits on a full CMDQ and cannot read meanwhile. -/
def HostStalled (s : State) : Prop :=
  s.host.stalled.isSome = true ∧ cmdRoom s = false ∧ s.host.readsPassStall = false

/-- R195 (b): the command in execution has bytes left to push and OUTQ is full. -/
def HoldsOnPush (s : State) : Prop :=
  ∃ e i, s.executing = some e ∧ e.missing = 0 ∧ decode (e.header :: e.taken) = .ok (i, []) ∧
    accepted i.op s.dec.mode = true ∧ e.pushed < (pushesOf i s).length ∧
    s.params.outDepth.toNat ≤ s.outq.length

/-! ## Sequences of commands, without the queues -/

/-- Commands executed one after another; after an error no later command executes (R192). -/
def execAll : List Instr → State → Result
  | [], s => .next s
  | i :: is, s =>
    match exec i s with
    | .next t => if t.err.error then .next t else execAll is t
    | .fault f => .fault f
    | .refused r => .refused r

/-- Commands executed one after another by a host that drains OUTQ before each (R239), and the bytes drained; none
where a command raises an error or holds. -/
def runDrained : List Instr → State → Option (State × List Byte)
  | [], s => some (s, [])
  | i :: is, s =>
    match exec i { s with outq := [] } with
    | .next t =>
      if t.executing.isSome || t.err.error then none
      else
        match runDrained is t with
        | some (u, out) => some (u, t.outq ++ out)
        | none => none
    | .fault _ => none
    | .refused _ => none

/-- R236: the records of a codebook: the symbols that have a code, ascending, each with its code. -/
def bookOf (ct : CodeTable) : List (Byte × Bits) :=
  (allSymbols.filter fun sym => entry ct.len sym != 0).map fun sym => (sym, ct.code sym)

/-- R125: the node at the end of a path from handle `i`, 0 to the left child and 1 to the right child. -/
def follow (node : Vector Node Config.nodeMax) : BitVec 9 → Bits → Option Node
  | i, [] => node[i.toNat]?
  | i, b :: bs =>
    match node[i.toNat]? with
    | some (.internal _ left right) => follow node (if b then right else left) bs
    | some (.leaf _ _) => none
    | none => none

/-- R110, R119: handle `i` is a child of an internal node before handle `j`: it has left the collection. -/
def ChildBefore (node : Vector Node Config.nodeMax) (j i : Nat) : Prop :=
  ∃ (k : Nat) (f : Word) (l r : BitVec 9), k < j ∧ node[k]? = some (.internal f l r) ∧ (l.toNat = i ∨ r.toNat = i)

/-- R26: the frequency of a node. -/
def Node.freq : Node → Word
  | .leaf _ f => f
  | .internal f _ _ => f

/-! ## Invariants of a run -/

/-- R24, R103: TOTAL is the sum of the counters. -/
def FreqSumsToTotal (f : FreqTable) : Prop :=
  (allSymbols.map fun sym => (entry f.count sym).toNat).sum = f.total.toNat

/-- R30: every bit of CT_BITS[s] at a position CT_LEN[s] or beyond is 0. -/
def CodesCanonical (ct : CodeTable) : Prop :=
  ∀ sym k, (entry ct.len sym).toNat ≤ k → (entry ct.bits sym).getMsbD k = false

/-- R31: no two symbols with a code have the same code. -/
def CodesDistinct (ct : CodeTable) : Prop :=
  ∀ x y, x ≠ y → entry ct.len x ≠ 0 → entry ct.len y ≠ 0 → ct.code x ≠ ct.code y

/-- R17, R128: no code is a prefix of another symbol's code. -/
def PrefixFree (ct : CodeTable) : Prop :=
  ∀ x y, x ≠ y → entry ct.len x ≠ 0 → entry ct.len y ≠ 0 → ¬ ct.code x <+: ct.code y

/-- R33: the bits of ENC_ACC at positions ENC_ACC_LEN and beyond are 0. -/
def PendingCanonical (e : Encoder) : Prop := ∀ k, e.accLen.toNat ≤ k → e.acc.getMsbD k = false

/-- R37: the bits of DEC_PBITS at positions DEC_PLEN and beyond are 0. -/
def PartialCanonical (d : Decoder) : Prop := ∀ k, d.plen.toNat ≤ k → d.pbits.getMsbD k = false

/-- R37, R175: while decoding without an error the partial code is empty or live, and no more symbols are owed than
were declared. -/
def PartialLive (s : State) : Prop :=
  s.dec.mode = .decoding → s.err.error = false →
    (s.dec.plen = 0 ∨ s.ct.live s.dec.partialCode = true) ∧ s.dec.remaining ≤ s.dec.declared

/-- R28: while TREE_VALID = 1 the arena holds a tree GEN_CODES can walk. -/
def TreeWalkable (t : Tree) : Prop := t.valid = true → (treeCodes t).isSome = true

/-- R38, R39: the record is clear until an error is raised. -/
def RecordClear (e : ErrRecord) : Prop := e.error = false → e = ErrRecord.clear

/-- R41, R42: neither queue holds more than its depth. -/
def QueuesFit (s : State) : Prop :=
  s.cmdq.length ≤ s.params.cmdDepth.toNat ∧ s.outq.length ≤ s.params.outDepth.toNat

/-- R230, R232: while `rst_n` is low every element holds its reset value. -/
def LowIsReset (s : State) : Prop := s.rstN = false → resetElements s = s

/-- The tables of a run keep their laws (R24, R28, R30, R31). -/
structure TablesInv (s : State) : Prop where
  freqSums : FreqSumsToTotal s.freq
  walkable : TreeWalkable s.tree
  canonical : CodesCanonical s.ct
  distinct : CodesDistinct s.ct

/-- The encoder, the decoder and the error record of a run keep their laws (R33, R37, R39, R175). -/
structure UnitsInv (s : State) : Prop where
  pending : PendingCanonical s.enc
  partialStored : PartialCanonical s.dec
  partialLive : PartialLive s
  record : RecordClear s.err

end Sys2Proof.Machine
end

