-- ==== Sys2Proof/Certificates/Slice0/Obligations.lean ====
section
/-! DEFINITION. The statements about the HCE, each from the numbered rules its docstring cites. In every statement the
answer of a command is written out field by field as `{ s with ... }`: what is not named is unchanged. -/

open Sys2Proof Sys2Proof.Machine

/-! ## Encoding -/

/-- R88, R90, R93: words written out from the opcode map decode to the commands they spell, one or more per unit. -/
def Obligations.SampleWordsDecode : Prop :=
  decode [0x00000000] = .ok (.nop, []) ∧
  decode [0x10000000] = .ok (.freqClear, []) ∧
  decode [0x11000061] = .ok (.freqAcc 0x61, []) ∧
  decode [0x20000000] = .ok (.build, []) ∧
  decode [0x30000000] = .ok (.genCodes, []) ∧
  decode [0x410000FF] = .ok (.encByte 0xFF, []) ∧
  decode [0x42000000] = .ok (.encFlush, []) ∧
  decode [0x51000162, 0x00000000] = .ok (.ctLoad 0x62 1 [0], []) ∧
  decode [0x51002110, 0xFFFFFFFF, 0, 7] = .ok (.ctLoad 0x10 33 [0xFFFFFFFF, 0], [7]) ∧
  decode [0x60000000, 0x00000004] = .ok (.decStart 4, []) ∧
  decode [0x610000E0] = .ok (.decFeed 0xE0, []) ∧
  decode [0x62000000] = .ok (.decEnd, []) ∧
  decode [0x01000000] = .error .unassignedOpcode ∧
  decode [0x11000161] = .error .reservedNonzero ∧
  decode [0x60000000] = .error .missingExtension

/-- R85, R87, R88: a well-formed command's words decode to it, with every operand, and the words after it are left. -/
def Obligations.DecodeEncodeRoundTrip : Prop :=
  ∀ (i : Instr) (rest : List Word), WellFormed i → decode (encode i ++ rest) = .ok (i, rest)

/-- R85 to R89: words that decode are exactly the words of the command read, so no bit of them is dropped. -/
def Obligations.DecodedWordsAreEncoded : Prop :=
  ∀ (ws rest : List Word) (i : Instr), decode ws = .ok (i, rest) → WellFormed i ∧ ws = encode i ++ rest

/-- R86, R90: a header word spells a command exactly when its opcode is the command's and the fields its format
reserves are zero; with an opcode of the map and another field set it is a nonzero reserved field. -/
def Obligations.HeaderFieldsClassified : Prop :=
  ∀ (h : Word) (op : Op),
    let fields := h.extractLsb' 16 8 = 0 ∧ (op ≠ .ctLoad → lenOf h = 0) ∧
      (op ≠ .ctLoad → op ≠ .freqAcc → op ≠ .encByte → op ≠ .decFeed → symOf h = 0)
    (classify h = .ok op ↔ opcOf h = op.code ∧ fields) ∧
    (opcOf h = op.code → ¬ fields → classify h = .error .reservedNonzero)

/-! ## The engine -/

/-- R91, R92, R191, R201, R206, R209: a header word of a reserved opcode raises ILLEGAL_COMMAND sub-code 1; one with
opcode 0x00 and any other bit set, and one with the opcode of any command and a field set that its format reserves,
raises sub-code 2, in both modes; ERR_INFO is the word. The step takes the header word alone, no extension word, and
nothing else changes. -/
def Obligations.ReservedOpcodesRaise : Prop :=
  ∀ (s : State) (h : Word) (rest : List Word),
    s.sched = [] → s.rstN = true → s.executing = none → s.err.error = false → s.cmdq = h :: rest →
    (opcOf h ∉ [0x00, 0x10, 0x11, 0x20, 0x30, 0x40, 0x41, 0x42, 0x50, 0x51, 0x60, 0x61, 0x62] →
      step s = .next { s with
        cmdq := rest
        grant := none
        err := { error := true, code := .illegalCommand, sub := 1, opc := opcOf h, arg := symOf h, bitpos := 0,
                 info := h } }) ∧
    (opcOf h = 0x00 → h ≠ 0 →
      step s = .next { s with
        cmdq := rest
        grant := none
        err := { error := true, code := .illegalCommand, sub := 2, opc := 0x00, arg := symOf h, bitpos := 0,
                 info := h } }) ∧
    (∀ op : Op, opcOf h = op.code →
      (h.extractLsb' 16 8 ≠ 0 ∨ (op ≠ .ctLoad ∧ lenOf h ≠ 0) ∨
        (op ≠ .ctLoad ∧ op ≠ .freqAcc ∧ op ≠ .encByte ∧ op ≠ .decFeed ∧ symOf h ≠ 0)) →
      step s = .next { s with
        cmdq := rest
        grant := none
        err := { error := true, code := .illegalCommand, sub := 2, opc := op.code, arg := symOf h, bitpos := 0,
                 info := h } })

/-- R190, R191: with a whole command at the head of CMDQ, accepted in the mode, the step is the command's meaning at
the state in which its words are taken and EXEC holds it. -/
def Obligations.StepRunsDecoded : Prop :=
  ∀ (s : State) (i : Instr) (rest : List Word),
    s.sched = [] → s.rstN = true → s.executing = none → s.err.error = false → WellFormed i →
    accepted i.op s.dec.mode = true → s.cmdq = encode i ++ rest →
    step s = exec i { s with
      cmdq := rest
      executing := some { header := i.header, taken := i.ext, pushed := 0 }
      grant := none }

/-- R191, R193, R201, R209: outside the mode that accepts it a command raises ILLEGAL_COMMAND sub-code 3 with
ERR_INFO = h and changes nothing else; in every other case the mode accepts it. The engine's step on a header so
refused takes none of its extension words: they stay at the head of CMDQ. -/
def Obligations.ModeRefusal : Prop :=
  ∀ (i : Instr) (s : State),
    let refused := (s.dec.mode = .decoding ∧ i.op ≠ .nop ∧ i.op ≠ .decFeed ∧ i.op ≠ .decEnd) ∨
      (s.dec.mode = .idle ∧ (i.op = .decFeed ∨ i.op = .decEnd))
    let record : ErrRecord := { error := true, code := .illegalCommand, sub := 3, opc := i.op.code,
                                arg := symOf i.header, bitpos := 0, info := i.header }
    (refused → exec i s = .next { s with err := record, executing := none }) ∧
    (¬ refused → accepted i.op s.dec.mode = true) ∧
    (∀ rest, refused → s.sched = [] → s.rstN = true → s.executing = none → s.err.error = false →
      s.cmdq = encode i ++ rest →
      step s = .next { s with cmdq := i.ext ++ rest, grant := none, err := record })

/-- R43, R44, R89, R195 (a): a header whose extension words are not all in CMDQ leaves the engine waiting with the
words there are: BUSY = 1 and EXT_WAIT = 1, no unit changed, and the engine's turn then changes nothing more; at the
step that finds the missing words in CMDQ the command runs. That a holding engine has a turn, which changes nothing, is
the model's choice (log 2): by R195 it has no step. -/
def Obligations.WaitsForExtensionWords : Prop :=
  (∀ (s : State) (h : Word) (ws : List Word) (op : Op),
    s.sched = [] → s.rstN = true → s.executing = none → s.err.error = false →
    classify h = .ok op → accepted op s.dec.mode = true → ws.length < extCount h → s.cmdq = h :: ws →
    let t := { s with cmdq := [], executing := some { header := h, taken := ws, pushed := 0 }, grant := none }
    step s = .next t ∧ t.busy = true ∧ t.extWait = true ∧ step t = .next t) ∧
  (∀ (s : State) (i : Instr) (k : Nat) (rest : List Word),
    s.sched = [] → s.rstN = true → WellFormed i → k < i.ext.length →
    s.executing = some { header := i.header, taken := i.ext.take k, pushed := 0 } →
    s.cmdq = i.ext.drop k ++ rest →
    step s = exec i { s with
      cmdq := rest
      executing := some { header := i.header, taken := i.ext, pushed := 0 }
      grant := none })

/-- R192, R208, R210: in the error state with no command in execution the engine removes one word of CMDQ, whatever it
is, and changes nothing else; a step, of whichever agent, keeps the record and every unit, or it is a reset, after
which every element holds its reset value. The values of NODE, ROOT and NNODES after that reset are the model's choice
(log 4), the spec gives none. -/
def Obligations.ErrorStateLasts : Prop :=
  ∀ (s : State), s.err.error = true → s.executing = none →
    (∀ h rest, s.sched = [] → s.rstN = true → s.cmdq = h :: rest →
      step s = .next { s with cmdq := rest, grant := none }) ∧
    (∀ t, step s = .next t →
      (t.err = s.err ∧ t.executing = none ∧ t.freq = s.freq ∧ t.tree = s.tree ∧ t.ct = s.ct ∧ t.enc = s.enc ∧
        t.dec = s.dec) ∨
      resetElements t = t)

/-- R195: in every state a step leads to, the command in execution waits for an extension word or has bytes left to
push, and was accepted: the engine holds in no other case. -/
def Obligations.HoldsOnlyForWordOrSlot : Prop :=
  ∀ (s t : State), ExecWaits s → step s = .next t → ExecWaits t

/-- R195 (b), R239: with the output FIFO full under a command that has bytes to push, and the host stalled on a full
command FIFO, neither agent's turn changes anything but the schedule and the grant. That agents which cannot move
have turns, which change nothing, is the model's choice (log 2): by R195 and R239 neither ever moves. -/
def Obligations.DeadlockStays : Prop :=
  ∀ (s : State) (k : Option Nat) (ts : List Turn), HoldsOnPush s → HostStalled s →
    step { s with sched := .host :: ts } = .next { s with sched := ts } ∧
    (s.rstN = true → step { s with sched := .engine k :: ts } = .next { s with sched := ts, grant := k })

/-- R28, R197, R200: while the arena holds a tree wherever TREE_VALID = 1, every step answers a next state: no word,
access or reset is a stop. It does not say that the machine makes progress. That an idle or holding engine's turn answers
a next state too, one that changes nothing but the schedule and the grant, is the model's choice (log 2): by R190 and R195
the engine has no step there, and S6 calls a hold that is never lifted stuck. -/
def Obligations.EveryStepGoesOn : Prop :=
  ∀ (s : State), TreeWalkable s.tree → ∃ t, step s = .next t

/-! ## Control and frequency -/

/-- R194: NOP has no effect, in both modes; EXEC becomes NONE as after every command (R190). -/
def Obligations.NopDoesNothing : Prop :=
  ∀ (s : State), exec .nop s = .next { s with executing := none }

/-- R101: FREQ_CLEAR zeroes FREQ and TOTAL and changes nothing else; in DECODING mode it raises ILLEGAL_COMMAND
sub-code 3. -/
def Obligations.FreqClearZeroes : Prop :=
  decode [0x10000000] = .ok (.freqClear, []) ∧
  ∀ (s : State),
    (s.dec.mode = .idle →
      exec .freqClear s = .next { s with
        freq := { count := Vector.replicate 256 0, total := 0 }
        executing := none }) ∧
    (s.dec.mode = .decoding →
      exec .freqClear s = .next { s with
        err := { error := true, code := .illegalCommand, sub := 3, opc := 0x10, arg := 0, bitpos := 0,
                 info := 0x10000000 }
        executing := none })

/-- R102, R207: FREQ_ACC adds one to FREQ[SYM] and TOTAL, or raises COUNT_OVERFLOW with both unchanged when TOTAL is
full. -/
def Obligations.FreqAccCounts : Prop :=
  ∀ (sym : Byte),
    decode [0x11000000 ||| sym.setWidth 32] = .ok (.freqAcc sym, []) ∧
    ∀ (s : State), s.dec.mode = .idle →
      (s.freq.total ≠ 0xFFFFFFFF →
        exec (.freqAcc sym) s = .next { s with
          freq := { count := setEntry s.freq.count sym (entry s.freq.count sym + 1), total := s.freq.total + 1 }
          executing := none }) ∧
      (s.freq.total = 0xFFFFFFFF →
        exec (.freqAcc sym) s = .next { s with
          err := { error := true, code := .countOverflow, sub := 0, opc := 0x11, arg := sym, bitpos := 0, info := 0 }
          executing := none })

/-- R103: after FREQ_CLEAR and FREQ_ACC on the bytes of an input of at most 2^32 - 1 bytes, FREQ[s] is the number of
occurrences of s and TOTAL the length, and no error was raised. -/
def Obligations.CountsAreOccurrences : Prop :=
  ∀ (s : State) (xs : List Byte), s.dec.mode = .idle → s.err.error = false → xs.length < 2 ^ 32 →
    ∃ t, execAll (.freqClear :: freqBytes xs) s = .next t ∧ t.err.error = false ∧
      t.freq.total.toNat = xs.length ∧ ∀ sym, (entry t.freq.count sym).toNat = xs.count sym

/-- R24, R103: TOTAL stays the sum of the counters over every step. -/
def Obligations.StepKeepsFreqSum : Prop :=
  ∀ (s t : State), FreqSumsToTotal s.freq → step s = .next t → FreqSumsToTotal t.freq

/-! ## Tree builder -/

/-- R110, R120: with a symbol present BUILD writes the tree over the arena, sets TREE_VALID, whatever it was, and
changes nothing else. -/
def Obligations.BuildWritesTree : Prop :=
  ∀ (s : State), s.dec.mode = .idle → (∃ sym, entry s.freq.count sym ≠ 0) →
    exec .build s = .next { s with tree := buildTree s.freq s.tree.node, executing := none } ∧
    (buildTree s.freq s.tree.node).valid = true

/-- R116, R202: BUILD with every FREQ[s] = 0 raises EMPTY_INPUT and writes nothing; where TOTAL is the sum of the
counters this is TOTAL = 0. -/
def Obligations.BuildRefusesEmpty : Prop :=
  ∀ (s : State), s.dec.mode = .idle →
    ((∀ sym, entry s.freq.count sym = 0) →
      exec .build s = .next { s with
        err := { error := true, code := .emptyInput, sub := 0, opc := 0x20, arg := 0, bitpos := 0, info := 0 }
        executing := none }) ∧
    (FreqSumsToTotal s.freq → ((∀ sym, entry s.freq.count sym = 0) ↔ s.freq.total = 0))

/-- R110, R112: of a non-empty collection with distinct handles, the node removed is the one with the smallest key
(freq, handle), and the others stay. -/
def Obligations.SmallestKeyRemoved : Prop :=
  ∀ (heap : List HeapEntry), heap ≠ [] → (heap.map HeapEntry.handle).Nodup →
    ∃ m rest, popMin heap = some (m, rest) ∧ heap.Perm (m :: rest) ∧
      ∀ e ∈ rest, m.freq < e.freq ∨ (m.freq = e.freq ∧ m.handle < e.handle)

/-- R110, R111, R112, R113, R114: with n symbols present the tree has 2n - 1 nodes; handles 0..n-1 are the leaves in
ascending symbol order; each later node is an internal node over two different earlier nodes that are no children yet,
its frequency their sum, the left child the one with the smaller key, and every other earlier node that is no child yet
has a larger key than both; ROOT is the last. -/
def Obligations.TreeLayout : Prop :=
  ∀ (f : FreqTable) (node : Vector Node 511),
    let syms := presentSymbols f
    let n := syms.length
    let t := buildTree f node
    1 ≤ n →
    t.nnodes.toNat = 2 * n - 1 ∧ t.root.toNat = 2 * n - 2 ∧
    (∀ k (h : k < n), t.node[k]? = some (.leaf syms[k] (entry f.count syms[k]))) ∧
    (∀ j, n ≤ j → j < 2 * n - 1 → ∃ (l r : BitVec 9) (x y : Node),
      l ≠ r ∧ l.toNat < j ∧ r.toNat < j ∧ t.node[l.toNat]? = some x ∧ t.node[r.toNat]? = some y ∧
      t.node[j]? = some (.internal (x.freq + y.freq) l r) ∧
      (x.freq < y.freq ∨ (x.freq = y.freq ∧ l < r)) ∧
      ¬ ChildBefore t.node j l.toNat ∧ ¬ ChildBefore t.node j r.toNat ∧
      ∀ i, i < j → i ≠ l.toNat → i ≠ r.toNat → ¬ ChildBefore t.node j i →
        ∃ z, t.node[i]? = some z ∧ (y.freq < z.freq ∨ (y.freq = z.freq ∧ r.toNat < i)))

/-- R118, R119: BUILD is a function of FREQ alone: over two arenas it writes equal entries 0..NNODES-1, ROOT and
NNODES, and the entries from NNODES on keep what they held. -/
def Obligations.BuildIgnoresOldArena : Prop :=
  ∀ (f : FreqTable) (node node' : Vector Node 511), presentSymbols f ≠ [] →
    let t := buildTree f node
    let t' := buildTree f node'
    t.root = t'.root ∧ t.nnodes = t'.nnodes ∧
    (∀ k, k < t.nnodes.toNat → t.node[k]? = t'.node[k]?) ∧
    (∀ k, t.nnodes.toNat ≤ k → t.node[k]? = node[k]?)

/-- R28, R121: every step keeps the law that TREE_VALID = 1 only over a tree GEN_CODES can walk, no path longer than
L_MAX. -/
def Obligations.StepKeepsTree : Prop :=
  ∀ (s t : State), TreeWalkable s.tree → step s = .next t → TreeWalkable t.tree

/-! ## Code-table generator -/

/-- R125, R132, R206: with TREE_VALID = 1 and a tree in the arena GEN_CODES replaces the code table by the table of
the tree's codes and clears TREE_VALID; with TREE_VALID = 0 it raises ILLEGAL_COMMAND sub-code 4 with ERR_INFO = h;
nothing else changes. -/
def Obligations.GenCodesWritesTable : Prop :=
  ∀ (s : State), s.dec.mode = .idle →
    (∀ codes, s.tree.valid = true → treeCodes s.tree = some codes →
      exec .genCodes s = .next { s with
        ct := tableOf codes
        tree := { s.tree with valid := false }
        executing := none }) ∧
    (s.tree.valid = false →
      exec .genCodes s = .next { s with
        err := { error := true, code := .illegalCommand, sub := 4, opc := 0x30, arg := 0, bitpos := 0,
                 info := 0x30000000 }
        executing := none })

/-- R125, R127: under a tree with an internal root, a symbol's code is the path from the root to its leaf, left
= 0 and right = 1, and every leaf within L_MAX steps has a code. -/
def Obligations.CodesArePaths : Prop :=
  ∀ (s t : State), s.dec.mode = .idle → s.tree.valid = true →
    (∃ f l r, s.tree.node[s.tree.root.toNat]? = some (.internal f l r)) → exec .genCodes s = .next t →
    (∀ sym, entry t.ct.len sym ≠ 0 → ∃ f, follow s.tree.node s.tree.root (t.ct.code sym) = some (.leaf sym f)) ∧
    (∀ sym f p, follow s.tree.node s.tree.root p = some (.leaf sym f) → entry t.ct.len sym ≠ 0)

/-- R115, R126: with one symbol present, BUILD and GEN_CODES give it the one-bit code "0" and no other symbol a
code. -/
def Obligations.SingleSymbolCode : Prop :=
  ∀ (s : State) (sym : Byte), s.dec.mode = .idle → entry s.freq.count sym ≠ 0 →
    (∀ r, r ≠ sym → entry s.freq.count r = 0) →
    ∃ t u, exec .build s = .next t ∧ exec .genCodes t = .next u ∧
      entry u.ct.len sym = 1 ∧ u.ct.code sym = [false] ∧ ∀ r, r ≠ sym → entry u.ct.len r = 0

/-- R125, R127, R128: BUILD then GEN_CODES from any state with a symbol present succeed; exactly the symbols present
have a code, and no code is a prefix of another. -/
def Obligations.GeneratedTableIsPrefixFree : Prop :=
  ∀ (s : State), s.dec.mode = .idle → (∃ sym, entry s.freq.count sym ≠ 0) →
    ∃ t u, exec .build s = .next t ∧ exec .genCodes t = .next u ∧ u.tree.valid = false ∧
      (∀ sym, entry u.ct.len sym ≠ 0 ↔ entry s.freq.count sym ≠ 0) ∧ PrefixFree u.ct

/-- R129: of two symbols with frequencies f1 < f2 at the BUILD, the code of the first is not shorter. -/
def Obligations.FrequentCodesNotLonger : Prop :=
  ∀ (s t u : State) (x y : Byte), s.dec.mode = .idle → FreqSumsToTotal s.freq →
    exec .build s = .next t → exec .genCodes t = .next u →
    entry s.freq.count x ≠ 0 → entry s.freq.count x < entry s.freq.count y →
    (u.ct.code y).length ≤ (u.ct.code x).length

/-! ## Encoder -/

/-- R140: ENC_INIT discards the pending bits without output and zeroes ENC_BITS; OUTQ and the rest are unchanged. In
DECODING mode it raises ILLEGAL_COMMAND sub-code 3. -/
def Obligations.EncInitClears : Prop :=
  decode [0x40000000] = .ok (.encInit, []) ∧
  ∀ (s : State),
    (s.dec.mode = .idle →
      exec .encInit s = .next { s with enc := { acc := 0, accLen := 0, bits := 0 }, executing := none }) ∧
    (s.dec.mode = .decoding →
      exec .encInit s = .next { s with
        err := { error := true, code := .illegalCommand, sub := 3, opc := 0x40, arg := 0, bitpos := 0,
                 info := 0x40000000 }
        executing := none })

/-- R141, R13: ENC_BYTE appends the code's bits to the pending bits; the groups of eight, first bit in bit 7, are
pushed in order, the rest stay pending, and ENC_BITS grows by the code's length modulo 2^64. It completes whenever the
engine has a slot for each byte, from EXEC = NONE or from the EXEC the engine's step gives it, with no push made. -/
def Obligations.EncByteAppendsCode : Prop :=
  ∀ (s : State) (sym : Byte), s.dec.mode = .idle → (∀ e, s.executing = some e → e.pushed = 0) →
    entry s.ct.len sym ≠ 0 →
    (s.enc.accLen.toNat + (entry s.ct.len sym).toNat) / 8 ≤ slots s →
    ∃ (bytes : List Byte) (rest : Bits),
      s.enc.pending ++ s.ct.code sym = bytes.flatMap bitsOfByte ++ rest ∧ rest.length < 8 ∧
      exec (.encByte sym) s = .next { s with
        outq := s.outq ++ bytes
        enc := { acc := store 8 rest, accLen := BitVec.ofNat 3 rest.length,
                 bits := s.enc.bits + (entry s.ct.len sym).setWidth 64 }
        executing := none }

/-- R145, R205: ENC_BYTE on a symbol without a code raises MISSING_CODE; nothing is pushed and nothing else written. -/
def Obligations.EncByteNeedsCode : Prop :=
  ∀ (s : State) (sym : Byte), s.dec.mode = .idle → entry s.ct.len sym = 0 →
    exec (.encByte sym) s = .next { s with
      err := { error := true, code := .missingCode, sub := 0, opc := 0x41, arg := sym, bitpos := 0, info := 0 }
      executing := none }

/-- R142: ENC_FLUSH pushes nothing when no bit is pending; else it pushes one byte, the pending bits padded with zeros,
and leaves none pending. ENC_BITS is unchanged. It completes from EXEC = NONE or from the EXEC the engine's step gives
it, with no push made. -/
def Obligations.EncFlushPads : Prop :=
  ∀ (s : State), s.dec.mode = .idle → (∀ e, s.executing = some e → e.pushed = 0) →
    (s.enc.accLen = 0 → exec .encFlush s = .next { s with executing := none }) ∧
    (s.enc.accLen ≠ 0 → 1 ≤ slots s → ∃ b,
      bitsOfByte b = s.enc.pending ++ List.replicate (8 - s.enc.accLen.toNat) false ∧
      exec .encFlush s = .next { s with
        outq := s.outq ++ [b]
        enc := { acc := 0, accLen := 0, bits := s.enc.bits }
        executing := none })

/-- R143: from ENC_INIT, encoding the bytes of an input whose symbols all have a code and flushing pushes exactly the
bytes of the concatenated codes followed by zero bits up to the next multiple of eight, and ENC_BITS is the number of
code bits modulo 2^64. The host drains OUTQ between commands and OUTQ holds the 32 bytes a command can push. -/
def Obligations.PayloadLaw : Prop :=
  ∀ (s : State) (xs : List Byte), s.dec.mode = .idle → s.err.error = false → s.executing = none → s.grant = none →
    32 ≤ s.params.outDepth.toNat → (∀ x ∈ xs, entry s.ct.len x ≠ 0) →
    let code := xs.flatMap s.ct.code
    ∃ t out, runDrained (.encInit :: encBytes xs ++ [.encFlush]) s = some (t, out) ∧
      out.flatMap bitsOfByte = code ++ List.replicate ((8 - code.length % 8) % 8) false ∧
      out.length = (code.length + 7) / 8 ∧ t.enc.bits = BitVec.ofNat 64 code.length

/-- R43, R195 (b), R196: a command pushes its bytes as OUTQ has room for them, and no split changes what it does.
With k bytes pushed and fewer free slots than bytes left it fills OUTQ and stays in EXEC with nothing else changed; with
room for the bytes left it pushes them, completes, and leaves every other element as the command leaves it that runs
whole on an instance with room for all its bytes. The engine's turn on a command in EXEC with all its words is the
command's meaning again. That a command which finds no slot has a turn, which changes nothing, is the
model's choice (log 2). Last, the split by a turn that grants k pushes (the grant is the model's, log 7): the command
so stopped and then resumed ends in the state it reaches in one turn. -/
def Obligations.SplitPushesAgree : Prop :=
  (∀ (s : State) (i : Instr) (k : Nat), WellFormed i → s.grant = none → accepted i.op s.dec.mode = true →
    (s.executing = none ∧ k = 0 ∨ s.executing = some { header := i.header, taken := i.ext, pushed := k }) →
    k < (pushesOf i s).length →
    let free := s.params.outDepth.toNat - s.outq.length
    (free < (pushesOf i s).length - k →
      exec i s = .next { s with
        outq := s.outq ++ ((pushesOf i s).drop k).take free
        executing := some { header := i.header, taken := i.ext, pushed := k + free } }) ∧
    ((pushesOf i s).length - k ≤ free →
      ∀ p : Params, (pushesOf i s).length ≤ p.outDepth.toNat →
        ∃ w, exec i { s with executing := none, outq := [], params := p } = .next w ∧ w.outq = pushesOf i s ∧
          w.executing = none ∧
          exec i s = .next { w with outq := s.outq ++ (pushesOf i s).drop k, params := s.params })) ∧
  (∀ (s : State) (i : Instr) (k : Nat), WellFormed i → s.sched = [] → s.rstN = true →
    s.executing = some { header := i.header, taken := i.ext, pushed := k } →
    step s = exec i { s with grant := none }) ∧
  (∀ (s t : State) (i : Instr) (k : Nat), WellFormed i → s.executing = none → s.grant = none →
    accepted i.op s.dec.mode = true → k < (pushesOf i s).length →
    (pushesOf i s).length ≤ s.params.outDepth.toNat - s.outq.length →
    exec i { s with grant := some k } = .next t →
    t.outq = s.outq ++ (pushesOf i s).take k ∧ exec i { t with grant := none } = exec i s)

/-! ## Code-table load path -/

/-- R155: CT_CLEAR empties the code table and changes nothing else; in DECODING mode it raises ILLEGAL_COMMAND
sub-code 3. -/
def Obligations.CtClearEmpties : Prop :=
  decode [0x50000000] = .ok (.ctClear, []) ∧
  ∀ (s : State),
    (s.dec.mode = .idle →
      exec .ctClear s = .next { s with
        ct := { len := Vector.replicate 256 0, bits := Vector.replicate 256 0 }
        executing := none }) ∧
    (s.dec.mode = .decoding →
      exec .ctClear s = .next { s with
        err := { error := true, code := .illegalCommand, sub := 3, opc := 0x50, arg := 0, bitpos := 0,
                 info := 0x50000000 }
        executing := none })

/-- R156, R160: CT_LOAD of a non-empty code that no entry holds, for a symbol without an entry, stores the code left
aligned and zero-filled and changes no other entry and nothing else; prefixes are not checked. -/
def Obligations.CtLoadStores : Prop :=
  ∀ (s : State) (sym len : Byte) (data : List Word),
    s.dec.mode = .idle → data.length = codeWords len → len ≠ 0 → entry s.ct.len sym = 0 →
    (∀ t, entry s.ct.len t = len → load (entry s.ct.bits t) len.toNat ≠ loadWords data len.toNat) →
    ∃ ct, exec (.ctLoad sym len data) s = .next { s with ct := ct, executing := none } ∧
      entry ct.len sym = len ∧ ct.code sym = loadWords data len.toNat ∧
      (∀ k, len.toNat ≤ k → (entry ct.bits sym).getMsbD k = false) ∧
      ∀ r, r ≠ sym → entry ct.len r = entry s.ct.len r ∧ entry ct.bits r = entry s.ct.bits r

/-- R157, R158, R159: CT_LOAD raises CORRUPT_CODEBOOK: sub-code 1 for an empty code, sub-code 2 with the symbol for a
symbol that has an entry, sub-code 3 with the symbol t already holding the code for a code that is taken; checked in
that order, and the code table is unchanged. -/
def Obligations.CtLoadRefuses : Prop :=
  ∀ (s : State) (sym len : Byte) (data : List Word), s.dec.mode = .idle → data.length = codeWords len →
    (len = 0 →
      exec (.ctLoad sym len data) s = .next { s with
        err := { error := true, code := .corruptCodebook, sub := 1, opc := 0x51, arg := sym, bitpos := 0, info := 0 }
        executing := none }) ∧
    (len ≠ 0 → entry s.ct.len sym ≠ 0 →
      exec (.ctLoad sym len data) s = .next { s with
        err := { error := true, code := .corruptCodebook, sub := 2, opc := 0x51, arg := sym, bitpos := 0,
                 info := sym.setWidth 32 }
        executing := none }) ∧
    (∀ t, len ≠ 0 → entry s.ct.len sym = 0 → entry s.ct.len t = len →
      load (entry s.ct.bits t) len.toNat = loadWords data len.toNat → CodesDistinct s.ct →
      exec (.ctLoad sym len data) s = .next { s with
        err := { error := true, code := .corruptCodebook, sub := 3, opc := 0x51, arg := sym, bitpos := 0,
                 info := t.setWidth 32 }
        executing := none })

/-- R162: CT_CLEAR and one CT_LOAD per entry of a table with distinct codes and zero-filled storage, in any order,
raise no error and rebuild the table bit for bit. -/
def Obligations.ReloadRebuildsTable : Prop :=
  ∀ (s : State) (book : List (Byte × Bits)), s.dec.mode = .idle → s.err.error = false →
    CodesCanonical s.ct → CodesDistinct s.ct → book.Perm (bookOf s.ct) →
    ∃ t, execAll (loadBook book) s = .next t ∧ t.err.error = false ∧ t.ct = s.ct

/-- R30, R31: every step keeps the code table's laws: storage beyond a code is zero, and no two symbols have the same
code. -/
def Obligations.StepKeepsCodeTable : Prop :=
  ∀ (s t : State), CodesCanonical s.ct → CodesDistinct s.ct → step s = .next t →
    CodesCanonical t.ct ∧ CodesDistinct t.ct

/-! ## Decoder -/

/-- R170: DEC_START sets MODE to DECODING, both counters to COUNT and empties the partial code; nothing else changes.
In DECODING mode it raises ILLEGAL_COMMAND sub-code 3. -/
def Obligations.DecStartBegins : Prop :=
  ∀ (count : Word),
    decode [0x60000000, count] = .ok (.decStart count, []) ∧
    ∀ (s : State),
      (s.dec.mode = .idle →
        exec (.decStart count) s = .next { s with
          dec := { mode := .decoding, declared := count, remaining := count, plen := 0, pbits := 0 }
          executing := none }) ∧
      (s.dec.mode = .decoding →
        exec (.decStart count) s = .next { s with
          err := { error := true, code := .illegalCommand, sub := 3, opc := 0x60, arg := 0, bitpos := 0,
                   info := 0x60000000 }
          executing := none })

/-- R160, R171, R173, R174: matching payload bits from a partial code p consumes a first part of them; p and the bits
consumed are the codes of the symbols pushed, in order, and the new partial code; each symbol pushed lowers
DEC_REMAINING by one; bits are left over only when no symbol is owed or a dead prefix was made. The match is the
shortest, over any table: of a pushed code and of the new partial code no shorter prefix that ends in a consumed bit is
a code. Without a dead prefix a new partial code that ends in a consumed bit is live; with one it is dead. -/
def Obligations.FeedSplitsBits : Prop :=
  ∀ (ct : CodeTable) (bits p : Bits) (remaining : Word),
    let f := feedBits ct bits remaining p
    ∃ consumed left : Bits, bits = consumed ++ left ∧ p ++ consumed = f.out.flatMap ct.code ++ f.rest ∧
      f.remaining.toNat + f.out.length = remaining.toNat ∧
      (f.dead = none → left = [] ∨ f.remaining = 0) ∧
      (∀ k, f.dead = some k →
        k = left.length ∧ (∀ sym, ct.code sym ≠ f.rest) ∧ ct.live f.rest = false ∧ f.rest ≠ []) ∧
      (∀ k x, f.out[k]? = some x →
        let old := if k = 0 then p.length else 0
        old < (ct.code x).length ∧
        ∀ n, old < n → n < (ct.code x).length → ∀ y, ct.code y ≠ (ct.code x).take n) ∧
      (let old := if f.out = [] then p.length else 0
       (∀ n, old < n → n ≤ f.rest.length → ∀ y, ct.code y ≠ f.rest.take n) ∧
       (f.dead = none → old < f.rest.length → ct.live f.rest = true))

/-- R171: DEC_FEED with no dead prefix in the byte pushes the symbols its bits complete and updates DEC_REMAINING and
the partial code; nothing else changes. It completes whenever the engine has a slot for each of these symbols,
from EXEC = NONE or from the EXEC the engine's step gives it, with no push made. -/
def Obligations.DecFeedDecodes : Prop :=
  ∀ (s : State) (b : Byte), s.dec.mode = .decoding → (∀ e, s.executing = some e → e.pushed = 0) →
    (feedByte b s).out.length ≤ slots s → (feedByte b s).dead = none →
    exec (.decFeed b) s = .next { s with
      outq := s.outq ++ (feedByte b s).out
      dec := { s.dec with
        remaining := (feedByte b s).remaining
        plen := BitVec.ofNat 8 (feedByte b s).rest.length
        pbits := store 256 (feedByte b s).rest }
      executing := none }

/-- R171, R200, R201: a bit that makes a dead prefix raises CORRUPT_CODEBOOK sub-code 4 with the symbols emitted since
DEC_START and the bit's index; the symbols of earlier bits stay pushed, DEC_REMAINING keeps their decrements, and the
partial code ends with the failing bit. -/
def Obligations.DecFeedDeadPrefix : Prop :=
  ∀ (s : State) (b : Byte) (k : Nat), s.dec.mode = .decoding → (∀ e, s.executing = some e → e.pushed = 0) →
    (feedByte b s).out.length ≤ slots s → (feedByte b s).dead = some k →
    exec (.decFeed b) s = .next { s with
      outq := s.outq ++ (feedByte b s).out
      dec := { s.dec with
        remaining := (feedByte b s).remaining
        plen := BitVec.ofNat 8 (feedByte b s).rest.length
        pbits := store 256 (feedByte b s).rest }
      err := { error := true, code := .corruptCodebook, sub := 4, opc := 0x61, arg := b, bitpos := BitVec.ofNat 3 k,
               info := s.dec.declared - (feedByte b s).remaining }
      executing := none }

/-- R178: once no symbol is owed, a DEC_FEED of any byte completes, changes nothing and raises no error, from EXEC = NONE
or from the EXEC the engine's step gives it, with no push made. -/
def Obligations.PaddingIgnored : Prop :=
  ∀ (s : State) (b : Byte), s.dec.mode = .decoding → (∀ e, s.executing = some e → e.pushed = 0) →
    s.dec.remaining = 0 → PartialCanonical s.dec → exec (.decFeed b) s = .next { s with executing := none }

/-- R173, R174, R177: over a prefix-free table the bits of a string's codes, followed by any bits, decode to exactly
the string when its length is the number of symbols owed. -/
def Obligations.DecodeInvertsEncode : Prop :=
  ∀ (ct : CodeTable) (xs : List Byte) (tail : Bits), PrefixFree ct → (∀ x ∈ xs, entry ct.len x ≠ 0) →
    xs.length < 2 ^ 32 →
    feedBits ct (xs.flatMap ct.code ++ tail) (BitVec.ofNat 32 xs.length) [] =
      { out := xs, remaining := 0, rest := [], dead := none }

/-- R172: DEC_END with no symbol owed returns to IDLE and keeps the counters; else it raises TRUNCATED_STREAM with
ERR_INFO = DEC_REMAINING, sub-code 0 on a code boundary and 1 inside a code, and MODE stays DECODING. In IDLE mode it
raises ILLEGAL_COMMAND sub-code 3. -/
def Obligations.DecEndFinishes : Prop :=
  decode [0x62000000] = .ok (.decEnd, []) ∧
  ∀ (s : State),
    (s.dec.mode = .decoding → s.dec.remaining = 0 →
      exec .decEnd s = .next { s with dec := { s.dec with mode := .idle }, executing := none }) ∧
    (s.dec.mode = .decoding → s.dec.remaining ≠ 0 →
      exec .decEnd s = .next { s with
        err := { error := true, code := .truncatedStream, sub := if s.dec.plen = 0 then 0 else 1, opc := 0x62,
                 arg := 0, bitpos := 0, info := s.dec.remaining }
        executing := none }) ∧
    (s.dec.mode = .idle →
      exec .decEnd s = .next { s with
        err := { error := true, code := .illegalCommand, sub := 3, opc := 0x62, arg := 0, bitpos := 0,
                 info := 0x62000000 }
        executing := none })

/-- R33, R37, R39, R175: every step keeps the units' laws: ENC_ACC is zero beyond ENC_ACC_LEN and DEC_PBITS beyond
DEC_PLEN; while decoding without an error the partial code is empty or live and DEC_REMAINING <= DEC_DECLARED; the
record is clear until an error is raised. The premise on the command in execution is an invariant of its own
(HoldsOnlyForWordOrSlot). -/
def Obligations.StepKeepsUnits : Prop :=
  ∀ (s t : State), UnitsInv s → ExecWaits s → step s = .next t → UnitsInv t

/-- R177: compressing a non-empty input, loading the generated table as a codebook and decompressing the payload gives
the input back, with no error on the way, for a host that drains OUTQ between commands. -/
def Obligations.RoundTripLaw : Prop :=
  ∀ (s : State) (xs : List Byte), s.dec.mode = .idle → s.err.error = false → s.executing = none → s.grant = none →
    32 ≤ s.params.outDepth.toNat → xs ≠ [] → xs.length < 2 ^ 32 →
    ∃ t payload, runDrained (compress xs) s = some (t, payload) ∧
      ∃ u, runDrained (loadBook (bookOf t.ct) ++ decompress (BitVec.ofNat 32 xs.length) payload) t = some (u, xs)

/-! ## Errors -/

/-- R200, R201, R209: a command that raises an error, other than DEC_FEED, changes nothing but the record and EXEC,
and the record names the command: ERR_OPC its opcode, ERR_ARG its operand field, ERR_BITPOS 0. DEC_FEED changes, beside
them, only OUTQ and the decoder. -/
def Obligations.ErrorsArePrecise : Prop :=
  ∀ (i : Instr) (s t : State), exec i s = .next t → s.err.error = false → t.err.error = true →
    t.err.opc = i.op.code ∧ t.err.arg = symOf i.header ∧ t.executing = none ∧
    (i.op ≠ .decFeed → t.err.bitpos = 0 ∧ t = { s with err := t.err, executing := none }) ∧
    t = { s with err := t.err, executing := none, outq := t.outq, dec := t.dec }

/-! ## The bus, reset and the instance -/

/-- R51 to R54, R59, R60, R63, R65, R66, R68, R69, R71 to R73, R80: with `rst_n` high a read of ID or CMD returns its
value at every time, and with BUSY = 0 a read of ERR_INFO, TOTAL, ENC_BITS, DEC_DECLARED, DEC_REMAINING, DEC_PLEN, FREQ,
CODELEN, CODEBITS or DEC_PBITS returns its value; none has a side effect. -/
def Obligations.IdleReadsAreExact : Prop :=
  ∀ (s : State), s.rstN = true →
    busRead 0x000 s = (0x48554646, s) ∧
    busRead 0x040 s = (0, s) ∧
    (s.busy = false →
      busRead 0x014 s = (s.err.info, s) ∧
      busRead 0x018 s = (s.freq.total, s) ∧
      busRead 0x024 s = (s.enc.bits.setWidth 32, s) ∧
      busRead 0x028 s = ((s.enc.bits >>> 32).setWidth 32, s) ∧
      busRead 0x030 s = (s.dec.declared, s) ∧
      busRead 0x034 s = (s.dec.remaining, s) ∧
      busRead 0x038 s = (s.dec.plen.setWidth 32, s) ∧
      (∀ sym : Byte, busRead (0x400 + 4 * sym.setWidth 14) s = (entry s.freq.count sym, s)) ∧
      (∀ sym : Byte, busRead (0x800 + 4 * sym.setWidth 14) s = ((entry s.ct.len sym).setWidth 32, s)) ∧
      (∀ (sym : Byte) (w : BitVec 3),
        let r := busRead (0x1000 + 32 * sym.setWidth 14 + 4 * w.setWidth 14) s
        r.2 = s ∧ ∀ k, k < 32 → r.1.getMsbD k = (entry s.ct.bits sym).getMsbD (32 * w.toNat + k)) ∧
      (∀ (w : BitVec 3),
        let r := busRead (0x080 + 4 * w.setWidth 14) s
        r.2 = s ∧ ∀ k, k < 32 → r.1.getMsbD k = s.dec.pbits.getMsbD (32 * w.toNat + k)))

/-- R55, R56, R58, R61, R62, R64, R67, R80: with `rst_n` high a read of PARAMS, CTRL or OUT_LEVEL returns its fields at
their places at every time, and with BUSY = 0 a read of ERR, NSYM, CT_COUNT or ENC_ACC does; none changes anything.
OUT_LEVEL is the number of bytes in OUTQ. -/
def Obligations.PackedRegistersRead : Prop :=
  ∀ (s : State), s.rstN = true →
    busRead 0x004 s = (s.params.outDepth ++ s.params.cmdDepth ++ (32 : Byte) ++ (255 : Byte), s) ∧
    (let r := busRead 0x008 s
     r.2 = s ∧ r.1.getLsbD 1 = s.ctrl.irqEnErr ∧ r.1.getLsbD 2 = s.ctrl.irqEnIdle ∧
      ∀ k, k ≠ 1 → k ≠ 2 → r.1.getLsbD k = false) ∧
    (let r := busRead 0x03C s
     r.2 = s ∧ (QueuesFit s → r.1.toNat = s.outq.length)) ∧
    (s.busy = false →
      busRead 0x010 s =
        ((0 : BitVec 5) ++ s.err.bitpos ++ s.err.arg ++ s.err.opc ++ s.err.sub ++ s.err.code.number, s) ∧
      (let r := busRead 0x01C s
       r.2 = s ∧ r.1.toNat = allSymbols.countP fun sym => entry s.freq.count sym ≠ 0) ∧
      (let r := busRead 0x020 s
       r.2 = s ∧ r.1.toNat = allSymbols.countP fun sym => entry s.ct.len sym ≠ 0) ∧
      busRead 0x02C s = ((0 : BitVec 16) ++ s.enc.acc ++ (0 : BitVec 5) ++ s.enc.accLen, s))

/-- R44, R57, R213: the STATUS register, exact at every time: BUSY, ERROR, TREE_VALID, DECODING, EXT_WAIT,
OUT_NONEMPTY and IRQ at bits 0 to 6, the other bits 0; irq = (IRQ_EN_ERR and ERROR) or (IRQ_EN_IDLE and not BUSY). -/
def Obligations.StatusBits : Prop :=
  ∀ (s : State), s.rstN = true →
    let w := (busRead 0x00C s).1
    (busRead 0x00C s).2 = s ∧
    (w.getLsbD 0 = true ↔ s.cmdq ≠ [] ∨ s.executing ≠ none) ∧
    w.getLsbD 1 = s.err.error ∧ w.getLsbD 2 = s.tree.valid ∧
    (w.getLsbD 3 = true ↔ s.dec.mode = .decoding) ∧
    (w.getLsbD 4 = true ↔ ∃ e, s.executing = some e ∧ e.taken.length < extCount e.header ∧ s.cmdq = []) ∧
    (w.getLsbD 5 = true ↔ s.outq ≠ []) ∧
    w.getLsbD 6 = ((s.ctrl.irqEnErr && w.getLsbD 1) || (s.ctrl.irqEnIdle && !w.getLsbD 0)) ∧
    ∀ k, 7 ≤ k → w.getLsbD k = false

/-- R51, R52, R74, R79: address bits [1:0] are ignored by reads and writes; a reserved offset reads 0; a write
anywhere but CTRL and CMD is ignored. -/
def Obligations.AddressesDecoded : Prop :=
  ∀ (s : State) (a : Addr) (v : Word),
    busRead a s = busRead (a &&& 0x3FFC) s ∧ busWrite a v s = busWrite (a &&& 0x3FFC) v s ∧
    ((0x048 ≤ a ∧ a < 0x080) ∨ (0x0A0 ≤ a ∧ a < 0x400) ∨ (0xC00 ≤ a ∧ a < 0x1000) ∨ 0x3000 ≤ a →
      busRead a s = (0, s)) ∧
    (a &&& 0x3FFC ≠ 0x008 → a &&& 0x3FFC ≠ 0x040 → busWrite a v s = some s)

/-- R41, R42, R69, R70: a CMD write appends its word when CMDQ has a slot and waits when it has none; an OUT_DATA read
returns 0x100 | B and removes the head B, or returns 0 and changes nothing. In the host's turn a CMD write that has to
wait is kept on the bus, nothing else changing, and a later turn of the host appends exactly that word once CMDQ has a
slot, before the host makes any other access: no word is dropped (the host's side is the model's, log 9). -/
def Obligations.QueuePorts : Prop :=
  ∀ (s : State), s.rstN = true →
    (∀ v, s.cmdq.length < s.params.cmdDepth.toNat → busWrite 0x040 v s = some { s with cmdq := s.cmdq ++ [v] }) ∧
    (∀ v, s.params.cmdDepth.toNat ≤ s.cmdq.length → busWrite 0x040 v s = none) ∧
    (∀ (b : Byte) (rest : List Byte), s.outq = b :: rest →
      busRead 0x044 s = (0x100 ||| b.setWidth 32, { s with outq := rest })) ∧
    (s.outq = [] → busRead 0x044 s = (0, s)) ∧
    (∀ (v : Word) (ops : List BusOp) (ts : List Turn), s.sched = .host :: ts → s.host.stalled = none →
      s.host.pending = .write 0x040 v :: ops →
      (s.cmdq.length < s.params.cmdDepth.toNat →
        step s = .next { s with cmdq := s.cmdq ++ [v], host := { s.host with pending := ops }, sched := ts }) ∧
      (s.params.cmdDepth.toNat ≤ s.cmdq.length →
        step s = .next { s with host := { s.host with pending := ops, stalled := some v }, sched := ts })) ∧
    (∀ (v : Word) (ts : List Turn), s.sched = .host :: ts → s.host.stalled = some v →
      s.cmdq.length < s.params.cmdDepth.toNat →
      step s = .next { s with cmdq := s.cmdq ++ [v], host := { s.host with stalled := none }, sched := ts })

/-- R80, S1: while BUSY = 1 a read of a register R80 lists (ERR, ERR_INFO, TOTAL, NSYM, CT_COUNT, ENC_*, DEC_*, FREQ,
CODE_LEN, CODE_BITS) returns the free value of its draw, `Config.busyRead` at the number of reads drawn before, with the
register's reserved bits 0, and changes nothing but that number. -/
def Obligations.BusyReadsDrawn : Prop :=
  ∀ (s : State), s.rstN = true → s.busy = true →
    let drawn := fun (mask : Word) =>
      (Config.busyRead s.host.draws &&& mask, { s with host := { s.host with draws := s.host.draws + 1 } })
    busRead 0x010 s = drawn 0x07FFFFFF ∧
    busRead 0x014 s = drawn 0xFFFFFFFF ∧
    busRead 0x018 s = drawn 0xFFFFFFFF ∧
    busRead 0x01C s = drawn 0x000001FF ∧
    busRead 0x020 s = drawn 0x000001FF ∧
    busRead 0x024 s = drawn 0xFFFFFFFF ∧
    busRead 0x028 s = drawn 0xFFFFFFFF ∧
    busRead 0x02C s = drawn 0x0000FF07 ∧
    busRead 0x030 s = drawn 0xFFFFFFFF ∧
    busRead 0x034 s = drawn 0xFFFFFFFF ∧
    busRead 0x038 s = drawn 0x000000FF ∧
    (∀ w : BitVec 3, busRead (0x080 + 4 * w.setWidth 14) s = drawn 0xFFFFFFFF) ∧
    (∀ sym : Byte, busRead (0x400 + 4 * sym.setWidth 14) s = drawn 0xFFFFFFFF) ∧
    (∀ sym : Byte, busRead (0x800 + 4 * sym.setWidth 14) s = drawn 0x000000FF) ∧
    (∀ (sym : Byte) (w : BitVec 3),
      busRead (0x1000 + 32 * sym.setWidth 14 + 4 * w.setWidth 14) s = drawn 0xFFFFFFFF)

/-- R56, R231, R233: a CTRL write with bit 0 = 1 is a soft reset: every element of the state takes the value it has
right after reset and both enables are 0, whatever bits 1 and 2 are; with bit 0 = 0 it sets the enables and nothing
else. The values of NODE, ROOT and NNODES after reset are the model's choice (log 4), the spec gives none. -/
def Obligations.CtrlWrites : Prop :=
  ∀ (s : State) (v : Word), s.rstN = true →
    (v.getLsbD 0 = true → ∃ t, busWrite 0x008 v s = some t ∧
      t.freq = State.reset.freq ∧ t.tree = State.reset.tree ∧ t.ct = State.reset.ct ∧ t.enc = State.reset.enc ∧
      t.dec = State.reset.dec ∧ t.err = State.reset.err ∧ t.ctrl = State.reset.ctrl ∧ t.cmdq = [] ∧ t.outq = [] ∧
      t.executing = none ∧ t.params = s.params ∧ t.rstN = true) ∧
    (v.getLsbD 0 = false →
      busWrite 0x008 v s = some { s with ctrl := { irqEnErr := v.getLsbD 1, irqEnIdle := v.getLsbD 2 } })

/-- R230, R232: `rst_n` going low gives every element its reset value; while it is low a read returns 0 and pops
nothing, a write is ignored and never stalls, and the engine takes no step: its turn, which the model gives it all the
same (log 2), changes nothing but the schedule and the grant. -/
def Obligations.HeldInReset : Prop :=
  ∀ (s : State) (ts : List Turn),
    (∃ t, step { s with sched := .rstN false :: ts } = .next t ∧ t.rstN = false ∧ t.busy = false ∧
      t.err = ErrRecord.clear ∧ t.ct = CodeTable.empty ∧ t.freq = FreqTable.empty ∧ t.outq = [] ∧
      t.dec = State.reset.dec ∧ t.enc = State.reset.enc ∧ t.tree.valid = false ∧ t.ctrl = State.reset.ctrl) ∧
    (s.rstN = false →
      (∀ a, busRead a s = (0, s)) ∧ (∀ a v, busWrite a v s = some s) ∧
      (∀ k, step { s with sched := .engine k :: ts } = .next { s with sched := ts, grant := k }))

/-- R45, R231: the values the spec gives for reset, and BUSY = 0: STATUS reads 0. -/
def Obligations.ResetValues : Prop :=
  let s := State.reset
  (∀ sym, entry s.freq.count sym = 0 ∧ entry s.ct.len sym = 0 ∧ entry s.ct.bits sym = 0) ∧
  s.freq.total = 0 ∧ s.tree.valid = false ∧ s.enc = { acc := 0, accLen := 0, bits := 0 } ∧
  s.dec = { mode := .idle, declared := 0, remaining := 0, plen := 0, pbits := 0 } ∧
  s.err = { error := false, code := .none, sub := 0, opc := 0, arg := 0, bitpos := 0, info := 0 } ∧
  s.ctrl = { irqEnErr := false, irqEnIdle := false } ∧ s.cmdq = [] ∧ s.outq = [] ∧ s.executing = none ∧
  (busRead 0x00C s).1 = 0 ∧ (busRead 0x004 s).1 = 0x401020FF

/-- The invariants the statements above say every step keeps hold right after reset (R24, R28, R30, R31, R37, R39,
R41, R42, R175, R195). -/
def Obligations.ResetMeetsInvariants : Prop :=
  TablesInv State.reset ∧ UnitsInv State.reset ∧ ExecWaits State.reset ∧ QueuesFit State.reset

/-- R8, R41, R42, R55: no step changes the instance's parameters, each in 1..255, and neither queue grows past its
depth. -/
def Obligations.StepKeepsDepths : Prop :=
  ∀ (s t : State), step s = .next t →
    t.params = s.params ∧ (QueuesFit s → QueuesFit t) ∧
    1 ≤ t.params.cmdDepth.toNat ∧ t.params.cmdDepth.toNat ≤ 255 ∧
    1 ≤ t.params.outDepth.toNat ∧ t.params.outDepth.toNat ≤ 255
end

