-- ==== Sys2Proof/Laws/Tables.lean ====
section
/-! SUPPORT. Tables indexed by a symbol: read after write, the empty tables, and the list of all symbols. -/

namespace Sys2Proof.Machine

theorem mem_allSymbols (s : Byte) : s ∈ allSymbols := by
  refine List.mem_map.2 ⟨s.toNat, List.mem_range.2 s.isLt, ?_⟩
  simp

theorem nodup_allSymbols : allSymbols.Nodup := by
  refine List.Nodup.map_on ?_ List.nodup_range
  intro a ha b hb h
  have ha' := List.mem_range.1 ha
  have hb' := List.mem_range.1 hb
  have := congrArg BitVec.toNat h
  simpa [BitVec.toNat_ofNat, Nat.mod_eq_of_lt ha', Nat.mod_eq_of_lt hb'] using this

@[simp] theorem entry_setEntry_same {α : Type} (t : Table α) (s : Byte) (v : α) :
    entry (setEntry t s v) s = v := by
  simp [entry, setEntry]

theorem entry_setEntry_other {α : Type} (t : Table α) {s r : Byte} (v : α) (h : r ≠ s) :
    entry (setEntry t s v) r = entry t r := by
  have hn : s.toNat ≠ r.toNat := fun e => h (BitVec.eq_of_toNat_eq e.symm)
  simp [entry, setEntry, hn]

theorem entry_setEntry {α : Type} (t : Table α) (s r : Byte) (v : α) :
    entry (setEntry t s v) r = if r = s then v else entry t r := by
  by_cases h : r = s
  · subst h; simp
  · simp [h, entry_setEntry_other]

@[simp] theorem entry_replicate {α : Type} (v : α) (s : Byte) : entry (Vector.replicate 256 v) s = v := by
  simp [entry]

theorem table_ext {α : Type} {t u : Table α} (h : ∀ s, entry t s = entry u s) : t = u := by
  apply Vector.ext
  intro k hk
  have := h (BitVec.ofNat 8 k)
  simpa [entry, Nat.mod_eq_of_lt hk] using this

@[simp] theorem FreqTable.empty_count (s : Byte) : entry FreqTable.empty.count s = 0 := by simp [FreqTable.empty]
@[simp] theorem FreqTable.empty_total : FreqTable.empty.total = 0 := rfl
@[simp] theorem CodeTable.empty_len (s : Byte) : entry CodeTable.empty.len s = 0 := by simp [CodeTable.empty]
@[simp] theorem CodeTable.empty_bits (s : Byte) : entry CodeTable.empty.bits s = 0 := by simp [CodeTable.empty]

end Sys2Proof.Machine
end

