-- ==== Sys2Proof/Laws/Bits.lean ====
section
/-! SUPPORT. Bit strings and their left-aligned storage: each direction of R14, and what a written code reads back as. -/

namespace Sys2Proof.Machine

theorem getMsbD_placeBits (n : Nat) (p : Bits) (k j : Nat) (hj : j < n) (hp : k + p.length ≤ n) :
    (placeBits n k p).getMsbD j = (decide (k ≤ j) && p.getD (j - k) false) := by
  induction p generalizing k with
  | nil => simp [placeBits]
  | cons b bs ih =>
    have hlen : k + 1 + bs.length ≤ n := by simp at hp; omega
    rw [placeBits, BitVec.getMsbD_or, ih (k + 1) hlen]
    have hkn : k < n := by simp at hp; omega
    rcases Nat.lt_trichotomy j k with h | h | h
    · have h1 : ¬ k ≤ j := by omega
      have h2 : ¬ k + 1 ≤ j := by omega
      have h3 : n - 1 - k ≠ n - 1 - j := by omega
      cases b <;> simp [h1, h2, BitVec.getMsbD_eq_getLsbD, BitVec.getLsbD_twoPow, h3]
    · subst h
      have h2 : ¬ j + 1 ≤ j := by omega
      cases b <;> simp [BitVec.getMsbD_eq_getLsbD, BitVec.getLsbD_twoPow, hj]
      omega
    · have h1 : k ≤ j := by omega
      have h2 : k + 1 ≤ j := by omega
      have h3 : n - 1 - k ≠ n - 1 - j := by omega
      have h4 : j - k = (j - (k + 1)) + 1 := by omega
      cases b <;> simp [h1, h2, BitVec.getMsbD_eq_getLsbD, BitVec.getLsbD_twoPow, h3, h4]

/-- R14: bit `j` of left-aligned storage is bit `j` of the string, and 0 beyond it. -/
theorem getMsbD_store (n : Nat) (p : Bits) (j : Nat) (hp : p.length ≤ n) :
    (store n p).getMsbD j = p.getD j false := by
  by_cases hj : j < n
  · rw [store, getMsbD_placeBits n p 0 j hj (by omega)]; simp
  · have : p.length ≤ j := by omega
    rw [List.getD_eq_default _ _ this]; simp [BitVec.getMsbD, hj]

@[simp] theorem length_load {n : Nat} (w : BitVec n) (m : Nat) : (load w m).length = m := by simp [load]

theorem getElem_load {n : Nat} (w : BitVec n) (m k : Nat) (h : k < (load w m).length) :
    (load w m)[k] = w.getMsbD k := by simp [load]

/-- R14: what is stored reads back. -/
theorem load_store (n : Nat) (p : Bits) (hp : p.length ≤ n) : load (store n p) p.length = p := by
  apply List.ext_getElem
  · simp
  · intro k h1 h2
    rw [getElem_load, getMsbD_store n p k hp, List.getD_eq_getElem _ _ h2]

/-- R14: storage that is zero beyond its first `m` bits is the storage of those bits. -/
theorem store_load {n : Nat} (w : BitVec n) (m : Nat) (hm : m ≤ n) (hz : ∀ k, m ≤ k → w.getMsbD k = false) :
    store n (load w m) = w := by
  apply BitVec.eq_of_getMsbD_eq
  intro k _
  rw [getMsbD_store n _ k (by simpa using hm)]
  by_cases hk : k < m
  · rw [List.getD_eq_getElem _ _ (by simpa using hk), getElem_load]
  · rw [List.getD_eq_default _ _ (by simpa using hk), hz k (by omega)]

@[simp] theorem length_loadWords (d : List Word) (m : Nat) : (loadWords d m).length = m := by simp [loadWords]

@[simp] theorem length_bitsOfByte (b : Byte) : (bitsOfByte b).length = 8 := by simp [bitsOfByte]

/-- R13: `byte` and `bits` are inverse on groups of eight. -/
theorem bitsOfByte_byteOfBits (p : Bits) (hp : p.length = 8) : bitsOfByte (byteOfBits p) = p := by
  have := load_store 8 p (by omega)
  rwa [hp] at this

theorem byteOfBits_bitsOfByte (b : Byte) : byteOfBits (bitsOfByte b) = b :=
  store_load b 8 (by omega) (fun k hk => by simp [BitVec.getMsbD, Nat.not_lt.2 hk])

/-! ## Writing one entry of the code table -/

@[simp] theorem length_code (ct : CodeTable) (s : Byte) : (ct.code s).length = (entry ct.len s).toNat := by
  simp [CodeTable.code]

theorem put_len (ct : CodeTable) (s r : Byte) (p : Bits) :
    entry (ct.put s p).len r = if r = s then BitVec.ofNat 8 p.length else entry ct.len r := by
  simp [CodeTable.put, entry_setEntry]

theorem put_bits (ct : CodeTable) (s r : Byte) (p : Bits) :
    entry (ct.put s p).bits r = if r = s then store 256 p else entry ct.bits r := by
  simp [CodeTable.put, entry_setEntry]

theorem put_code_other (ct : CodeTable) {s r : Byte} (p : Bits) (h : r ≠ s) :
    (ct.put s p).code r = ct.code r := by
  simp [CodeTable.code, put_len, put_bits, h]

theorem put_code_same (ct : CodeTable) (s : Byte) (p : Bits) (hp : p.length ≤ 255) : (ct.put s p).code s = p := by
  have hm : p.length % 256 = p.length := Nat.mod_eq_of_lt (by omega)
  simp only [CodeTable.code, put_len, put_bits, if_true, BitVec.toNat_ofNat]
  rw [show (2 : Nat) ^ 8 = 256 from rfl, hm]
  exact load_store 256 p (by omega)

/-! ## The search of the code table (R173, R174) -/

theorem matching_some {ct : CodeTable} {p : Bits} {s : Byte} (h : ct.matching p = some s) : ct.code s = p := by
  have := List.find?_some h
  simp at this
  exact this.2

theorem matching_none {ct : CodeTable} {p : Bits} (h : ct.matching p = none) (s : Byte) : ct.code s ≠ p := by
  intro hc
  have := List.find?_eq_none.1 h s (mem_allSymbols s)
  apply this
  have hl : (entry ct.len s).toNat = p.length := by rw [← length_code, hc]
  simp [hl, hc]

theorem live_iff (ct : CodeTable) (p : Bits) :
    ct.live p = true ↔ ∃ s, p.length < (entry ct.len s).toNat ∧ (ct.code s).take p.length = p := by
  simp [CodeTable.live, mem_allSymbols]

end Sys2Proof.Machine
end

