-- ==== Sys2Proof/Laws/Decode.lean ====
section
/-! SUPPORT. The fields of a header word read back (30_encoding.md R86), and the rows of R90 found by their opcode. -/

namespace Sys2Proof

theorem getLsbD_fieldAt {n : Nat} (v : BitVec n) (k j : Nat) (hj : j < 32) :
    (fieldAt v k).getLsbD j = (decide (k ≤ j) && v.getLsbD (j - k)) := by
  by_cases h : k ≤ j
  · have h1 : ¬ j < k := by omega
    simp [fieldAt, hj, h, h1]
  · have h1 : j < k := by omega
    simp [fieldAt, h, h1]

theorem getLsbD_mkHeader (opc len sym : Byte) (j : Nat) (hj : j < 32) :
    (mkHeader opc len sym).getLsbD j =
      (decide (24 ≤ j) && opc.getLsbD (j - 24) || decide (8 ≤ j) && len.getLsbD (j - 8) || sym.getLsbD j) := by
  simp [mkHeader, getLsbD_fieldAt _ _ _ hj]

@[simp] theorem opcOf_mkHeader (opc len sym : Byte) : opcOf (mkHeader opc len sym) = opc := by
  apply BitVec.eq_of_getLsbD_eq
  intro k hk
  have h1 : 24 + k - 8 = 16 + k := by omega
  have h2 : len.getLsbD (16 + k) = false := BitVec.getLsbD_of_ge _ _ (by omega)
  have h3 : sym.getLsbD (24 + k) = false := BitVec.getLsbD_of_ge _ _ (by omega)
  rw [opcOf, BitVec.getLsbD_extractLsb', getLsbD_mkHeader _ _ _ _ (by omega), h1, h2, h3]
  simp [hk]

@[simp] theorem lenOf_mkHeader (opc len sym : Byte) : lenOf (mkHeader opc len sym) = len := by
  apply BitVec.eq_of_getLsbD_eq
  intro k hk
  have h1 : ¬ 24 ≤ 8 + k := by omega
  have h3 : sym.getLsbD (8 + k) = false := BitVec.getLsbD_of_ge _ _ (by omega)
  rw [lenOf, BitVec.getLsbD_extractLsb', getLsbD_mkHeader _ _ _ _ (by omega), h3]
  simp [hk, h1]

@[simp] theorem symOf_mkHeader (opc len sym : Byte) : symOf (mkHeader opc len sym) = sym := by
  apply BitVec.eq_of_getLsbD_eq
  intro k hk
  have h1 : ¬ 24 ≤ k := by omega
  have h2 : ¬ 8 ≤ k := by omega
  rw [symOf, BitVec.getLsbD_extractLsb', Nat.zero_add, getLsbD_mkHeader _ _ _ _ (by omega)]
  simp [hk, h1, h2]

/-- R86: a word whose RSV field is zero is the header of its other three fields. -/
theorem mkHeader_fields (h : Word) (hr : ∀ j, 16 ≤ j → j < 24 → h.getLsbD j = false) :
    mkHeader (opcOf h) (lenOf h) (symOf h) = h := by
  apply BitVec.eq_of_getLsbD_eq
  intro k hk
  rw [getLsbD_mkHeader _ _ _ _ hk]
  simp only [opcOf, lenOf, symOf, BitVec.getLsbD_extractLsb', Nat.zero_add]
  by_cases h1 : k < 8
  · simp [h1, show ¬ 24 ≤ k by omega, show ¬ 8 ≤ k by omega]
  · by_cases h2 : k < 16
    · simp [h1, show ¬ 24 ≤ k by omega, show 8 ≤ k by omega, show k - 8 < 8 by omega, show 8 + (k - 8) = k by omega]
    · by_cases h3 : k < 24
      · simp [h1, show ¬ 24 ≤ k by omega, show ¬ k - 8 < 8 by omega, hr k (by omega) h3]
      · simp [h1, show 24 ≤ k by omega, show ¬ k - 8 < 8 by omega, show k - 24 < 8 by omega,
          show 24 + (k - 24) = k by omega]

/-- R90: the opcode in a row's match value is the code of the row's command. -/
theorem opcodeTable_code : ∀ r ∈ opcodeTable, opcOf r.pat = r.op.code := by decide

/-- R90: two commands have two opcodes. -/
theorem Op.code_injective {a b : Op} (h : a.code = b.code) : a = b := by
  cases a <;> cases b <;> first | rfl | exact absurd h (by decide)

end Sys2Proof
end

