-- ==== Sys2Proof/Laws/Bus.lean ====
section
/-! SUPPORT. What one access of the host's bus answers, in one lemma per case. -/

namespace Sys2Proof.Machine

/-- R80: with BUSY = 0 a read of any register but OUT_DATA gives its value and changes nothing. -/
theorem busRead_idle {a : Addr} {s : State} {r : Reg} (hr : regAt a = r) (hs : s.rstN = true) (hb : s.busy = false)
    (ho : r ≠ .outData) : busRead a s = (regValue s r, s) := by
  subst hr
  unfold busRead
  rw [if_neg (by simp [hs]), if_neg ho, hb]
  cases drawnBits (regAt a) <;> rfl

/-- R80: a register no command writes reads exactly at every time. -/
theorem busRead_exact {a : Addr} {s : State} {r : Reg} (hr : regAt a = r) (hs : s.rstN = true)
    (hd : drawnBits r = none) (ho : r ≠ .outData) : busRead a s = (regValue s r, s) := by
  subst hr
  unfold busRead
  rw [if_neg (by simp [hs]), if_neg ho, hd]

/-- R80: with BUSY = 1 a register a command may write reads as a free value. -/
theorem busRead_busy {a : Addr} {s : State} {bits : Word} (hs : s.rstN = true) (hb : s.busy = true)
    (hd : drawnBits (regAt a) = some bits) : busRead a s = drawRead bits s := by
  have ho : regAt a ≠ .outData := fun e => by rw [e] at hd; cases hd
  unfold busRead
  rw [if_neg (by simp [hs]), if_neg ho, hd, hb]

/-- R70: a read of OUT_DATA is a pop. -/
theorem busRead_outData {a : Addr} {s : State} (hr : regAt a = .outData) (hs : s.rstN = true) :
    busRead a s = popOut s := by
  unfold busRead
  rw [if_neg (by simp [hs]), if_pos hr]

/-- R56: a write of CTRL. -/
theorem busWrite_ctrl {a : Addr} {s : State} (v : Word) (hr : regAt a = .ctrl) (hs : s.rstN = true) :
    busWrite a v s = some (writeCtrl v s) := by
  unfold busWrite
  rw [if_neg (by simp [hs]), if_pos hr]

/-- R69: a write of CMD. -/
theorem busWrite_cmd {a : Addr} {s : State} (v : Word) (hr : regAt a = .cmd) (hs : s.rstN = true) :
    busWrite a v s = if cmdRoom s then some { s with cmdq := s.cmdq ++ [v] } else none := by
  unfold busWrite
  rw [if_neg (by simp [hs]), if_neg (by simp [hr]), if_pos hr]

/-- R14: bit `k` of word `w` of left-aligned storage is bit `32 w + k` of the string. -/
theorem getMsbD_storageWord (b : BitVec 256) (w : BitVec 3) {k : Nat} (hk : k < 32) :
    (storageWord b w).getMsbD k = b.getMsbD (32 * w.toNat + k) := by
  have hw := w.isLt
  have h1 : 224 - 32 * w.toNat + (31 - k) = 255 - (32 * w.toNat + k) := by omega
  have h2 : 31 - k < 32 := by omega
  have h3 : 32 * w.toNat + k < 256 := by omega
  simp only [storageWord, BitVec.getMsbD, BitVec.getLsbD_extractLsb']
  simp [hk, h2, h3, h1]

theorem getLsbD_bitAt (b : Bool) {k j : Nat} (hj : j < 32) :
    (bitAt b k).getLsbD j = (decide (j = k) && b) := by
  rw [bitAt, getLsbD_fieldAt _ _ _ hj]
  by_cases h : j = k
  · subst h; simp
  · by_cases g : k ≤ j
    · have hne : j - k ≠ 0 := by omega
      simp [h, hne]
    · simp [h, g]

/-- R57: the bits of STATUS. -/
theorem getLsbD_status (s : State) {k : Nat} (hk : k < 32) :
    s.status.getLsbD k =
      (decide (k = 0) && s.busy || decide (k = 1) && s.err.error || decide (k = 2) && s.tree.valid ||
        decide (k = 3) && s.dec.mode.isDecoding || decide (k = 4) && s.extWait || decide (k = 5) && s.outNonempty ||
        decide (k = 6) && s.irq) := by
  simp only [State.status, BitVec.getLsbD_or, getLsbD_bitAt _ hk]

end Sys2Proof.Machine
end

