-- ==== Sys2Proof/Laws/State.lean ====
section
/-! SUPPORT. One lemma per field for each named update of the state, so that no later proof unfolds an update. -/

namespace Sys2Proof.Machine

/-! ## complete -/

@[simp] theorem complete_freq (s : State) : (complete s).freq = s.freq := rfl
@[simp] theorem complete_tree (s : State) : (complete s).tree = s.tree := rfl
@[simp] theorem complete_ct (s : State) : (complete s).ct = s.ct := rfl
@[simp] theorem complete_enc (s : State) : (complete s).enc = s.enc := rfl
@[simp] theorem complete_dec (s : State) : (complete s).dec = s.dec := rfl
@[simp] theorem complete_err (s : State) : (complete s).err = s.err := rfl
@[simp] theorem complete_ctrl (s : State) : (complete s).ctrl = s.ctrl := rfl
@[simp] theorem complete_cmdq (s : State) : (complete s).cmdq = s.cmdq := rfl
@[simp] theorem complete_outq (s : State) : (complete s).outq = s.outq := rfl
@[simp] theorem complete_executing (s : State) : (complete s).executing = none := rfl
@[simp] theorem complete_rstN (s : State) : (complete s).rstN = s.rstN := rfl
@[simp] theorem complete_params (s : State) : (complete s).params = s.params := rfl
@[simp] theorem complete_host (s : State) : (complete s).host = s.host := rfl
@[simp] theorem complete_sched (s : State) : (complete s).sched = s.sched := rfl
@[simp] theorem complete_grant (s : State) : (complete s).grant = s.grant := rfl

/-! ## raise -/

@[simp] theorem raise_freq (code : ErrCode) (sub : BitVec 4) (info : Word) (bp : BitVec 3) (h : Word) (s : State) : (raise code sub info bp h s).freq = s.freq := rfl
@[simp] theorem raise_tree (code : ErrCode) (sub : BitVec 4) (info : Word) (bp : BitVec 3) (h : Word) (s : State) : (raise code sub info bp h s).tree = s.tree := rfl
@[simp] theorem raise_ct (code : ErrCode) (sub : BitVec 4) (info : Word) (bp : BitVec 3) (h : Word) (s : State) : (raise code sub info bp h s).ct = s.ct := rfl
@[simp] theorem raise_enc (code : ErrCode) (sub : BitVec 4) (info : Word) (bp : BitVec 3) (h : Word) (s : State) : (raise code sub info bp h s).enc = s.enc := rfl
@[simp] theorem raise_dec (code : ErrCode) (sub : BitVec 4) (info : Word) (bp : BitVec 3) (h : Word) (s : State) : (raise code sub info bp h s).dec = s.dec := rfl
@[simp] theorem raise_err (code : ErrCode) (sub : BitVec 4) (info : Word) (bp : BitVec 3) (h : Word) (s : State) : (raise code sub info bp h s).err = 
    { error := true, code := code, sub := sub, opc := opcOf h, arg := symOf h, bitpos := bp, info := info } := rfl
@[simp] theorem raise_ctrl (code : ErrCode) (sub : BitVec 4) (info : Word) (bp : BitVec 3) (h : Word) (s : State) : (raise code sub info bp h s).ctrl = s.ctrl := rfl
@[simp] theorem raise_cmdq (code : ErrCode) (sub : BitVec 4) (info : Word) (bp : BitVec 3) (h : Word) (s : State) : (raise code sub info bp h s).cmdq = s.cmdq := rfl
@[simp] theorem raise_outq (code : ErrCode) (sub : BitVec 4) (info : Word) (bp : BitVec 3) (h : Word) (s : State) : (raise code sub info bp h s).outq = s.outq := rfl
@[simp] theorem raise_executing (code : ErrCode) (sub : BitVec 4) (info : Word) (bp : BitVec 3) (h : Word) (s : State) : (raise code sub info bp h s).executing = none := rfl
@[simp] theorem raise_rstN (code : ErrCode) (sub : BitVec 4) (info : Word) (bp : BitVec 3) (h : Word) (s : State) : (raise code sub info bp h s).rstN = s.rstN := rfl
@[simp] theorem raise_params (code : ErrCode) (sub : BitVec 4) (info : Word) (bp : BitVec 3) (h : Word) (s : State) : (raise code sub info bp h s).params = s.params := rfl
@[simp] theorem raise_host (code : ErrCode) (sub : BitVec 4) (info : Word) (bp : BitVec 3) (h : Word) (s : State) : (raise code sub info bp h s).host = s.host := rfl
@[simp] theorem raise_sched (code : ErrCode) (sub : BitVec 4) (info : Word) (bp : BitVec 3) (h : Word) (s : State) : (raise code sub info bp h s).sched = s.sched := rfl
@[simp] theorem raise_grant (code : ErrCode) (sub : BitVec 4) (info : Word) (bp : BitVec 3) (h : Word) (s : State) : (raise code sub info bp h s).grant = s.grant := rfl

/-! ## resetElements -/

@[simp] theorem resetElements_freq (s : State) : (resetElements s).freq = State.reset.freq := rfl
@[simp] theorem resetElements_tree (s : State) : (resetElements s).tree = State.reset.tree := rfl
@[simp] theorem resetElements_ct (s : State) : (resetElements s).ct = State.reset.ct := rfl
@[simp] theorem resetElements_enc (s : State) : (resetElements s).enc = State.reset.enc := rfl
@[simp] theorem resetElements_dec (s : State) : (resetElements s).dec = State.reset.dec := rfl
@[simp] theorem resetElements_err (s : State) : (resetElements s).err = State.reset.err := rfl
@[simp] theorem resetElements_ctrl (s : State) : (resetElements s).ctrl = State.reset.ctrl := rfl
@[simp] theorem resetElements_cmdq (s : State) : (resetElements s).cmdq = State.reset.cmdq := rfl
@[simp] theorem resetElements_outq (s : State) : (resetElements s).outq = State.reset.outq := rfl
@[simp] theorem resetElements_executing (s : State) : (resetElements s).executing = State.reset.executing := rfl
@[simp] theorem resetElements_rstN (s : State) : (resetElements s).rstN = s.rstN := rfl
@[simp] theorem resetElements_params (s : State) : (resetElements s).params = s.params := rfl
@[simp] theorem resetElements_host (s : State) : (resetElements s).host = s.host := rfl
@[simp] theorem resetElements_sched (s : State) : (resetElements s).sched = s.sched := rfl
@[simp] theorem resetElements_grant (s : State) : (resetElements s).grant = s.grant := rfl

/-! ## withPending -/

@[simp] theorem withPending_freq (ops : List BusOp) (s : State) : (withPending ops s).freq = s.freq := rfl
@[simp] theorem withPending_tree (ops : List BusOp) (s : State) : (withPending ops s).tree = s.tree := rfl
@[simp] theorem withPending_ct (ops : List BusOp) (s : State) : (withPending ops s).ct = s.ct := rfl
@[simp] theorem withPending_enc (ops : List BusOp) (s : State) : (withPending ops s).enc = s.enc := rfl
@[simp] theorem withPending_dec (ops : List BusOp) (s : State) : (withPending ops s).dec = s.dec := rfl
@[simp] theorem withPending_err (ops : List BusOp) (s : State) : (withPending ops s).err = s.err := rfl
@[simp] theorem withPending_ctrl (ops : List BusOp) (s : State) : (withPending ops s).ctrl = s.ctrl := rfl
@[simp] theorem withPending_cmdq (ops : List BusOp) (s : State) : (withPending ops s).cmdq = s.cmdq := rfl
@[simp] theorem withPending_outq (ops : List BusOp) (s : State) : (withPending ops s).outq = s.outq := rfl
@[simp] theorem withPending_executing (ops : List BusOp) (s : State) : (withPending ops s).executing = s.executing := rfl
@[simp] theorem withPending_rstN (ops : List BusOp) (s : State) : (withPending ops s).rstN = s.rstN := rfl
@[simp] theorem withPending_params (ops : List BusOp) (s : State) : (withPending ops s).params = s.params := rfl
@[simp] theorem withPending_host (ops : List BusOp) (s : State) : (withPending ops s).host = { s.host with pending := ops } := rfl
@[simp] theorem withPending_sched (ops : List BusOp) (s : State) : (withPending ops s).sched = s.sched := rfl
@[simp] theorem withPending_grant (ops : List BusOp) (s : State) : (withPending ops s).grant = s.grant := rfl

/-! ## withStalled -/

@[simp] theorem withStalled_freq (w : Option Word) (s : State) : (withStalled w s).freq = s.freq := rfl
@[simp] theorem withStalled_tree (w : Option Word) (s : State) : (withStalled w s).tree = s.tree := rfl
@[simp] theorem withStalled_ct (w : Option Word) (s : State) : (withStalled w s).ct = s.ct := rfl
@[simp] theorem withStalled_enc (w : Option Word) (s : State) : (withStalled w s).enc = s.enc := rfl
@[simp] theorem withStalled_dec (w : Option Word) (s : State) : (withStalled w s).dec = s.dec := rfl
@[simp] theorem withStalled_err (w : Option Word) (s : State) : (withStalled w s).err = s.err := rfl
@[simp] theorem withStalled_ctrl (w : Option Word) (s : State) : (withStalled w s).ctrl = s.ctrl := rfl
@[simp] theorem withStalled_cmdq (w : Option Word) (s : State) : (withStalled w s).cmdq = s.cmdq := rfl
@[simp] theorem withStalled_outq (w : Option Word) (s : State) : (withStalled w s).outq = s.outq := rfl
@[simp] theorem withStalled_executing (w : Option Word) (s : State) : (withStalled w s).executing = s.executing := rfl
@[simp] theorem withStalled_rstN (w : Option Word) (s : State) : (withStalled w s).rstN = s.rstN := rfl
@[simp] theorem withStalled_params (w : Option Word) (s : State) : (withStalled w s).params = s.params := rfl
@[simp] theorem withStalled_host (w : Option Word) (s : State) : (withStalled w s).host = { s.host with stalled := w } := rfl
@[simp] theorem withStalled_sched (w : Option Word) (s : State) : (withStalled w s).sched = s.sched := rfl
@[simp] theorem withStalled_grant (w : Option Word) (s : State) : (withStalled w s).grant = s.grant := rfl

/-! ## beginCommand -/

@[simp] theorem beginCommand_freq (h : Word) (rest : List Word) (s : State) : (beginCommand h rest s).freq = s.freq := rfl
@[simp] theorem beginCommand_tree (h : Word) (rest : List Word) (s : State) : (beginCommand h rest s).tree = s.tree := rfl
@[simp] theorem beginCommand_ct (h : Word) (rest : List Word) (s : State) : (beginCommand h rest s).ct = s.ct := rfl
@[simp] theorem beginCommand_enc (h : Word) (rest : List Word) (s : State) : (beginCommand h rest s).enc = s.enc := rfl
@[simp] theorem beginCommand_dec (h : Word) (rest : List Word) (s : State) : (beginCommand h rest s).dec = s.dec := rfl
@[simp] theorem beginCommand_err (h : Word) (rest : List Word) (s : State) : (beginCommand h rest s).err = s.err := rfl
@[simp] theorem beginCommand_ctrl (h : Word) (rest : List Word) (s : State) : (beginCommand h rest s).ctrl = s.ctrl := rfl
@[simp] theorem beginCommand_cmdq (h : Word) (rest : List Word) (s : State) : (beginCommand h rest s).cmdq = rest := rfl
@[simp] theorem beginCommand_outq (h : Word) (rest : List Word) (s : State) : (beginCommand h rest s).outq = s.outq := rfl
@[simp] theorem beginCommand_executing (h : Word) (rest : List Word) (s : State) : (beginCommand h rest s).executing = some ⟨h, [], 0⟩ := rfl
@[simp] theorem beginCommand_rstN (h : Word) (rest : List Word) (s : State) : (beginCommand h rest s).rstN = s.rstN := rfl
@[simp] theorem beginCommand_params (h : Word) (rest : List Word) (s : State) : (beginCommand h rest s).params = s.params := rfl
@[simp] theorem beginCommand_host (h : Word) (rest : List Word) (s : State) : (beginCommand h rest s).host = s.host := rfl
@[simp] theorem beginCommand_sched (h : Word) (rest : List Word) (s : State) : (beginCommand h rest s).sched = s.sched := rfl
@[simp] theorem beginCommand_grant (h : Word) (rest : List Word) (s : State) : (beginCommand h rest s).grant = s.grant := rfl

/-! ## The writes of the commands that push -/

@[simp] theorem encodeWrites_outq (len : Byte) (p : Bits) (s : State) : (encodeWrites len p s).outq = s.outq := rfl
@[simp] theorem encodeWrites_ct (len : Byte) (p : Bits) (s : State) : (encodeWrites len p s).ct = s.ct := rfl
@[simp] theorem encodeWrites_freq (len : Byte) (p : Bits) (s : State) : (encodeWrites len p s).freq = s.freq := rfl
@[simp] theorem encodeWrites_tree (len : Byte) (p : Bits) (s : State) : (encodeWrites len p s).tree = s.tree := rfl
@[simp] theorem encodeWrites_dec (len : Byte) (p : Bits) (s : State) : (encodeWrites len p s).dec = s.dec := rfl
@[simp] theorem encodeWrites_err (len : Byte) (p : Bits) (s : State) : (encodeWrites len p s).err = s.err := rfl
@[simp] theorem flushWrites_outq (s : State) : (flushWrites s).outq = s.outq := rfl
@[simp] theorem flushWrites_ct (s : State) : (flushWrites s).ct = s.ct := rfl
@[simp] theorem flushWrites_freq (s : State) : (flushWrites s).freq = s.freq := rfl
@[simp] theorem flushWrites_tree (s : State) : (flushWrites s).tree = s.tree := rfl
@[simp] theorem flushWrites_dec (s : State) : (flushWrites s).dec = s.dec := rfl
@[simp] theorem flushWrites_err (s : State) : (flushWrites s).err = s.err := rfl

/-- DEC_FEED's writes touch the decoder, and for a dead prefix the record and EXEC; nothing else (R171, R200). -/
theorem feedWrites_frame (f : Feed) (h : Word) (s : State) :
    (feedWrites f h s).freq = s.freq ∧ (feedWrites f h s).tree = s.tree ∧ (feedWrites f h s).ct = s.ct ∧
    (feedWrites f h s).enc = s.enc ∧ (feedWrites f h s).ctrl = s.ctrl ∧ (feedWrites f h s).cmdq = s.cmdq ∧
    (feedWrites f h s).outq = s.outq ∧ (feedWrites f h s).rstN = s.rstN ∧ (feedWrites f h s).params = s.params ∧
    (feedWrites f h s).host = s.host ∧ (feedWrites f h s).sched = s.sched ∧ (feedWrites f h s).grant = s.grant ∧
    (feedWrites f h s).dec = { s.dec.withPartial f.rest with remaining := f.remaining } := by
  cases hd : f.dead <;> simp [feedWrites, hd, raise]

end Sys2Proof.Machine
end

