-- ==== Sys2Proof/Laws/Ops.lean ====
section
/-! SUPPORT. One lemma per shared operation: acceptance, error entry, and the pushing of bytes, each saying once what
the operation can do. -/

namespace Sys2Proof.Machine

theorem whenAccepted_yes {i : Instr} {s : State} (h : accepted i.op s.dec.mode = true) (r : Result) :
    whenAccepted i s r = r := by simp [whenAccepted, h]

theorem whenAccepted_no {i : Instr} {s : State} (h : accepted i.op s.dec.mode = false) (r : Result) :
    whenAccepted i s r = .next (refuseMode i.header s) := by simp [whenAccepted, h]

/-- What acceptance can do: the command runs, or ILLEGAL_COMMAND sub-code 3 is raised. -/
theorem whenAccepted_cases (i : Instr) (s : State) (r : Result) :
    (accepted i.op s.dec.mode = true ∧ whenAccepted i s r = r) ∨
    (accepted i.op s.dec.mode = false ∧ whenAccepted i s r = .next (raise .illegalCommand 3 i.header 0 i.header s)) := by
  cases h : accepted i.op s.dec.mode
  · exact .inr ⟨rfl, whenAccepted_no h r⟩
  · exact .inl ⟨rfl, whenAccepted_yes h r⟩

theorem unpushed_fresh {s : State} (i : Instr) (bytes : List Byte)
    (h : ∀ e, s.executing = some e → e.pushed = 0) : unpushed i bytes s = bytes := by
  unfold unpushed progress
  cases he : s.executing with
  | none => simp
  | some e => simp [h e he]

/-- With a slot for each byte the command pushes them all, makes its writes and completes. -/
theorem emit_all {i : Instr} {bytes : List Byte} {s : State} (final : State → State)
    (h : (unpushed i bytes s).length ≤ slots s) :
    emit i bytes final s = complete (final { s with outq := s.outq ++ unpushed i bytes s }) := if_pos h

/-- Without, it fills the slots and stays in EXEC. -/
theorem emit_some {i : Instr} {bytes : List Byte} {s : State} (final : State → State)
    (h : slots s < (unpushed i bytes s).length) :
    emit i bytes final s = { s with
      outq := s.outq ++ (unpushed i bytes s).take (slots s)
      executing := some { progress i s with pushed := (progress i s).pushed + slots s } } := if_neg (by omega)

/-- What pushing can do, said once. -/
theorem emit_cases (i : Instr) (bytes : List Byte) (final : State → State) (s : State) :
    (emit i bytes final s = complete (final { s with outq := s.outq ++ unpushed i bytes s })) ∨
    (∃ e, emit i bytes final s =
      { s with outq := s.outq ++ (unpushed i bytes s).take (slots s), executing := some e }) := by
  by_cases h : (unpushed i bytes s).length ≤ slots s
  · exact .inl (emit_all final h)
  · exact .inr ⟨_, emit_some final (by omega)⟩

/-- OUTQ never grows past its depth by a push. -/
theorem slots_le (s : State) : slots s ≤ s.params.outDepth.toNat - s.outq.length := by
  unfold slots
  cases s.grant with
  | none => exact Nat.le_refl _
  | some k => exact Nat.min_le_right _ _

/-- R15: taking the words of a command changes CMDQ and EXEC alone. -/
theorem takeWords_snd (e : Exec) (s : State) :
    (takeWords e s).2 = { s with
      cmdq := s.cmdq.drop e.missing
      executing := some { e with taken := e.taken ++ s.cmdq.take e.missing } } := rfl

theorem takeWords_fst (e : Exec) (s : State) :
    (takeWords e s).1 = { e with taken := e.taken ++ s.cmdq.take e.missing } := rfl

end Sys2Proof.Machine
end

