-- ==== Sys2Proof/Laws/Exec.lean ====
section
/-! SUPPORT. What executing a command can do, said once: `exec_effect` gives, for each command that answers a next
state, that state. Later proofs take cases on `Effect` instead of unfolding the meanings. -/

namespace Sys2Proof.Machine

/-- The next states a command can answer with (R101 to R172, R193, R209). -/
inductive Effect : Instr → State → State → Prop where
  | raised {i s} (code : ErrCode) (sub : BitVec 4) (info : Word) (bp : BitVec 3) :
      Effect i s (raise code sub info bp i.header s)
  | nop {s} : Effect .nop s (complete s)
  | freqClear {s} (m : s.dec.mode = .idle) : Effect .freqClear s (complete { s with freq := FreqTable.empty })
  | freqAcc {s} (sym : Byte) (m : s.dec.mode = .idle) (room : s.freq.total ≠ 0xFFFFFFFF) :
      Effect (.freqAcc sym) s (complete { s with freq := s.freq.add sym })
  | build {s} (m : s.dec.mode = .idle) (some : (presentSymbols s.freq).isEmpty = false) :
      Effect .build s (complete { s with tree := buildTree s.freq s.tree.node })
  | genCodes {s} (m : s.dec.mode = .idle) (valid : s.tree.valid = true) (codes : List (Byte × Bits))
      (walk : treeCodes s.tree = some codes) :
      Effect .genCodes s (complete { s with ct := tableOf codes, tree := { s.tree with valid := false } })
  | encInit {s} (m : s.dec.mode = .idle) :
      Effect .encInit s (complete { s with enc := { acc := 0, accLen := 0, bits := 0 } })
  | encByte {s} (sym : Byte) (m : s.dec.mode = .idle) (has : entry s.ct.len sym ≠ 0) :
      Effect (.encByte sym) s
        (emit (.encByte sym) (encodeSym sym s).1 (encodeWrites (entry s.ct.len sym) (encodeSym sym s).2) s)
  | encFlushNone {s} (m : s.dec.mode = .idle) (none : s.enc.pending.isEmpty = true) : Effect .encFlush s (complete s)
  | encFlush {s} (m : s.dec.mode = .idle) (some : s.enc.pending.isEmpty = false) :
      Effect .encFlush s (emit .encFlush (flushBytes s) flushWrites s)
  | ctClear {s} (m : s.dec.mode = .idle) : Effect .ctClear s (complete { s with ct := CodeTable.empty })
  | ctLoad {s} (sym len : Byte) (data : List Word) (m : s.dec.mode = .idle) (nonempty : len ≠ 0)
      (free : entry s.ct.len sym = 0) (fresh : s.ct.holder len (loadWords data len.toNat) = none) :
      Effect (.ctLoad sym len data) s (complete { s with ct := s.ct.put sym (loadWords data len.toNat) })
  | decStart {s} (count : Word) (m : s.dec.mode = .idle) :
      Effect (.decStart count) s (complete { s with
        dec := { mode := .decoding, declared := count, remaining := count, plen := 0, pbits := 0 } })
  | decFeed {s} (sym : Byte) (m : s.dec.mode = .decoding) :
      Effect (.decFeed sym) s
        (emit (.decFeed sym) (feedByte sym s).out (feedWrites (feedByte sym s) (Instr.decFeed sym).header) s)
  | decEnd {s} (m : s.dec.mode = .decoding) (done : s.dec.remaining = 0) :
      Effect .decEnd s (complete { s with dec := { s.dec with mode := .idle } })

/-- R193: every command but NOP, DEC_FEED and DEC_END is accepted in IDLE alone. -/
theorem idle_of_accepted {op : Op} {m : Mode} (h : accepted op m = true) :
    op = .nop ∨ ((op = .decFeed ∨ op = .decEnd) ∧ m = .decoding) ∨
      (op ≠ .nop ∧ op ≠ .decFeed ∧ op ≠ .decEnd ∧ m = .idle) := by
  cases op <;> cases m <;> simp_all [accepted]

theorem mode_idle {i : Instr} {s : State} (h : accepted i.op s.dec.mode = true) (h1 : i.op ≠ .nop)
    (h2 : i.op ≠ .decFeed) (h3 : i.op ≠ .decEnd) : s.dec.mode = .idle := by
  rcases idle_of_accepted h with e | ⟨e, _⟩ | ⟨_, _, _, e⟩
  · exact absurd e h1
  · exact absurd e (by simp [h2, h3])
  · exact e

theorem mode_decoding {i : Instr} {s : State} (h : accepted i.op s.dec.mode = true)
    (h1 : i.op = .decFeed ∨ i.op = .decEnd) : s.dec.mode = .decoding := by
  rcases idle_of_accepted h with e | ⟨_, e⟩ | ⟨_, e2, e3, _⟩
  · simp [e] at h1
  · exact e
  · simp [e2, e3] at h1

/-- The inversion lemma of `exec`. -/
theorem exec_effect {i : Instr} {s t : State} (h : exec i s = .next t) : Effect i s t := by
  have refused : ∀ {r : Result}, whenAccepted i s r = .next t →
      (accepted i.op s.dec.mode = true ∧ r = .next t) ∨ Effect i s t := by
    intro r hr
    rcases whenAccepted_cases i s r with ⟨ha, e⟩ | ⟨_, e⟩
    · exact .inl ⟨ha, e ▸ hr⟩
    · rw [e] at hr
      injection hr with hr
      exact .inr (hr ▸ .raised _ _ _ _)
  cases i with
  | nop =>
    rcases refused h with ⟨_, e⟩ | e
    · injection e with e; exact e ▸ .nop
    · exact e
  | freqClear =>
    rcases refused h with ⟨ha, e⟩ | e
    · injection e with e
      exact e ▸ .freqClear (mode_idle ha (by simp [Instr.op]) (by simp [Instr.op]) (by simp [Instr.op]))
    · exact e
  | freqAcc sym =>
    rcases refused h with ⟨ha, e⟩ | e
    · injection e with e
      split at e
      · exact e ▸ .raised _ _ _ _
      · rename_i hr
        exact e ▸ .freqAcc sym (mode_idle ha (by simp [Instr.op]) (by simp [Instr.op]) (by simp [Instr.op])) hr
    · exact e
  | build =>
    rcases refused h with ⟨ha, e⟩ | e
    · injection e with e
      split at e
      · exact e ▸ .raised _ _ _ _
      · rename_i hr
        exact e ▸ .build (mode_idle ha (by simp [Instr.op]) (by simp [Instr.op]) (by simp [Instr.op])) (by simpa using hr)
    · exact e
  | genCodes =>
    rcases refused h with ⟨ha, e⟩ | e
    · split at e
      · injection e with e; exact e ▸ .raised _ _ _ _
      · rename_i hv
        split at e
        · simp at e
        · rename_i codes hc
          injection e with e
          exact e ▸ .genCodes (mode_idle ha (by simp [Instr.op]) (by simp [Instr.op]) (by simp [Instr.op]))
            (by simpa using hv) codes hc
    · exact e
  | encInit =>
    rcases refused h with ⟨ha, e⟩ | e
    · injection e with e
      exact e ▸ .encInit (mode_idle ha (by simp [Instr.op]) (by simp [Instr.op]) (by simp [Instr.op]))
    · exact e
  | encByte sym =>
    rcases refused h with ⟨ha, e⟩ | e
    · injection e with e
      split at e
      · exact e ▸ .raised _ _ _ _
      · rename_i hr
        exact e ▸ .encByte sym (mode_idle ha (by simp [Instr.op]) (by simp [Instr.op]) (by simp [Instr.op])) hr
    · exact e
  | encFlush =>
    rcases refused h with ⟨ha, e⟩ | e
    · have m := mode_idle ha (by simp [Instr.op]) (by simp [Instr.op]) (by simp [Instr.op])
      injection e with e
      split at e
      · rename_i hp
        exact e ▸ .encFlushNone m hp
      · rename_i hp
        exact e ▸ .encFlush m (by simpa using hp)
    · exact e
  | ctClear =>
    rcases refused h with ⟨ha, e⟩ | e
    · injection e with e
      exact e ▸ .ctClear (mode_idle ha (by simp [Instr.op]) (by simp [Instr.op]) (by simp [Instr.op]))
    · exact e
  | ctLoad sym len data =>
    rcases refused h with ⟨ha, e⟩ | e
    · injection e with e
      simp only at e
      split at e
      · exact e ▸ .raised _ _ _ _
      · rename_i hl
        split at e
        · exact e ▸ .raised _ _ _ _
        · rename_i hf
          split at e
          · exact e ▸ .raised _ _ _ _
          · rename_i hn
            exact e ▸ .ctLoad sym len data
              (mode_idle ha (by simp [Instr.op]) (by simp [Instr.op]) (by simp [Instr.op])) hl (by simpa using hf) hn
    · exact e
  | decStart count =>
    rcases refused h with ⟨ha, e⟩ | e
    · injection e with e
      exact e ▸ .decStart count (mode_idle ha (by simp [Instr.op]) (by simp [Instr.op]) (by simp [Instr.op]))
    · exact e
  | decFeed sym =>
    rcases refused h with ⟨ha, e⟩ | e
    · injection e with e
      exact e ▸ .decFeed sym (mode_decoding ha (by simp [Instr.op]))
    · exact e
  | decEnd =>
    rcases refused h with ⟨ha, e⟩ | e
    · injection e with e
      split at e
      · rename_i hr
        exact e ▸ .decEnd (mode_decoding ha (by simp [Instr.op])) hr
      · exact e ▸ .raised _ _ _ _
    · exact e

/-- No command is refused as not modelled, and only GEN_CODES can stop. -/
theorem exec_stops_only_in_genCodes (i : Instr) (s : State) :
    (∃ t, exec i s = .next t) ∨
    (i = .genCodes ∧ s.tree.valid = true ∧ treeCodes s.tree = none ∧ exec i s = .fault .arenaHoldsNoTree) := by
  have refused : ∀ (r : Result), (∃ t, r = .next t) → ∃ t, whenAccepted i s r = .next t := by
    intro r ⟨t, ht⟩
    rcases whenAccepted_cases i s r with ⟨_, e⟩ | ⟨_, e⟩
    · exact ⟨t, e.trans ht⟩
    · exact ⟨_, e⟩
  cases i with
  | genCodes =>
    rcases whenAccepted_cases .genCodes s (
      if s.tree.valid = false then
        .next (raise .illegalCommand 4 Instr.genCodes.header 0 Instr.genCodes.header s)
      else
        match treeCodes s.tree with
        | none => .fault .arenaHoldsNoTree
        | some codes => .next (complete { s with ct := tableOf codes, tree := { s.tree with valid := false } }))
      with ⟨_, e⟩ | ⟨_, e⟩
    · cases hv : s.tree.valid
      · exact .inl ⟨_, e.trans (by rw [if_pos hv])⟩
      · cases hc : treeCodes s.tree with
        | none => exact .inr ⟨rfl, rfl, rfl, e.trans (by rw [if_neg (by simp [hv]), hc])⟩
        | some codes => exact .inl ⟨_, e.trans (by rw [if_neg (by simp [hv]), hc])⟩
    · exact .inl ⟨_, e⟩
  | nop => exact .inl (refused _ ⟨_, rfl⟩)
  | freqClear => exact .inl (refused _ ⟨_, rfl⟩)
  | freqAcc sym => exact .inl (refused _ ⟨_, rfl⟩)
  | build => exact .inl (refused _ ⟨_, rfl⟩)
  | encInit => exact .inl (refused _ ⟨_, rfl⟩)
  | encByte sym => exact .inl (refused _ ⟨_, rfl⟩)
  | encFlush => exact .inl (refused _ ⟨_, rfl⟩)
  | ctClear => exact .inl (refused _ ⟨_, rfl⟩)
  | ctLoad sym len data => exact .inl (refused _ ⟨_, rfl⟩)
  | decStart count => exact .inl (refused _ ⟨_, rfl⟩)
  | decFeed sym => exact .inl (refused _ ⟨_, rfl⟩)
  | decEnd => exact .inl (refused _ ⟨_, rfl⟩)

end Sys2Proof.Machine
end

