-- ==== Sys2Proof/Laws/Engine.lean ====
section
/-! SUPPORT. What a turn can do, said once: the engine's turn runs a command or only moves words, the host's turn
touches the queues, the enables and its own side, or resets; the step is one of the three turns. -/

namespace Sys2Proof.Machine

/-- Only CMDQ, EXEC and the turn's grant may differ. -/
structure OnlyWords (s t : State) : Prop where
  freq : t.freq = s.freq
  tree : t.tree = s.tree
  ct : t.ct = s.ct
  enc : t.enc = s.enc
  dec : t.dec = s.dec
  err : t.err = s.err
  ctrl : t.ctrl = s.ctrl
  outq : t.outq = s.outq
  rstN : t.rstN = s.rstN
  params : t.params = s.params
  host : t.host = s.host
  sched : t.sched = s.sched
  fewer : t.cmdq <:+ s.cmdq

theorem takeWords_onlyWords (e : Exec) (s : State) : OnlyWords s (takeWords e s).2 :=
  ⟨rfl, rfl, rfl, rfl, rfl, rfl, rfl, rfl, rfl, rfl, rfl, rfl, List.drop_suffix _ _⟩

/-- R195 (a): a command that misses an extension word keeps the words it has and holds. -/
theorem runCommand_waits {e : Exec} {s : State} (hm : 0 < (takeWords e s).1.missing) :
    runCommand e s = .next (takeWords e s).2 := by
  simp only [runCommand, hm, if_true]

/-- R191 step 6: a command with all its words runs. -/
theorem runCommand_runs {e : Exec} {s : State} {i : Instr} {rest : List Word}
    (hm : (takeWords e s).1.missing = 0)
    (hd : decode ((takeWords e s).1.header :: (takeWords e s).1.taken) = .ok (i, rest)) :
    runCommand e s = exec i (takeWords e s).2 := by
  simp only [runCommand, hm, Nat.lt_irrefl, if_false, hd]

theorem runCommand_error {e : Exec} {s : State} {d : DecodeError} (hm : (takeWords e s).1.missing = 0)
    (hd : decode ((takeWords e s).1.header :: (takeWords e s).1.taken) = .error d) :
    runCommand e s = .next (refuseWord d e.header (takeWords e s).2) := by
  simp only [runCommand, hm, Nat.lt_irrefl, if_false, hd]
  rfl

/-- What the engine can do with the command in execution. -/
theorem runCommand_cases (e : Exec) (s : State) :
    (∃ t, OnlyWords s t ∧ runCommand e s = .next t) ∨
    (∃ i t, OnlyWords s t ∧ runCommand e s = exec i t) ∨
    (∃ t sub, OnlyWords s t ∧
      runCommand e s = .next (raise .illegalCommand sub e.header 0 e.header t)) := by
  have hw := takeWords_onlyWords e s
  rcases Nat.eq_zero_or_pos (takeWords e s).1.missing with hm | hm
  · cases hd : decode ((takeWords e s).1.header :: (takeWords e s).1.taken) with
    | ok r => exact .inr (.inl ⟨r.1, _, hw, runCommand_runs hm hd⟩)
    | error d =>
      have heq := runCommand_error hm hd
      cases d with
      | unassignedOpcode => exact .inr (.inr ⟨_, 1, hw, heq⟩)
      | reservedNonzero => exact .inr (.inr ⟨_, 2, hw, heq⟩)
      | missingExtension => exact .inl ⟨_, hw, heq⟩
      | noWord => exact .inl ⟨_, hw, heq⟩
  · exact .inl ⟨_, hw, runCommand_waits hm⟩

theorem OnlyWords.trans {a b c : State} (h : OnlyWords a b) (g : OnlyWords b c) : OnlyWords a c :=
  ⟨g.1.trans h.1, g.2.trans h.2, g.3.trans h.3, g.4.trans h.4, g.5.trans h.5, g.6.trans h.6, g.7.trans h.7,
    g.8.trans h.8, g.9.trans h.9, g.10.trans h.10, g.11.trans h.11, g.12.trans h.12, g.13.trans h.13⟩

/-! ## The engine's turn, case by case -/

/-- R230: no step while `rst_n` is low. -/
theorem engineTurn_low (k : Option Nat) {s : State} (hr : s.rstN = false) :
    engineTurn k s = .next { s with grant := k } := by
  unfold engineTurn; rw [if_pos hr]

/-- R43: a command in execution goes on. -/
theorem engineTurn_run (k : Option Nat) {s : State} {e : Exec} (hr : s.rstN = true) (hx : s.executing = some e) :
    engineTurn k s = runCommand e { s with grant := k } := by
  unfold engineTurn; rw [if_neg (by simp [hr])]; simp only [hx]

/-- R190: with CMDQ empty and EXEC = NONE the engine waits. -/
theorem engineTurn_idle (k : Option Nat) {s : State} (hx : s.executing = none) (hq : s.cmdq = []) :
    engineTurn k s = .next { s with grant := k } := by
  unfold engineTurn
  split
  · rfl
  · simp only [hx, hq]

/-- R190: with EXEC = NONE the engine takes the word at the head of CMDQ. -/
theorem engineTurn_take (k : Option Nat) {s : State} {h : Word} {rest : List Word} (hr : s.rstN = true)
    (hx : s.executing = none) (hq : s.cmdq = h :: rest) :
    engineTurn k s = takeHeader h rest { s with grant := k } := by
  unfold engineTurn; rw [if_neg (by simp [hr])]; simp only [hx, hq]

/-- R192: in the error state the word is discarded. -/
theorem takeHeader_discards (h : Word) (rest : List Word) {s : State} (he : s.err.error = true) :
    takeHeader h rest s = .next { s with cmdq := rest } := by
  unfold takeHeader; rw [if_pos he]

/-- R91, R190: a word that spells no command is refused. -/
theorem takeHeader_illegal {h : Word} (rest : List Word) {s : State} {d : DecodeError} (he : s.err.error = false)
    (hc : classify h = .error d) : takeHeader h rest s = .next (refuseWord d h { s with cmdq := rest }) := by
  unfold takeHeader; rw [if_neg (by simp [he]), hc]

/-- R193: a command the mode does not accept is refused; its extension words stay in CMDQ. -/
theorem takeHeader_refused {h : Word} (rest : List Word) {s : State} {op : Op} (he : s.err.error = false)
    (hc : classify h = .ok op) (ha : accepted op s.dec.mode = false) :
    takeHeader h rest s = .next (refuseMode h { s with cmdq := rest }) := by
  unfold takeHeader; rw [if_neg (by simp [he]), hc]; simp only [ha]; rfl

/-- R190: an accepted command begins. -/
theorem takeHeader_begins {h : Word} (rest : List Word) {s : State} {op : Op} (he : s.err.error = false)
    (hc : classify h = .ok op) (ha : accepted op s.dec.mode = true) :
    takeHeader h rest s = runCommand { header := h, taken := [], pushed := 0 } (beginCommand h rest s) := by
  unfold takeHeader; rw [if_neg (by simp [he]), hc]; simp only [ha, if_true]

theorem takeHeader_cases (h : Word) (rest : List Word) (s : State) (hq : s.cmdq = h :: rest) :
    (∃ t, OnlyWords s t ∧ takeHeader h rest s = .next t) ∨
    (∃ i t, OnlyWords s t ∧ takeHeader h rest s = exec i t) ∨
    (∃ t sub h', OnlyWords s t ∧ takeHeader h rest s = .next (raise .illegalCommand sub h' 0 h' t)) := by
  have popped : OnlyWords s { s with cmdq := rest } :=
    ⟨rfl, rfl, rfl, rfl, rfl, rfl, rfl, rfl, rfl, rfl, rfl, rfl, hq ▸ List.suffix_cons _ _⟩
  have begun : OnlyWords s (beginCommand h rest s) :=
    ⟨rfl, rfl, rfl, rfl, rfl, rfl, rfl, rfl, rfl, rfl, rfl, rfl, hq ▸ List.suffix_cons _ _⟩
  cases he : s.err.error
  · cases hc : classify h with
    | error d =>
      have heq := takeHeader_illegal rest he hc
      cases d with
      | unassignedOpcode => exact .inr (.inr ⟨_, 1, h, popped, heq⟩)
      | reservedNonzero => exact .inr (.inr ⟨_, 2, h, popped, heq⟩)
      | missingExtension => exact .inl ⟨_, popped, heq⟩
      | noWord => exact .inl ⟨_, popped, heq⟩
    | ok op =>
      cases ha : accepted op s.dec.mode
      · exact .inr (.inr ⟨_, 3, h, popped, takeHeader_refused rest he hc ha⟩)
      · have heq := takeHeader_begins rest he hc ha
        rcases runCommand_cases ⟨h, [], 0⟩ (beginCommand h rest s) with ⟨u, hu, g⟩ | ⟨i, u, hu, g⟩ | ⟨u, sub, hu, g⟩
        · exact .inl ⟨u, begun.trans hu, heq.trans g⟩
        · exact .inr (.inl ⟨i, u, begun.trans hu, heq.trans g⟩)
        · exact .inr (.inr ⟨u, sub, _, begun.trans hu, heq.trans g⟩)
  · exact .inl ⟨_, popped, takeHeader_discards h rest he⟩

/-- The inversion lemma of the engine's turn: words are moved, a command runs, or a header is refused. -/
theorem engineTurn_cases (k : Option Nat) (s : State) :
    (∃ t, OnlyWords s t ∧ engineTurn k s = .next t) ∨
    (∃ i t, OnlyWords s t ∧ engineTurn k s = exec i t) ∨
    (∃ t sub h, OnlyWords s t ∧ engineTurn k s = .next (raise .illegalCommand sub h 0 h t)) := by
  have base : OnlyWords s { s with grant := k } :=
    ⟨rfl, rfl, rfl, rfl, rfl, rfl, rfl, rfl, rfl, rfl, rfl, rfl, List.suffix_refl _⟩
  cases hr : s.rstN
  · exact .inl ⟨_, base, engineTurn_low k hr⟩
  · cases hx : s.executing with
    | some e =>
      have heq := engineTurn_run k hr hx
      rcases runCommand_cases e { s with grant := k } with ⟨u, hu, g⟩ | ⟨i, u, hu, g⟩ | ⟨u, sub, hu, g⟩
      · exact .inl ⟨u, base.trans hu, heq.trans g⟩
      · exact .inr (.inl ⟨i, u, base.trans hu, heq.trans g⟩)
      · exact .inr (.inr ⟨u, sub, _, base.trans hu, heq.trans g⟩)
    | none =>
      cases hq : s.cmdq with
      | nil => exact .inl ⟨_, base, engineTurn_idle k hx hq⟩
      | cons h rest =>
        have heq := engineTurn_take k hr hx hq
        rcases takeHeader_cases h rest { s with grant := k } hq with ⟨u, hu, g⟩ | ⟨i, u, hu, g⟩ | ⟨u, sub, h', hu, g⟩
        · exact .inl ⟨u, base.trans hu, heq.trans g⟩
        · exact .inr (.inl ⟨i, u, base.trans hu, heq.trans g⟩)
        · exact .inr (.inr ⟨u, sub, h', base.trans hu, heq.trans g⟩)

/-- The host's turn leaves the units, EXEC and the error record alone; the queues change by one pop or one push. -/
structure OnlyBus (s t : State) : Prop where
  freq : t.freq = s.freq
  tree : t.tree = s.tree
  ct : t.ct = s.ct
  enc : t.enc = s.enc
  dec : t.dec = s.dec
  err : t.err = s.err
  executing : t.executing = s.executing
  rstN : t.rstN = s.rstN
  params : t.params = s.params
  sched : t.sched = s.sched
  grant : t.grant = s.grant
  cmdq : t.cmdq = s.cmdq ∨ ∃ v, t.cmdq = s.cmdq ++ [v] ∧ cmdRoom s = true
  outq : t.outq <:+ s.outq

theorem busRead_onlyBus (a : Addr) (s : State) : OnlyBus s (busRead a s).2 := by
  have same : OnlyBus s s :=
    ⟨rfl, rfl, rfl, rfl, rfl, rfl, rfl, rfl, rfl, rfl, rfl, .inl rfl, List.suffix_refl _⟩
  unfold busRead
  split
  · exact same
  · split
    · unfold popOut
      split
      · exact same
      · rename_i b rest hq
        exact ⟨rfl, rfl, rfl, rfl, rfl, rfl, rfl, rfl, rfl, rfl, rfl, .inl rfl, hq ▸ List.suffix_cons _ _⟩
    · split
      · exact ⟨rfl, rfl, rfl, rfl, rfl, rfl, rfl, rfl, rfl, rfl, rfl, .inl rfl, List.suffix_refl _⟩
      · exact same
      · exact same

theorem hostRead_onlyBus (a : Addr) (s : State) : OnlyBus s (hostRead a s) := by
  have h := busRead_onlyBus a s
  exact ⟨h.1, h.2, h.3, h.4, h.5, h.6, h.7, h.8, h.9, h.10, h.11, h.12, h.13⟩

/-- A host write touches the bus side alone, or it is the soft reset (R233). -/
theorem hostWrite_cases (a : Addr) (v : Word) (s : State) :
    OnlyBus s (hostWrite a v s) ∨ hostWrite a v s = resetElements s := by
  have same : OnlyBus s s :=
    ⟨rfl, rfl, rfl, rfl, rfl, rfl, rfl, rfl, rfl, rfl, rfl, .inl rfl, List.suffix_refl _⟩
  unfold hostWrite
  cases hb : busWrite a v s with
  | none => exact .inl ⟨rfl, rfl, rfl, rfl, rfl, rfl, rfl, rfl, rfl, rfl, rfl, .inl rfl, List.suffix_refl _⟩
  | some t =>
    unfold busWrite at hb
    split at hb
    · injection hb with hb; exact .inl (hb ▸ same)
    · split at hb
      · injection hb with hb
        subst hb
        show OnlyBus s (writeCtrl v s) ∨ writeCtrl v s = resetElements s
        unfold writeCtrl
        split
        · exact .inr rfl
        · exact .inl ⟨rfl, rfl, rfl, rfl, rfl, rfl, rfl, rfl, rfl, rfl, rfl, .inl rfl, List.suffix_refl _⟩
      · split at hb
        · split at hb
          · rename_i hroom
            injection hb with hb
            subst hb
            exact .inl ⟨rfl, rfl, rfl, rfl, rfl, rfl, rfl, rfl, rfl, rfl, rfl, .inr ⟨v, rfl, hroom⟩, List.suffix_refl _⟩
          · exact absurd hb (by simp)
        · injection hb with hb; exact .inl (hb ▸ same)

/-- The inversion lemma of the host's turn. -/
theorem hostTurn_cases (s : State) :
    OnlyBus s (hostTurn s) ∨ ∃ p, hostTurn s = resetElements { s with host := p } := by
  have same : OnlyBus s s :=
    ⟨rfl, rfl, rfl, rfl, rfl, rfl, rfl, rfl, rfl, rfl, rfl, .inl rfl, List.suffix_refl _⟩
  have lift : ∀ {t : State} (p : HostPort), OnlyBus { s with host := p } t → OnlyBus s t :=
    fun _ h => ⟨h.1, h.2, h.3, h.4, h.5, h.6, h.7, h.8, h.9, h.10, h.11, h.12, h.13⟩
  have write : ∀ a v (p : HostPort), OnlyBus s (hostWrite a v { s with host := p }) ∨
      ∃ q, hostWrite a v { s with host := p } = resetElements { s with host := q } := by
    intro a v p
    rcases hostWrite_cases a v { s with host := p } with h | h
    · exact .inl (lift p h)
    · exact .inr ⟨p, h⟩
  unfold hostTurn
  split
  · split
    · exact write _ _ _
    · split
      · exact .inl (lift _ (hostRead_onlyBus _ _))
      · exact .inl same
      · exact .inl same
      · exact .inl same
  · exact .inl same
  · exact .inl (lift _ (hostRead_onlyBus _ _))
  · exact write _ _ _

/-- The step is the turn of the agent named next. -/
theorem step_cases (s : State) :
    (∃ k ts, step s = engineTurn k { s with sched := ts }) ∨
    (∃ ts, step s = .next (hostTurn { s with sched := ts })) ∨
    (∃ level ts, step s = .next (setRstN level { s with sched := ts })) := by
  obtain ⟨freq, tree, ct, enc, dec, err, ctrl, cmdq, outq, executing, rstN, params, host, sched, grant⟩ := s
  cases sched with
  | nil => exact .inl ⟨none, [], rfl⟩
  | cons t ts =>
    cases t with
    | host => exact .inr (.inl ⟨ts, rfl⟩)
    | engine k => exact .inl ⟨k, ts, rfl⟩
    | rstN level => exact .inr (.inr ⟨level, ts, rfl⟩)

end Sys2Proof.Machine
end

