-- ==== Sys2Proof/Laws/PerInstr.lean ====
section
/-! SUPPORT. A law of every command as syntax, constructor by constructor: the fields of its header word and the number
of its extension words (30_encoding.md R86, R87, R89). -/

namespace Sys2Proof.Laws.HeaderShape

/-- R86, R89: the header's OPC field is the row's opcode, and a well-formed command has the extension words its header
asks for. -/
def Statement (i : Instr) : Prop := opcOf i.header = i.op.code ∧ (WellFormed i → i.ext.length = extCount i.header)

theorem nop : Statement .nop := ⟨by simp [Instr.header, Instr.op], fun _ => by decide⟩
theorem freqClear : Statement .freqClear := ⟨by simp [Instr.header, Instr.op], fun _ => by decide⟩
theorem freqAcc (sym : Byte) : Statement (.freqAcc sym) :=
  ⟨by simp [Instr.header, Instr.op], fun _ => by simp [Instr.ext, extCount, Instr.header, Op.code]⟩
theorem build : Statement .build := ⟨by simp [Instr.header, Instr.op], fun _ => by decide⟩
theorem genCodes : Statement .genCodes := ⟨by simp [Instr.header, Instr.op], fun _ => by decide⟩
theorem encInit : Statement .encInit := ⟨by simp [Instr.header, Instr.op], fun _ => by decide⟩
theorem encByte (sym : Byte) : Statement (.encByte sym) :=
  ⟨by simp [Instr.header, Instr.op], fun _ => by simp [Instr.ext, extCount, Instr.header, Op.code]⟩
theorem encFlush : Statement .encFlush := ⟨by simp [Instr.header, Instr.op], fun _ => by decide⟩
theorem ctClear : Statement .ctClear := ⟨by simp [Instr.header, Instr.op], fun _ => by decide⟩
theorem ctLoad (sym len : Byte) (data : List Word) : Statement (.ctLoad sym len data) :=
  ⟨by simp [Instr.header, Instr.op], fun h => by
    have : data.length = codeWords len := by simpa [WellFormed, Instr.wellFormed] using h
    simp [Instr.ext, extCount, Instr.header, Op.code, this]⟩
theorem decStart (count : Word) : Statement (.decStart count) :=
  ⟨by simp [Instr.header, Instr.op], fun _ => by simp [Instr.ext, extCount, Instr.header, Op.code]⟩
theorem decFeed (sym : Byte) : Statement (.decFeed sym) :=
  ⟨by simp [Instr.header, Instr.op], fun _ => by simp [Instr.ext, extCount, Instr.header, Op.code]⟩
theorem decEnd : Statement .decEnd := ⟨by simp [Instr.header, Instr.op], fun _ => by decide⟩

end Sys2Proof.Laws.HeaderShape
end

