-- ==== Sys2Proof/Machine/HostProgram.lean ====
section
/-! DEFINITION. The host's own programs over the bus: the actions of 30_encoding.md R95, and running a stream of
commands by the procedures of 70_reset_and_hazards.md R236, R237 and R239, with the outcome of 80_host_interface.md R262
and R268 (log 16). They drive the machine through `busRead`, `busWrite` and `step` alone; no rule of the machine depends
on this file. -/

namespace Sys2Proof.Machine

/-! ## Registers the host uses (R53) -/

/-- R53: STATUS. -/
def statusAddr : Addr := 0x00C

/-- R53: ERR. -/
def errAddr : Addr := 0x010

/-- R53: ERR_INFO. -/
def errInfoAddr : Addr := 0x014

/-- R53: TOTAL. -/
def totalAddr : Addr := 0x018

/-- R53: OUT_DATA. -/
def outDataAddr : Addr := 0x044

/-- R53, R72: CODE_LEN[sym]. -/
def codeLenAddr (sym : Byte) : Addr := 0x800 + 4 * sym.setWidth 14

/-- R53, R73: CODE_BITS[sym][w]. -/
def codeBitsAddr (sym : Byte) (w : Nat) : Addr := 0x1000 + 32 * sym.setWidth 14 + 4 * BitVec.ofNat 14 w

/-- R52: the value of a register whose read has no side effect. -/
def readValue (a : Addr) (s : State) : Word := (busRead a s).1

/-! ## Runs (R95, R268) -/

/-- How far a host's run has come, with the bytes it drained, in order (R268). -/
inductive Run where
  /-- What was asked of the host is done. -/
  | ended (s : State) (drained : List Byte)
  /-- The given number of bus accesses did not suffice: a hold that was not lifted (S6), or too few of them. -/
  | unfinished (s : State) (drained : List Byte)
  /-- The machine has no next state from `s`. -/
  | stopped (s : State) (drained : List Byte)
deriving DecidableEq, Repr

/-- One run after another. -/
def Run.andThen (r : Run) (next : State → List Byte → Run) : Run :=
  match r with
  | .ended s out => next s out
  | .unfinished s out => .unfinished s out
  | .stopped s out => .stopped s out

/-- The machine steps once while the host waits. -/
def stepThen (s : State) (out : List Byte) (next : State → Run) : Run :=
  match step s with
  | .next t => next t
  | .fault _ => .stopped s out
  | .refused _ => .stopped s out

/-- R70, R95: one read of OUT_DATA; a valid byte joins the host's output list. -/
def popByte (s : State) (out : List Byte) : State × List Byte :=
  let r := busRead outDataAddr s
  if r.1.getLsbD 8 then (r.2, out ++ [r.1.setWidth 8]) else (r.2, out)

/-- R95 `DRAIN`: read OUT_DATA until it returns VALID = 0. -/
def drainOut : Nat → State → List Byte → Run
  | 0, s, out => .unfinished s out
  | n + 1, s, out =>
    let r := busRead outDataAddr s
    if r.1.getLsbD 8 then drainOut n r.2 (out ++ [r.1.setWidth 8]) else .ended r.2 out

/-- R95 `WAIT_IDLE`: read STATUS until BUSY = 0, reading OUT_DATA whenever OUT_NONEMPTY = 1, so that the wait ends with
OUTQ empty (DEDUCED, log 16, from R236, R237 and 95_test_vectors.md L3: it drains OUT_DATA). DESIGN CHOICE, safe
(log 16), R95 gives no pace: one read of OUT_DATA for each STATUS that shows OUT_NONEMPTY = 1, and the machine steps once
between two reads of STATUS while BUSY = 1. -/
def waitIdle : Nat → State → List Byte → Run
  | 0, s, out => .unfinished s out
  | n + 1, s, out =>
    let r := busRead statusAddr s
    let p := if r.1.getLsbD 5 then popByte r.2 out else (r.2, out)
    if r.1.getLsbD 0 then stepThen p.1 p.2 fun t => waitIdle n t p.2
    else if r.1.getLsbD 5 then waitIdle n p.1 p.2
    else .ended p.1 p.2

/-- R69, R95 `WRITE CMD, v`: the write completes at once or waits while the machine steps. -/
def writeWord : Nat → Word → State → List Byte → Run
  | 0, _, s, out => .unfinished s out
  | n + 1, v, s, out =>
    match busWrite cmdAddr v s with
    | some t => .ended t out
    | none => stepThen s out fun t => writeWord n v t out

/-- The words of a command written in order. -/
def writeWords (fuel : Nat) : List Word → State → List Byte → Run
  | [], s, out => .ended s out
  | w :: ws, s, out => (writeWord fuel w s out).andThen fun t out' => writeWords fuel ws t out'

/-- R236, R237, R239: the commands of a stream written one after another, the host waiting for BUSY = 0 and draining
after each, so that no deadlock arises, and draining OUTQ to the end after the last (R268). -/
def runStream (fuel : Nat) : List Instr → State → List Byte → Run
  | [], s, out => drainOut fuel s out
  | i :: is, s, out =>
    ((writeWords fuel (encode i) s out).andThen fun t out' => waitIdle fuel t out').andThen fun t out' =>
      runStream fuel is t out'

/-! ## What the host reports (R262) -/

/-- R262: what failed, by the command that did. -/
inductive Artifact where
  | codebookLoad
  | payloadDecode
  | encode
deriving DecidableEq, Repr

/-- R90, R262: the unit of the failing command, ERR.OPC's high nibble. -/
def failedArtifact (opc : Byte) : Artifact :=
  if opc.extractLsb' 4 4 = 5 then .codebookLoad
  else if opc.extractLsb' 4 4 = 6 then .payloadDecode
  else .encode

/-- R262, R264, R268: the outcome of a run as the host reports it, with the machine's state at its end. -/
inductive Report (α : Type) where
  /-- STATUS.ERROR = 0: the full set is published. -/
  | published (files : α) (s : State)
  /-- STATUS.ERROR = 1: nothing is published; ERR and ERR_INFO name the error. -/
  | failed (artifact : Artifact) (err info : Word) (s : State)
  /-- R264: the codebook text is malformed, `CorruptCodebookError` of the host; the HCE was not commanded. -/
  | malformedCodebook (s : State)
  /-- The run has no outcome (R268): see `Run.unfinished`. -/
  | unfinished (s : State)
  /-- See `Run.stopped`. -/
  | stopped (s : State)
deriving DecidableEq, Repr

/-- Other files from the same run. -/
def Report.map {α β : Type} (f : α → β) : Report α → Report β
  | .published files s => .published (f files) s
  | .failed artifact err info s => .failed artifact err info s
  | .malformedCodebook s => .malformedCodebook s
  | .unfinished s => .unfinished s
  | .stopped s => .stopped s

/-- R58, R262: after the run the host reads STATUS; with ERROR = 0 it publishes, with ERROR = 1 it discards the bytes
drained and reports the error, the failing artifact from ERR.OPC (bits [15:8] of ERR). -/
def Run.report {α : Type} (r : Run) (files : State → List Byte → α) : Report α :=
  match r with
  | .ended s out =>
    if (readValue statusAddr s).getLsbD 1 then
      .failed (failedArtifact ((readValue errAddr s).extractLsb' 8 8)) (readValue errAddr s) (readValue errInfoAddr s) s
    else .published (files s out) s
  | .unfinished s _ => .unfinished s
  | .stopped s _ => .stopped s

/-- R263: the code of a symbol as the host reads it. -/
def readCode (s : State) (sym : Byte) : Bits :=
  loadWords ((List.range 8).map fun w => readValue (codeBitsAddr sym w) s) (readValue (codeLenAddr sym) s).toNat

/-- R236, R263: the records of the codebook, in ascending order of the symbols with CODE_LEN > 0. -/
def readBook (s : State) : List (Byte × Bits) :=
  (allSymbols.filter fun sym => readValue (codeLenAddr sym) s != 0).map fun sym => (sym, readCode s sym)

/-- R236, R262, R265: compress `xs`: the payload, which is what the host drains after ENC_INIT, the count TOTAL and the
records of the codebook. Bytes drained up to ENC_INIT are not of this payload. -/
def compressRun (fuel : Nat) (xs : List Byte) (s : State) : Report (List Byte × Word × List (Byte × Bits)) :=
  ((runStream fuel (tablePass xs) s []).andThen fun t _ => runStream fuel (payloadPass xs) t []).report
    fun t out => (out, readValue totalAddr t, readBook t)

/-- R237, R262: decompress a payload with the codebook of `count` symbols and the given records: the bytes drained
from DEC_START on (log 16). -/
def decompressRun (fuel : Nat) (count : Word) (book : List (Byte × Bits)) (payload : List Byte) (s : State) :
    Report (List Byte) :=
  ((runStream fuel (loadBook book) s []).andThen fun t _ => runStream fuel (decompress count payload) t []).report
    fun _ out => out

end Sys2Proof.Machine
end

