-- ==== Sys2Proof/Machine/CodebookText.lean ====
section
/-! DEFINITION. The host's artifacts (80_host_interface.md R262 to R265): the text of a codebook, its parser, and a
compression or decompression from and to artifacts. All of it is host software; no rule of the machine depends on this
file. -/

namespace Sys2Proof.Machine

/-! ## The codebook text (R263) -/

/-- R263: the characters of a code. -/
def bitText (c : Bits) : List Char := c.map fun b => if b then '1' else '0'

/-- R263: one record line. -/
def recordText (r : Byte × Bits) : List Char := Nat.toDigits 10 r.1.toNat ++ ' ' :: bitText r.2 ++ ['\n']

/-- R263: the count line and the record lines, in the order of the list (ascending symbols, `compressRun`). -/
def codebookText (count : Word) (book : List (Byte × Bits)) : List Char :=
  Nat.toDigits 10 count.toNat ++ '\n' :: book.flatMap recordText

/-! ## Parsing (R264) -/

/-- The lines of a text, each without its newline; none where the last line has no newline. -/
def textLines : List Char → Option (List (List Char))
  | [] => some []
  | c :: cs =>
    match textLines cs with
    | none => none
    | some ls =>
      if c = '\n' then some ([] :: ls)
      else
        match ls with
        | [] => none
        | l :: rest => some ((c :: l) :: rest)

/-- R263: `decimal`, no sign and no leading zeros. -/
def decimalValue : List Char → Option Nat
  | [] => none
  | ['0'] => some 0
  | '0' :: _ :: _ => none
  | c :: cs => digitsValue 10 0 (c :: cs)

/-- R263: the count line, 0 to 4294967295. -/
def countLine (l : List Char) : Option Word :=
  match decimalValue l with
  | some n => if n < 2 ^ 32 then some (BitVec.ofNat 32 n) else none
  | none => none

/-- R263, R264: a record line: a byte value, one space, 0 to 255 characters `0` and `1`. An empty code is left to the
HCE's check (R157). -/
def recordLine (l : List Char) : Option (Byte × Bits) :=
  match l.dropWhile (· != ' ') with
  | [] => none
  | _ :: code =>
    match decimalValue (l.takeWhile (· != ' ')), bitChars code with
    | some n, some c => if n < 256 ∧ c.length ≤ Config.lMax then some (BitVec.ofNat 8 n, c) else none
    | _, _ => none

/-- R264: the count and the records of a codebook, none for a malformed text. -/
def parseCodebook (text : List Char) : Option (Word × List (Byte × Bits)) :=
  match textLines text with
  | some (first :: records) =>
    match countLine first, records.mapM recordLine with
    | some count, some book => some (count, book)
    | _, _ => none
  | _ => none

/-! ## Runs from artifact to artifact (R262, R265, R266) -/

/-- R236, R262, R263: the payload and the codebook text a compression publishes, or why it publishes none. -/
def compressArtifacts (fuel : Nat) (xs : List Byte) (s : State) : Report (List Byte × List Char) :=
  (compressRun fuel xs s).map fun r => (r.1, codebookText r.2.1 r.2.2)

/-- R237, R262, R264: the bytes a decompression publishes, or why it publishes none. -/
def decompressArtifacts (fuel : Nat) (payload : List Byte) (text : List Char) (s : State) : Report (List Byte) :=
  match parseCodebook text with
  | some (count, book) => decompressRun fuel count book payload s
  | none => .malformedCodebook s

end Sys2Proof.Machine
end

