-- ==== Sys2Proof/Tests/Slice0.lean ====
section
/-! SUPPORT. The model's own tests. Expected values are the spec's: the encodings of 30_encoding.md and the vectors of
95_test_vectors.md (named in each comment). The theorems `witness_...` show, for each statement of
Certificates/Slice0/Obligations.lean that has hypotheses, a state and operands that meet them together. -/

open Sys2Proof Sys2Proof.Machine

namespace Sys2Proof.Tests

-- one theorem after another: in parallel, each would take a stack of its own
set_option Elab.async false

/-! ## Small states -/

/-- Whether an answer is a next state with the property `p`. -/
def after (r : Result) (p : State → Bool) : Bool :=
  match r with
  | .next t => p t
  | .fault _ => false
  | .refused _ => false

theorem after_next {r : Result} {p : State → Bool} (h : after r p = true) : ∃ t, r = .next t ∧ p t = true := by
  cases r with
  | next t => exact ⟨t, rfl, h⟩
  | fault f => cases h
  | refused f => cases h

/-- The reset state with words in CMDQ. -/
def loaded (ws : List Word) : State := { State.reset with cmdq := ws }

/-- The frequencies a = 3, b = 1 of V2.1. -/
def abFreq : FreqTable := ((FreqTable.empty.add 0x61).add 0x61 |>.add 0x61).add 0x62

/-- The state after the FREQ_ACCs of V1.1. -/
def counted : State := { State.reset with freq := abFreq }

/-- The tree of V2.1. -/
def abTree : Tree where
  node := ((State.reset.tree.node.set 0 (.leaf 0x61 3)).set 1 (.leaf 0x62 1)).set 2 (.internal 4 1 0)
  root := 2
  nnodes := 3
  valid := true

/-- The state after BUILD of V2.1. -/
def built : State := { counted with tree := abTree }

/-- The code table of V3.3: a "1", b "0". -/
def abTable : CodeTable := (CodeTable.empty.put 0x61 [true]).put 0x62 [false]

/-- The reset state with the code table of V3.3. -/
def coded : State := { State.reset with ct := abTable }

/-- Decoding, with the code table of V3.3, so many symbols owed. -/
def decoding (count : Word) : State :=
  { coded with dec := { mode := .decoding, declared := count, remaining := count, plen := 0, pbits := 0 } }

/-- The state after an error. -/
def failed : State := { State.reset with err := { ErrRecord.clear with error := true, code := .emptyInput, opc := 0x20 } }

/-! ## Well-formedness -/

theorem test_ctLoad_without_its_word_is_ill_formed : ¬ WellFormed (.ctLoad 0x61 1 []) := by decide
theorem test_ctLoad_with_a_word_too_many_is_ill_formed : ¬ WellFormed (.ctLoad 0x61 0 [0]) := by decide
theorem test_ctLoad_of_33_bits_needs_two_words :
    WellFormed (.ctLoad 0x10 33 [0xFFFFFFFF, 0]) ∧ ¬ WellFormed (.ctLoad 0x10 33 [0xFFFFFFFF]) := by decide
theorem test_ctLoad_of_255_bits_needs_eight_words :
    WellFormed (.ctLoad 0x10 255 (List.replicate 8 0)) ∧ ¬ WellFormed (.ctLoad 0x10 255 (List.replicate 7 0)) := by
  decide

/-! ## Decoding, each word written out from R86 and R90: OPC, RSV, LEN, SYM -/

theorem test_decode_nop : decode [0b00000000_00000000_00000000_00000000] = .ok (.nop, []) := rfl
theorem test_decode_freqClear : decode [0b00010000_00000000_00000000_00000000] = .ok (.freqClear, []) := rfl
theorem test_decode_freqAcc : decode [0b00010001_00000000_00000000_01100001] = .ok (.freqAcc 0x61, []) := rfl
theorem test_decode_build : decode [0b00100000_00000000_00000000_00000000] = .ok (.build, []) := rfl
theorem test_decode_genCodes : decode [0b00110000_00000000_00000000_00000000] = .ok (.genCodes, []) := rfl
theorem test_decode_encInit : decode [0b01000000_00000000_00000000_00000000] = .ok (.encInit, []) := rfl
theorem test_decode_encByte : decode [0b01000001_00000000_00000000_11111111] = .ok (.encByte 0xFF, []) := rfl
theorem test_decode_encFlush : decode [0b01000010_00000000_00000000_00000000] = .ok (.encFlush, []) := rfl
theorem test_decode_ctClear : decode [0b01010000_00000000_00000000_00000000] = .ok (.ctClear, []) := rfl
theorem test_decode_ctLoad :
    decode [0b01010001_00000000_00000011_01100010, 0xC0000000, 7] = .ok (.ctLoad 0x62 3 [0xC0000000], [7]) := rfl
theorem test_decode_decStart : decode [0b01100000_00000000_00000000_00000000, 11] = .ok (.decStart 11, []) := rfl
theorem test_decode_decFeed : decode [0b01100001_00000000_00000000_11100000] = .ok (.decFeed 0xE0, []) := rfl
theorem test_decode_decEnd : decode [0b01100010_00000000_00000000_00000000] = .ok (.decEnd, []) := rfl
/-- V5.6: RSV is not zero. -/
theorem test_decode_reserved_field : decode [0x51010161, 0x80000000] = .error .reservedNonzero := rfl
/-- V7.4: the opcode is checked first. -/
theorem test_decode_unassigned : decode [0xFF123456] = .error .unassignedOpcode := rfl
/-- V7.13: the COUNT word is not there. -/
theorem test_decode_missing_word : decode [0x60000000] = .error .missingExtension := rfl
theorem test_decodeTableWord : decodeTableWord 32 0x51002110 = some (.ctLoad 0x10 33 [0, 0]) := by decide +kernel

/-! ## The assembly of P2 -/

theorem test_assemble_ctLoad : (assembleText "CT_LOAD 97, \"1\"  ; P2").map (·.flatMap encode) =
    some [0x51000161, 0x80000000] := by decide +kernel
theorem test_assemble_freqBytes : (assembleText "FREQ_BYTES 'a', 0x61").map (·.flatMap encode) =
    some [0x11000061, 0x11000061] := by decide +kernel
theorem test_assemble_refuses_empty_code : assembleText "CT_LOAD 97, \"\"" = none := by decide +kernel

/-! ## One step per command -/

/-- V7.1. -/
theorem test_nop : after (step (loaded [0])) (fun t => t.status == 0 && t.cmdq == []) := by decide +kernel
/-- V1.2. -/
theorem test_freqClear : after (exec .freqClear counted)
    (fun t => entry t.freq.count 0x61 == 0 && t.freq.total == 0) := by decide +kernel
/-- V1.1. -/
theorem test_freqAcc : after (step { loaded [0x11000061] with freq := abFreq })
    (fun t => entry t.freq.count 0x61 == 4 && entry t.freq.count 0x62 == 1 && t.freq.total == 5) := by decide +kernel
/-- V1.4. -/
theorem test_freqAcc_overflow :
    after (step { loaded [0x11000062] with freq := { abFreq with total := 0xFFFFFFFF } })
      (fun t => t.err.word == 0x00621106 && t.err.info == 0 && t.freq.total == 0xFFFFFFFF) := by decide +kernel
/-- V2.1. -/
theorem test_build : after (exec .build counted) (fun t =>
    t.tree.root == 2 && t.tree.nnodes == 3 && t.tree.node[0] == .leaf 0x61 3 && t.tree.node[1] == .leaf 0x62 1 &&
      t.tree.node[2] == .internal 4 1 0) := by decide +kernel
/-- V3.1. -/
theorem test_build_empty : after (step (loaded [0x20000000]))
    (fun t => t.err.word == 0x00002001 && t.err.info == 0 && t.status == 2) := by decide +kernel
/-- V3.3. -/
theorem test_genCodes : after (exec .genCodes built)
    (fun t => t.ct.code 0x61 == [true] && t.ct.code 0x62 == [false] && !t.tree.valid) := by
  decide +kernel
/-- V3.2. -/
theorem test_genCodes_no_tree : after (step (loaded [0x30000000]))
    (fun t => t.err.word == 0x00003045 && t.err.info == 0x30000000) := by decide +kernel
/-- V4.9. -/
theorem test_encInit : after (exec .encInit { coded with enc := { acc := 0xE0, accLen := 3, bits := 3 } })
    (fun t => t.enc.accWord == 0 && t.enc.bits == 0 && t.outq == []) := by decide +kernel
/-- V4.1: the third ENC_BYTE. -/
theorem test_encByte : after (exec (.encByte 0x61) { coded with enc := { acc := 0xC0, accLen := 2, bits := 2 } })
    (fun t => t.enc.accWord == 0xE003 && t.enc.bits == 3 && t.outq == []) := by decide +kernel
/-- V4.8. -/
theorem test_encByte_no_code : after (step (loaded [0x41000061]))
    (fun t => t.err.word == 0x00614104 && t.outq == [] && t.enc.bits == 0) := by decide +kernel
/-- V4.2. -/
theorem test_encFlush : after (exec .encFlush { coded with enc := { acc := 0xE0, accLen := 4, bits := 4 } })
    (fun t => t.outq == [0xE0] && t.enc.accWord == 0 && t.enc.bits == 4) := by decide +kernel
/-- V4.7. -/
theorem test_encFlush_nothing : after (exec .encFlush State.reset) (fun t => t.outq == []) := by decide +kernel
/-- V5.9. -/
theorem test_ctClear : after (exec .ctClear coded) (fun t =>
    entry t.ct.len 0x61 == 0 && entry t.ct.bits 0x61 == 0 && entry t.ct.len 0x62 == 0) := by decide +kernel
/-- V5.7. -/
theorem test_ctLoad : after (step (loaded [0x51002110, 0xFFFFFFFF, 0])) (fun t =>
    entry t.ct.len 0x10 == 33 && storageWord (entry t.ct.bits 0x10) 0 == 0xFFFFFFFF &&
      storageWord (entry t.ct.bits 0x10) 1 == 0) := by decide +kernel
/-- V5.4: the code "1" is taken by 0x61. -/
theorem test_ctLoad_duplicate_code : after (step { coded with cmdq := [0x51000163, 0x80000000] })
    (fun t => t.err.word == 0x00635132 && t.err.info == 0x61) := by decide +kernel
/-- V6.17. -/
theorem test_decStart : after (step (loaded [0x60000000, 0x610000E0])) (fun t =>
    t.dec.declared == 0x610000E0 && t.dec.remaining == 0x610000E0 && t.status == 8) := by decide +kernel
/-- V7.13. -/
theorem test_decStart_waits : after (step (loaded [0x60000000])) (fun t => t.status == 0x11) := by decide +kernel
/-- V6.1. -/
theorem test_decFeed : after (exec (.decFeed 0xE0) (decoding 4))
    (fun t => t.outq == [0x61, 0x61, 0x61, 0x62] && t.dec.remaining == 0 && t.dec.plen == 0) := by decide +kernel
/-- V6.10. -/
theorem test_decFeed_dead : after (exec (.decFeed 0) { decoding 1 with ct := CodeTable.empty })
    (fun t => t.err.word == 0x07006142 && t.err.info == 0 && t.dec.plen == 1 && t.status == 0xA) := by decide +kernel
/-- V6.9. -/
theorem test_decEnd : after (exec .decEnd (decoding 0)) (fun t => t.status == 0) := by decide +kernel
/-- V6.4: three symbols owed. -/
theorem test_decEnd_truncated : after (exec .decEnd (decoding 3))
    (fun t => t.err.word == 0x00006203 && t.err.info == 3 && t.status == 0xA) := by decide +kernel

/-! ## The front end and the bus -/

theorem test_withFetchWord : after (step (State.reset.withFetchWord 32 0x51000161)) (fun t =>
    t.ct.code 0x61 == [false] && t.cmdq == []) := by decide +kernel
/-- V7.15, V7.8. -/
theorem test_registers : busRead 0x004 State.reset = (0x401020FF, State.reset) ∧
    (busWrite 0x008 6 State.reset).map (fun t => (t.ctrl.word, t.status)) = some (6, 0x40) :=
  ⟨by rfl, by decide +kernel⟩
/-- V7.12. -/
theorem test_outData : (busRead 0x044 { State.reset with outq := [0x61, 0x62] }).1 = 0x161 := by decide +kernel
/-- The files of a run that publishes. -/
def published {α : Type} : Report α → Option α
  | .published files _ => some files
  | .failed _ _ _ _ => none
  | .malformedCodebook _ => none
  | .unfinished _ => none
  | .stopped _ => none

/-- What a failed run reports. -/
def reported {α : Type} : Report α → Option (Artifact × Word × Word)
  | .published _ _ => none
  | .failed artifact err info _ => some (artifact, err, info)
  | .malformedCodebook _ => none
  | .unfinished _ => none
  | .stopped _ => none

/-- P1, with its codebook text; a byte left in OUTQ before ENC_INIT is not of the payload (R265). -/
theorem test_compress : published (compressArtifacts 40 [0x61, 0x61, 0x61, 0x62] { State.reset with outq := [0x55] }) =
    some ([0xE0], "4\n97 1\n98 0\n".toList) := by decide +kernel
/-- R95: WAIT_IDLE ends with OUTQ empty, so STATUS = 0 as at the end of P2. -/
theorem test_waitIdle_drains : (match waitIdle 5 { State.reset with outq := [0x61, 0x62, 0x63] } [] with
    | .ended t out => t.status == 0 && out == [0x61, 0x62, 0x63]
    | .unfinished _ _ => false
    | .stopped _ _ => false) = true := by decide +kernel
/-- V5.3, on the host program (R262). -/
theorem test_failed_load :
    reported (decompressRun 20 1 [(0x41, [false]), (0x41, [true])] [0] State.reset) =
      some (.codebookLoad, 0x00415122, 0x41) := by decide +kernel
/-- R264: an empty code is left to the HCE; a missing newline and a leading zero are malformed. -/
theorem test_codebook_text : parseCodebook "11\n97 0\n98 \n".toList = some (11, [(97, [false]), (98, [])]) ∧
    parseCodebook "4\n97 1".toList = none ∧ parseCodebook "04\n97 1\n".toList = none := by decide +kernel

/-! ## Facts about the small states -/

theorem abTable_len (x : Byte) : entry abTable.len x = if x = 0x62 then 1 else if x = 0x61 then 1 else 0 := by
  simp [abTable, put_len]

theorem abTable_code_a : abTable.code 0x61 = [true] := by decide +kernel
theorem abTable_code_b : abTable.code 0x62 = [false] := by decide +kernel

theorem abTable_symbols {x : Byte} (h : entry abTable.len x ≠ 0) : x = 0x61 ∨ x = 0x62 := by
  rw [abTable_len] at h
  by_cases hb : x = 0x62
  · exact .inr hb
  · by_cases ha : x = 0x61
    · exact .inl ha
    · rw [if_neg hb, if_neg ha] at h; exact absurd rfl h

theorem abTable_prefixFree : PrefixFree abTable := by
  intro x y hne hx hy
  rcases abTable_symbols hx with rfl | rfl <;> rcases abTable_symbols hy with rfl | rfl
  · exact absurd rfl hne
  · rw [abTable_code_a, abTable_code_b]; decide
  · rw [abTable_code_a, abTable_code_b]; decide
  · exact absurd rfl hne

theorem abTable_distinct : CodesDistinct abTable := fun x y hne hx hy he =>
  abTable_prefixFree x y hne hx hy (he ▸ List.prefix_refl _)

theorem abTable_canonical : CodesCanonical abTable := by
  intro x k hk
  rw [abTable, put_len] at hk
  rw [abTable, put_bits]
  by_cases hb : x = 0x62
  · rw [if_pos hb] at hk ⊢
    rw [getMsbD_store _ _ _ (by decide)]
    exact List.getD_eq_default _ _ hk
  · rw [if_neg hb] at hk ⊢
    rw [put_len] at hk
    rw [put_bits]
    by_cases ha : x = 0x61
    · rw [if_pos ha] at hk ⊢
      rw [getMsbD_store _ _ _ (by decide)]
      exact List.getD_eq_default _ _ hk
    · rw [if_neg ha]
      simp

theorem abFreq_sum : FreqSumsToTotal abFreq := by
  rw [FreqSumsToTotal]
  decide +kernel

theorem built_codes : treeCodes built.tree = some [(0x62, [false]), (0x61, [true])] := by decide +kernel

theorem no_exec_waits {s : State} (h : s.executing = none) : ExecWaits s := fun e he => by rw [h] at he; cases he

/-! ## Witnesses: encoding and the engine -/

theorem witness_DecodeEncodeRoundTrip : WellFormed (.ctLoad 0x10 255 (List.replicate 8 0xFFFFFFFF)) := by decide
theorem witness_DecodedWordsAreEncoded :
    decode [0x5100FF10, 1, 2, 3, 4, 5, 6, 7, 8, 9] = .ok (.ctLoad 0x10 255 [1, 2, 3, 4, 5, 6, 7, 8], [9]) := rfl
theorem witness_HeaderFieldsClassified :
    opcOf 0x11000161 = Op.freqAcc.code ∧ ¬ lenOf 0x11000161 = 0 ∧ opcOf 0x5100FFFF = Op.ctLoad.code := by decide

theorem witness_ReservedOpcodesRaise_unassigned :
    let s := loaded [0x43000000]
    s.sched = [] ∧ s.rstN = true ∧ s.executing = none ∧ s.err.error = false ∧ s.cmdq = 0x43000000 :: [] ∧
      opcOf 0x43000000 ∉ [0x00, 0x10, 0x11, 0x20, 0x30, 0x40, 0x41, 0x42, 0x50, 0x51, 0x60, 0x61, 0x62] :=
  ⟨rfl, rfl, rfl, rfl, rfl, by decide⟩
theorem witness_ReservedOpcodesRaise_nop :
    let s := loaded [1]
    s.sched = [] ∧ s.rstN = true ∧ s.executing = none ∧ s.err.error = false ∧ s.cmdq = 1 :: [] ∧
      opcOf 1 = 0x00 ∧ (1 : Word) ≠ 0 := ⟨rfl, rfl, rfl, rfl, rfl, by decide, by decide⟩
/-- V5.6, its data word after it; a DEC_FEED with LEN set; an ENC_INIT with SYM set. -/
theorem witness_ReservedOpcodesRaise_reserved :
    let s := loaded [0x51010161, 0x80000000]
    s.sched = [] ∧ s.rstN = true ∧ s.executing = none ∧ s.err.error = false ∧ s.cmdq = 0x51010161 :: [0x80000000] ∧
      (opcOf 0x51010161 = Op.ctLoad.code ∧ (0x51010161 : Word).extractLsb' 16 8 ≠ 0) ∧
      (opcOf 0x610001E0 = Op.decFeed.code ∧ Op.decFeed ≠ .ctLoad ∧ lenOf 0x610001E0 ≠ 0) ∧
      (opcOf 0x40000001 = Op.encInit.code ∧ Op.encInit ≠ .ctLoad ∧ Op.encInit ≠ .freqAcc ∧ Op.encInit ≠ .encByte ∧
        Op.encInit ≠ .decFeed ∧ symOf 0x40000001 ≠ 0) :=
  ⟨rfl, rfl, rfl, rfl, rfl, by decide, by decide, by decide⟩

theorem witness_StepRunsDecoded :
    let s := loaded (encode (.ctLoad 0x61 1 [0x80000000]) ++ [0])
    s.sched = [] ∧ s.rstN = true ∧ s.executing = none ∧ s.err.error = false ∧
      WellFormed (.ctLoad 0x61 1 [0x80000000]) ∧ accepted .ctLoad s.dec.mode = true ∧
      s.cmdq = encode (.ctLoad 0x61 1 [0x80000000]) ++ [0] := ⟨rfl, rfl, rfl, rfl, rfl, rfl, rfl⟩

theorem witness_ModeRefusal :
    ((decoding 1).dec.mode = .decoding ∧ Op.build ≠ .nop ∧ Op.build ≠ .decFeed ∧ Op.build ≠ .decEnd) ∧
    (State.reset.dec.mode = .idle ∧ (Instr.decFeed 0).op = .decFeed) ∧
    ¬ (((decoding 1).dec.mode = .decoding ∧ Op.nop ≠ .nop ∧ Op.nop ≠ .decFeed ∧ Op.nop ≠ .decEnd) ∨
      ((decoding 1).dec.mode = .idle ∧ (Op.nop = .decFeed ∨ Op.nop = .decEnd))) := by decide
theorem witness_ModeRefusal_step :
    let s := { decoding 1 with cmdq := encode (.decStart 2) ++ [0] }
    (s.dec.mode = .decoding ∧ Op.decStart ≠ .nop ∧ Op.decStart ≠ .decFeed ∧ Op.decStart ≠ .decEnd) ∧
      s.sched = [] ∧ s.rstN = true ∧ s.executing = none ∧ s.err.error = false ∧ s.cmdq = encode (.decStart 2) ++ [0] :=
  ⟨by decide, rfl, rfl, rfl, rfl, rfl⟩

theorem witness_WaitsForExtensionWords :
    let s := loaded [0x51002110, 0xFFFFFFFF]
    s.sched = [] ∧ s.rstN = true ∧ s.executing = none ∧ s.err.error = false ∧ classify 0x51002110 = .ok .ctLoad ∧
      accepted .ctLoad s.dec.mode = true ∧ [(0xFFFFFFFF : Word)].length < extCount 0x51002110 ∧
      s.cmdq = 0x51002110 :: [0xFFFFFFFF] := ⟨rfl, rfl, rfl, rfl, rfl, rfl, by decide, rfl⟩
theorem witness_WaitsForExtensionWords_resumed :
    let i : Instr := .ctLoad 0x10 33 [0xFFFFFFFF, 0]
    let s := { State.reset with
      cmdq := i.ext.drop 1 ++ [0], executing := some { header := i.header, taken := i.ext.take 1, pushed := 0 } }
    s.sched = [] ∧ s.rstN = true ∧ WellFormed i ∧ 1 < i.ext.length ∧
      s.executing = some { header := i.header, taken := i.ext.take 1, pushed := 0 } ∧ s.cmdq = i.ext.drop 1 ++ [0] :=
  ⟨rfl, rfl, rfl, by decide, rfl, rfl⟩

theorem witness_ErrorStateLasts :
    let s := { failed with cmdq := [0x11000061] }
    s.err.error = true ∧ s.executing = none ∧ s.sched = [] ∧ s.rstN = true ∧ s.cmdq = 0x11000061 :: [] ∧
      ∃ t, step s = .next t := ⟨rfl, rfl, rfl, rfl, rfl, _, rfl⟩

/-- ENC_BYTE with seven bits pending pushes a byte. -/
def pushing : State :=
  { coded with
    enc := { acc := 0, accLen := 7, bits := 7 }
    executing := some { header := 0x41000061, taken := [], pushed := 0 } }

theorem pushing_waits : ExecWaits pushing := by
  intro e he
  obtain rfl := Option.some.inj he
  exact ⟨rfl, ⟨.encByte, rfl, rfl⟩, .inr ⟨.encByte 0x61, rfl, by decide +kernel⟩⟩

theorem witness_HoldsOnlyForWordOrSlot :
    ExecWaits pushing ∧ ∃ t, step pushing = .next t :=
  ⟨pushing_waits, (after_next (p := fun _ => true) (by decide +kernel)).imp fun _ h => h.1⟩

theorem witness_DeadlockStays :
    let s := { pushing with
      params := { cmdDepth := 1, outDepth := 1 }
      outq := [0x55]
      cmdq := [0]
      host := { State.reset.host with stalled := some 0 } }
    HoldsOnPush s ∧ HostStalled s ∧ s.rstN = true :=
  ⟨⟨_, .encByte 0x61, rfl, rfl, rfl, rfl, by decide +kernel, by decide⟩, ⟨rfl, rfl, rfl⟩, rfl⟩

theorem built_walkable : TreeWalkable built.tree := fun _ => by rw [built_codes]; rfl
theorem witness_EveryStepGoesOn : TreeWalkable built.tree ∧ built.tree.valid = true := ⟨built_walkable, rfl⟩

/-! ## Witnesses: counts, tree, code table -/

theorem witness_FreqAccCounts :
    counted.dec.mode = .idle ∧ counted.freq.total ≠ 0xFFFFFFFF ∧
      { counted with freq := { abFreq with total := 0xFFFFFFFF } }.freq.total = 0xFFFFFFFF := by decide +kernel
theorem witness_FreqClearZeroes : counted.dec.mode = .idle ∧ (decoding 1).dec.mode = .decoding := ⟨rfl, rfl⟩
theorem witness_CountsAreOccurrences :
    State.reset.dec.mode = .idle ∧ State.reset.err.error = false ∧ [(0x61 : Byte), 0x61, 0x62].length < 2 ^ 32 := by
  decide
theorem witness_StepKeepsFreqSum : FreqSumsToTotal { counted with cmdq := [0x11000061] }.freq ∧
    ∃ t, step { counted with cmdq := [0x11000061] } = .next t :=
  ⟨abFreq_sum, (after_next (p := fun _ => true) (by decide +kernel)).imp fun _ h => h.1⟩
theorem witness_BuildWritesTree : counted.dec.mode = .idle ∧ entry counted.freq.count 0x62 ≠ 0 := by decide +kernel
theorem witness_BuildRefusesEmpty :
    State.reset.dec.mode = .idle ∧ (∀ sym, entry State.reset.freq.count sym = 0) ∧ FreqSumsToTotal counted.freq :=
  ⟨rfl, fun _ => by simp [State.reset], abFreq_sum⟩
/-- A tie in frequency: the handle decides (V2.5). -/
theorem witness_SmallestKeyRemoved :
    let heap : List HeapEntry := [⟨1, 1⟩, ⟨1, 0⟩]
    heap ≠ [] ∧ (heap.map HeapEntry.handle).Nodup ∧ popMin heap = some (⟨1, 0⟩, [⟨1, 1⟩]) := by decide
theorem witness_TreeLayout : 1 ≤ (presentSymbols abFreq).length ∧ (presentSymbols abFreq).length = 2 := by
  decide +kernel
/-- R110 by hand on FREQ 1, 2, 3, 100: node 4 = (0, 1), then the keys (3, 2) and (3, 4) are the smallest, node 5 =
(2, 4), while handle 3 is no child yet. -/
theorem witness_TreeLayout_greedy :
    let count := setEntry (setEntry (setEntry (setEntry FreqTable.empty.count 0 1) 1 2) 2 3) 3 100
    let t := buildTree { count := count, total := 106 } State.reset.tree.node
    t.nnodes = 7 ∧ t.node[4]? = some (.internal 3 0 1) ∧ t.node[5]? = some (.internal 6 2 4) ∧
      t.node[6]? = some (.internal 106 5 3) := by decide +kernel
theorem witness_BuildIgnoresOldArena : presentSymbols abFreq ≠ [] := by decide +kernel
theorem witness_StepKeepsTree : TreeWalkable { built with cmdq := [0x30000000] }.tree ∧
    ∃ t, step { built with cmdq := [0x30000000] } = .next t :=
  ⟨built_walkable, (after_next (p := fun _ => true) (by decide +kernel)).imp fun _ h => h.1⟩
theorem witness_GenCodesWritesTable :
    built.dec.mode = .idle ∧ built.tree.valid = true ∧
      treeCodes built.tree = some [(0x62, [false]), (0x61, [true])] ∧ counted.tree.valid = false :=
  ⟨rfl, rfl, built_codes, rfl⟩
theorem witness_CodesArePaths :
    built.dec.mode = .idle ∧ built.tree.valid = true ∧
      (∃ f l r, built.tree.node[built.tree.root.toNat]? = some (.internal f l r)) ∧
      (∃ t, exec .genCodes built = .next t) ∧ follow built.tree.node built.tree.root [true] = some (.leaf 0x61 3) :=
  ⟨rfl, rfl, ⟨4, 1, 0, by decide +kernel⟩,
    (after_next (p := fun _ => true) (by decide +kernel)).imp fun _ h => h.1, by decide +kernel⟩
theorem witness_SingleSymbolCode :
    let s := { State.reset with freq := FreqTable.empty.add 0x7A }
    s.dec.mode = .idle ∧ entry s.freq.count 0x7A ≠ 0 ∧ ∀ r, r ≠ 0x7A → entry s.freq.count r = 0 :=
  ⟨rfl, by decide +kernel, fun r h => by
    rw [show entry (FreqTable.empty.add 0x7A).count r = _ from entry_setEntry_other _ _ h]
    exact FreqTable.empty_count r⟩
theorem witness_GeneratedTableIsPrefixFree : counted.dec.mode = .idle ∧ entry counted.freq.count 0x61 ≠ 0 := by
  decide +kernel
theorem witness_FrequentCodesNotLonger :
    counted.dec.mode = .idle ∧ FreqSumsToTotal counted.freq ∧
      (∃ t u, exec .build counted = .next t ∧ exec .genCodes t = .next u) ∧
      entry counted.freq.count 0x62 ≠ 0 ∧ entry counted.freq.count 0x62 < entry counted.freq.count 0x61 := by
  refine ⟨rfl, abFreq_sum, ?_, by decide +kernel, by decide +kernel⟩
  obtain ⟨t, ht, hp⟩ := after_next (r := exec .build counted)
    (p := fun t => after (exec .genCodes t) fun _ => true) (by decide +kernel)
  obtain ⟨u, hu, _⟩ := after_next hp
  exact ⟨t, u, ht, hu⟩

/-! ## Witnesses: encoder and load path -/

theorem witness_EncInitClears : coded.dec.mode = .idle ∧ (decoding 1).dec.mode = .decoding := ⟨rfl, rfl⟩
/-- The EXEC the engine's step gives a command: no push made. -/
theorem begun_pushed {s : State} {e : Exec} (h : s.executing = some e) (hp : e.pushed = 0) :
    ∀ e', s.executing = some e' → e'.pushed = 0 := fun e' he => by
  rw [h] at he
  exact Option.some.inj he ▸ hp

theorem witness_EncByteAppendsCode :
    pushing.dec.mode = .idle ∧ (∀ e, pushing.executing = some e → e.pushed = 0) ∧ pushing.executing ≠ none ∧
      entry pushing.ct.len 0x61 ≠ 0 ∧
      (pushing.enc.accLen.toNat + (entry pushing.ct.len 0x61).toNat) / 8 ≤ slots pushing :=
  ⟨rfl, begun_pushed rfl rfl, by decide, by decide +kernel, by decide +kernel⟩
theorem witness_EncByteNeedsCode : coded.dec.mode = .idle ∧ entry coded.ct.len 0x63 = 0 := by decide +kernel
theorem witness_EncFlushPads :
    let s := { coded with
      enc := { acc := 0xE0, accLen := 3, bits := 3 }
      executing := some { header := 0x42000000, taken := [], pushed := 0 } }
    s.dec.mode = .idle ∧ (∀ e, s.executing = some e → e.pushed = 0) ∧ s.enc.accLen ≠ 0 ∧ 1 ≤ slots s ∧
      coded.enc.accLen = 0 := ⟨rfl, begun_pushed rfl rfl, by decide, by decide, rfl⟩
theorem witness_PayloadLaw :
    coded.dec.mode = .idle ∧ coded.err.error = false ∧ coded.executing = none ∧ coded.grant = none ∧
      32 ≤ coded.params.outDepth.toNat ∧ ∀ x ∈ [(0x61 : Byte), 0x62], entry coded.ct.len x ≠ 0 := by decide +kernel
/-- Decoding four symbols, two of them pushed, with these bytes in an OUTQ of depth 2. -/
def resuming (outq : List Byte) : State :=
  { decoding 4 with
    params := { cmdDepth := 1, outDepth := 2 }
    outq := outq
    executing := some { header := (Instr.decFeed 0xE0).header, taken := [], pushed := 2 } }

theorem witness_SplitPushesAgree_full :
    let s := resuming [0x61]
    WellFormed (.decFeed 0xE0) ∧ s.grant = none ∧ accepted (Instr.decFeed 0xE0).op s.dec.mode = true ∧
      s.executing = some { header := (Instr.decFeed 0xE0).header, taken := (Instr.decFeed 0xE0).ext, pushed := 2 } ∧
      2 < (pushesOf (.decFeed 0xE0) s).length ∧
      s.params.outDepth.toNat - s.outq.length < (pushesOf (.decFeed 0xE0) s).length - 2 :=
  ⟨rfl, rfl, rfl, rfl, by decide +kernel, by decide +kernel⟩
theorem witness_SplitPushesAgree_resumed :
    let s := resuming []
    WellFormed (.decFeed 0xE0) ∧ s.grant = none ∧ accepted (Instr.decFeed 0xE0).op s.dec.mode = true ∧
      s.sched = [] ∧ s.rstN = true ∧
      s.executing = some { header := (Instr.decFeed 0xE0).header, taken := (Instr.decFeed 0xE0).ext, pushed := 2 } ∧
      2 < (pushesOf (.decFeed 0xE0) s).length ∧
      (pushesOf (.decFeed 0xE0) s).length - 2 ≤ s.params.outDepth.toNat - s.outq.length ∧
      (pushesOf (.decFeed 0xE0) s).length ≤ State.reset.params.outDepth.toNat :=
  ⟨rfl, rfl, rfl, rfl, rfl, rfl, by decide +kernel, by decide +kernel, by decide +kernel⟩
theorem witness_SplitPushesAgree :
    let s := { pushing with executing := none }
    WellFormed (.encByte 0x61) ∧ s.executing = none ∧ s.grant = none ∧ accepted (Instr.encByte 0x61).op s.dec.mode = true ∧
      0 < (pushesOf (.encByte 0x61) s).length ∧
      (pushesOf (.encByte 0x61) s).length ≤ s.params.outDepth.toNat - s.outq.length ∧
      ∃ t, exec (.encByte 0x61) { s with grant := some 0 } = .next t :=
  ⟨rfl, rfl, rfl, rfl, by decide +kernel, by decide +kernel,
    (after_next (p := fun _ => true) (by decide +kernel)).imp fun _ h => h.1⟩
theorem witness_CtClearEmpties : coded.dec.mode = .idle ∧ (decoding 1).dec.mode = .decoding := ⟨rfl, rfl⟩
theorem witness_CtLoadStores :
    State.reset.dec.mode = .idle ∧ [(0 : Word), 0, 0, 0, 0, 0, 0, 0].length = codeWords 255 ∧ (255 : Byte) ≠ 0 ∧
      entry State.reset.ct.len 0x41 = 0 ∧
      ∀ t, entry State.reset.ct.len t = 255 → load (entry State.reset.ct.bits t) 255 ≠ loadWords (List.replicate 8 0) 255 :=
  ⟨rfl, by decide, by decide, by decide +kernel, fun t h => by simp [State.reset] at h⟩
theorem witness_CtLoadRefuses :
    coded.dec.mode = .idle ∧ ([] : List Word).length = codeWords 0 ∧
      ([0x80000000] : List Word).length = codeWords 1 ∧ entry coded.ct.len 0x61 ≠ 0 ∧ entry coded.ct.len 0x63 = 0 ∧
      entry coded.ct.len 0x61 = 1 ∧
      load (entry coded.ct.bits 0x61) (1 : Byte).toNat = loadWords [0x80000000] (1 : Byte).toNat ∧
      CodesDistinct coded.ct :=
  ⟨rfl, by decide, by decide, by decide +kernel, by decide +kernel, by decide +kernel, by decide +kernel,
    abTable_distinct⟩
theorem witness_ReloadRebuildsTable :
    coded.dec.mode = .idle ∧ coded.err.error = false ∧ CodesCanonical coded.ct ∧ CodesDistinct coded.ct ∧
      [((0x62 : Byte), [false]), (0x61, [true])].Perm (bookOf coded.ct) :=
  ⟨rfl, rfl, abTable_canonical, abTable_distinct, by
    rw [show bookOf coded.ct = [(0x61, [true]), (0x62, [false])] by decide +kernel]
    exact .swap _ _ _⟩
theorem witness_StepKeepsCodeTable :
    let s := { coded with cmdq := [0x51000263, 0x40000000] }
    CodesCanonical s.ct ∧ CodesDistinct s.ct ∧ ∃ t, step s = .next t :=
  ⟨abTable_canonical, abTable_distinct, (after_next (p := fun _ => true) (by decide +kernel)).imp fun _ h => h.1⟩

/-! ## Witnesses: decoder and errors -/

theorem witness_DecStartBegins : coded.dec.mode = .idle ∧ (decoding 1).dec.mode = .decoding := ⟨rfl, rfl⟩
/-- A DEC_FEED that the engine has begun. -/
def feeding (s : State) : State := { s with executing := some { header := 0x610000E0, taken := [], pushed := 0 } }

theorem witness_DecFeedDecodes :
    let s := { feeding (decoding 4) with params := { cmdDepth := 1, outDepth := 4 } }
    s.dec.mode = .decoding ∧ (∀ e, s.executing = some e → e.pushed = 0) ∧ (feedByte 0xE0 s).out.length ≤ slots s ∧
      (feedByte 0xE0 s).dead = none := ⟨rfl, begun_pushed rfl rfl, by decide +kernel, by decide +kernel⟩
theorem witness_DecFeedDeadPrefix :
    let s := feeding { decoding 1 with ct := CodeTable.empty }
    s.dec.mode = .decoding ∧ (∀ e, s.executing = some e → e.pushed = 0) ∧ (feedByte 0 s).out.length ≤ slots s ∧
      (feedByte 0 s).dead = some 7 := ⟨rfl, begun_pushed rfl rfl, by decide +kernel, by decide +kernel⟩
theorem witness_PaddingIgnored :
    let s := feeding (decoding 0)
    s.dec.mode = .decoding ∧ (∀ e, s.executing = some e → e.pushed = 0) ∧ s.dec.remaining = 0 ∧
      PartialCanonical s.dec :=
  ⟨rfl, begun_pushed rfl rfl, rfl, fun k _ => by simp [feeding, decoding, BitVec.getMsbD]⟩
/-- V6.8: over the codes "0" and "01" the first match is "0", then "1" is dead; and a partial code is left live. -/
theorem witness_FeedSplitsBits :
    let ct := (CodeTable.empty.put 0x41 [false]).put 0x42 [false, true]
    feedBits ct [false, true, false] 2 [] = { out := [0x41], remaining := 1, rest := [true], dead := some 1 } ∧
    feedBits (CodeTable.empty.put 0x42 [false, true]) [true, false] 2 [false] =
      { out := [0x42], remaining := 1, rest := [false], dead := none } := by decide +kernel
theorem witness_DecodeInvertsEncode :
    PrefixFree abTable ∧ (∀ x ∈ [(0x61 : Byte), 0x62], entry abTable.len x ≠ 0) ∧
      [(0x61 : Byte), 0x62].length < 2 ^ 32 := ⟨abTable_prefixFree, by decide +kernel, by decide⟩
theorem witness_DecEndFinishes :
    (decoding 0).dec.mode = .decoding ∧ (decoding 0).dec.remaining = 0 ∧ (decoding 3).dec.mode = .decoding ∧
      (decoding 3).dec.remaining ≠ 0 ∧ coded.dec.mode = .idle := by decide
theorem witness_RoundTripLaw :
    State.reset.dec.mode = .idle ∧ State.reset.err.error = false ∧ State.reset.executing = none ∧
      State.reset.grant = none ∧ 32 ≤ State.reset.params.outDepth.toNat ∧ [(0x61 : Byte), 0x62] ≠ [] ∧
      [(0x61 : Byte), 0x62].length < 2 ^ 32 := by decide

/-- Decoding, one bit into the code "01" of 0x42, with the next payload byte in CMDQ. -/
def inCode : State :=
  { State.reset with
    ct := CodeTable.empty.put 0x42 [false, true]
    dec := { mode := .decoding, declared := 1, remaining := 1, plen := 1, pbits := store 256 [false] }
    cmdq := [0x61000080] }

theorem inCode_units : UnitsInv inCode where
  pending k _ := by simp [inCode, State.reset, BitVec.getMsbD]
  partialStored k hk := by
    rw [show inCode.dec.pbits = store 256 [false] from rfl, getMsbD_store _ _ _ (by decide)]
    exact List.getD_eq_default _ _ hk
  partialLive _ _ := ⟨.inr (by decide +kernel), by decide⟩
  record _ := rfl

theorem witness_StepKeepsUnits : UnitsInv inCode ∧ ExecWaits inCode ∧ ∃ t, step inCode = .next t :=
  ⟨inCode_units, no_exec_waits rfl, (after_next (p := fun _ => true) (by decide +kernel)).imp fun _ h => h.1⟩

theorem witness_ErrorsArePrecise :
    (∃ t, exec (.encByte 0x63) coded = .next t ∧ t.err.error = true) ∧ coded.err.error = false ∧
      ∃ t, exec (.decFeed 0) { decoding 1 with ct := CodeTable.empty } = .next t ∧ t.err.error = true :=
  ⟨after_next (p := fun t => t.err.error) (by decide +kernel), rfl,
    after_next (p := fun t => t.err.error) (by decide +kernel)⟩

/-! ## Witnesses: the bus, reset and the instance -/

theorem witness_IdleReadsAreExact :
    coded.rstN = true ∧ coded.busy = false ∧ QueuesFit coded ∧ (loaded [0]).busy = true :=
  ⟨rfl, rfl, ⟨by decide, by decide⟩, rfl⟩
theorem witness_StatusBits : (loaded [0x60000000]).rstN = true := rfl
/-- R53, R74: the ends of the four reserved windows. -/
theorem witness_AddressesDecoded :
    [0x048, 0x07F, 0x0A0, 0x3FF, 0xC00, 0xFFF, 0x3000, 0x3FFF].map regAt = List.replicate 8 .reserved ∧
      [0x047, 0x080, 0x09F, 0x400, 0x7FF, 0x800, 0xBFF, 0x1000, 0x2FFF].map regAt =
        [.outData, .decPbits 0, .decPbits 7, .freq 0, .freq 255, .codeLen 0, .codeLen 255, .codeBits 0 0,
          .codeBits 255 7] ∧
      ((0x00B : Addr) &&& 0x3FFC) = 0x008 := by decide +kernel
theorem witness_QueuePorts :
    State.reset.rstN = true ∧ State.reset.cmdq.length < State.reset.params.cmdDepth.toNat ∧
      { loaded [1] with params := { cmdDepth := 1, outDepth := 1 } }.params.cmdDepth.toNat ≤ [(1 : Word)].length ∧
      { State.reset with outq := [0x61] }.outq = 0x61 :: [] ∧ State.reset.outq = [] := by decide
theorem witness_QueuePorts_host :
    let full := { loaded [1] with
      params := { cmdDepth := 1, outDepth := 1 }
      sched := [.host]
      host := { State.reset.host with pending := [.write 0x040 2] } }
    let waiting := { loaded [] with sched := [.host], host := { State.reset.host with stalled := some 2 } }
    (full.rstN = true ∧ full.sched = .host :: [] ∧ full.host.stalled = none ∧
      full.host.pending = .write 0x040 2 :: [] ∧ full.params.cmdDepth.toNat ≤ full.cmdq.length) ∧
    (waiting.rstN = true ∧ waiting.sched = .host :: [] ∧ waiting.host.stalled = some 2 ∧
      waiting.cmdq.length < waiting.params.cmdDepth.toNat) := by decide
theorem witness_BusyReadsDrawn : (loaded [0]).rstN = true ∧ (loaded [0]).busy = true := by decide
theorem witness_CtrlWrites :
    State.reset.rstN = true ∧ (7 : Word).getLsbD 0 = true ∧ (6 : Word).getLsbD 0 = false := by decide
theorem witness_HeldInReset : { State.reset with rstN := false }.rstN = false := rfl
theorem witness_StepKeepsDepths : QueuesFit (loaded [0]) ∧ ∃ t, step (loaded [0]) = .next t :=
  ⟨⟨by decide, by decide⟩, (after_next (p := fun _ => true) (by decide +kernel)).imp fun _ h => h.1⟩

end Sys2Proof.Tests
end

/-! SUPPORT. The words of a command decode to it (30_encoding.md R85 to R90). -/

namespace Sys2Proof

/-! ## Masking a header word (R90) -/

/-- The mask of the rows whose SYM field is an operand clears SYM. -/
theorem mkHeader_and_symMask (opc len sym : Byte) :
    mkHeader opc len sym &&& 0xFFFFFF00 = mkHeader opc len 0 := by
  have hmask : ∀ j < 32, (0xFFFFFF00 : Word).getLsbD j = decide (8 ≤ j) := by decide
  apply BitVec.eq_of_getLsbD_eq
  intro j hj
  rw [BitVec.getLsbD_and, getLsbD_mkHeader _ _ _ _ hj, getLsbD_mkHeader _ _ _ _ hj, hmask j hj]
  by_cases h : 8 ≤ j
  · simp [h]
  · simp [h, show ¬ 24 ≤ j by omega]

/-- The mask of CT_LOAD's row, whose LEN and SYM fields are operands, clears both. -/
theorem mkHeader_and_lenSymMask (opc len sym : Byte) :
    mkHeader opc len sym &&& 0xFFFF0000 = mkHeader opc 0 0 := by
  have hmask : ∀ j < 32, (0xFFFF0000 : Word).getLsbD j = decide (16 ≤ j) := by decide
  apply BitVec.eq_of_getLsbD_eq
  intro j hj
  rw [BitVec.getLsbD_and, getLsbD_mkHeader _ _ _ _ hj, getLsbD_mkHeader _ _ _ _ hj, hmask j hj]
  by_cases h : 16 ≤ j
  · simp [h, BitVec.getLsbD_of_ge sym j (by omega), BitVec.getLsbD_of_ge len (j - 8) (by omega)]
  · simp [h, show ¬ 24 ≤ j by omega]

/-! ## Classification and decoding -/

/-- R90, R91: a word with a row's opcode and match value is of that row: no other row has its opcode. -/
theorem classify_of_row {h : Word} {r : Row} (hr : r ∈ opcodeTable) (hopc : opcOf h = r.op.code)
    (hmask : h &&& r.mask = r.pat) : classify h = .ok r.op := by
  have hfound : ∀ r ∈ opcodeTable, opcodeTable.find? (fun q => opcOf q.pat == r.op.code) = some r := by decide
  rw [classify, hopc, hfound r hr]
  exact if_pos hmask

/-- R90: the header of a command is classified as its row. -/
theorem classify_header (i : Instr) : classify i.header = .ok i.op := by
  cases i with
  | freqAcc sym =>
    exact classify_of_row (r := ⟨.freqAcc, 0x11000000, 0xFFFFFF00⟩) (by decide) (opcOf_mkHeader ..)
      (mkHeader_and_symMask ..)
  | encByte sym =>
    exact classify_of_row (r := ⟨.encByte, 0x41000000, 0xFFFFFF00⟩) (by decide) (opcOf_mkHeader ..)
      (mkHeader_and_symMask ..)
  | ctLoad sym len data =>
    exact classify_of_row (r := ⟨.ctLoad, 0x51000000, 0xFFFF0000⟩) (by decide) (opcOf_mkHeader ..)
      (mkHeader_and_lenSymMask ..)
  | decFeed sym =>
    exact classify_of_row (r := ⟨.decFeed, 0x61000000, 0xFFFFFF00⟩) (by decide) (opcOf_mkHeader ..)
      (mkHeader_and_symMask ..)
  | nop | freqClear | build | genCodes | encInit | encFlush | ctClear | decEnd => decide
  | decStart count => rw [Instr.header, Instr.op]; decide

/-- R86, R89: the law of Laws/PerInstr, for every command. -/
theorem headerShape (i : Instr) : Laws.HeaderShape.Statement i := by
  cases i with
  | nop => exact Laws.HeaderShape.nop
  | freqClear => exact Laws.HeaderShape.freqClear
  | freqAcc sym => exact Laws.HeaderShape.freqAcc sym
  | build => exact Laws.HeaderShape.build
  | genCodes => exact Laws.HeaderShape.genCodes
  | encInit => exact Laws.HeaderShape.encInit
  | encByte sym => exact Laws.HeaderShape.encByte sym
  | encFlush => exact Laws.HeaderShape.encFlush
  | ctClear => exact Laws.HeaderShape.ctClear
  | ctLoad sym len data => exact Laws.HeaderShape.ctLoad sym len data
  | decStart count => exact Laws.HeaderShape.decStart count
  | decFeed sym => exact Laws.HeaderShape.decFeed sym
  | decEnd => exact Laws.HeaderShape.decEnd

/-- R89: a well-formed command has the extension words its header asks for. -/
theorem extCount_header {i : Instr} (h : WellFormed i) : extCount i.header = i.ext.length := ((headerShape i).2 h).symm

/-- R88: the operands read from a command's own words are its operands. -/
theorem assemble_header (i : Instr) : assemble i.op i.header i.ext = i := by
  cases i <;> simp [assemble, Instr.op, Instr.header, Instr.ext]

/-- R85: a well-formed command's words decode to it, and the words after it are left. -/
theorem decode_encode_append {i : Instr} (h : WellFormed i) (rest : List Word) :
    decode (encode i ++ rest) = .ok (i, rest) := by
  have hn := extCount_header h
  simp [encode, decode, classify_header, hn, assemble_header]

/-- R85: a well-formed command's words, no other after them, decode to it. -/
theorem decode_encode {i : Instr} (h : WellFormed i) : decode (i.header :: i.ext) = .ok (i, []) := by
  simpa [encode] using decode_encode_append h []

end Sys2Proof

/-! SUPPORT. How bits are grouped into bytes (44_encoder.md R141, R142). -/

namespace Sys2Proof.Machine

/-- R33: fewer than eight bits are pending. -/
theorem length_pending_lt (e : Encoder) : e.pending.length < 8 := by
  rw [Encoder.pending, length_load]; exact e.accLen.isLt

/-- R33: no bit is pending exactly when ENC_ACC_LEN = 0. -/
theorem pending_isEmpty_iff (e : Encoder) : e.pending.isEmpty = true ↔ e.accLen = 0 := by
  rw [List.isEmpty_iff_length_eq_zero, Encoder.pending, length_load, ← BitVec.toNat_inj]; rfl

/-- R13, R142: the bits of a group padded to a byte are the group followed by zeros. -/
theorem bitsOfByte_byteOfBits_pad {p : Bits} (hp : p.length ≤ 8) :
    bitsOfByte (byteOfBits p) = p ++ List.replicate (8 - p.length) false := by
  apply List.ext_getElem
  · simp; omega
  · intro k hk _
    have hbit : (bitsOfByte (byteOfBits p))[k] = p.getD k false := by
      rw [← getMsbD_store 8 p k hp]; exact getElem_load _ _ _ hk
    rw [hbit]
    by_cases h : k < p.length
    · simp [h]
    · rw [List.getElem_append_right (by omega), List.getElem_replicate, List.getD_eq_default _ _ (by omega)]

/-- R141: the bytes completed and the bits left pending are the bits there were, in order, and fewer than eight are
left. -/
theorem packBits_spec {acc : Bits} (bs : Bits) (h : acc.length < 8) :
    acc ++ bs = (packBits acc bs).1.flatMap bitsOfByte ++ (packBits acc bs).2 ∧ (packBits acc bs).2.length < 8 := by
  induction bs generalizing acc with
  | nil => simpa [packBits] using h
  | cons b bs ih =>
    rw [packBits]
    split
    case isTrue h8 =>
      obtain ⟨hbits, hrest⟩ := ih (acc := []) (by decide)
      refine ⟨?_, hrest⟩
      rw [List.flatMap_cons, bitsOfByte_byteOfBits _ h8, List.append_assoc, ← hbits]
      simp
    case isFalse h8 =>
      obtain ⟨hbits, hrest⟩ := ih (acc := acc ++ [b]) (by simp at h8 ⊢; omega)
      exact ⟨by rw [← hbits]; simp, hrest⟩

theorem length_flatMap_bitsOfByte (bytes : List Byte) : (bytes.flatMap bitsOfByte).length = 8 * bytes.length := by
  induction bytes with
  | nil => rfl
  | cons b bytes ih => simp [ih]; omega

/-- R141: one byte is completed for each eight bits. -/
theorem length_packBits {acc : Bits} (bs : Bits) (h : acc.length < 8) :
    (packBits acc bs).1.length = (acc.length + bs.length) / 8 := by
  obtain ⟨hbits, hrest⟩ := packBits_spec bs h
  have hlen := congrArg List.length hbits
  rw [List.length_append, List.length_append, length_flatMap_bitsOfByte] at hlen
  omega

/-- R141: ENC_BYTE completes `floor((ENC_ACC_LEN + m) / 8)` bytes, m the length of the code. -/
theorem length_encodeSym (sym : Byte) (s : State) :
    (encodeSym sym s).1.length = (s.enc.accLen.toNat + (entry s.ct.len sym).toNat) / 8 := by
  rw [encodeSym, length_packBits _ (length_pending_lt s.enc), length_code, Encoder.pending, length_load]

end Sys2Proof.Machine

/-! SUPPORT. The commands that push to OUTQ (R141, R142, R171): the meaning of each is `emit`, and what it pushes and
writes does not depend on OUTQ, EXEC or the FIFO depths. -/

namespace Sys2Proof.Machine

/-! ## The meanings -/

/-- R141: ENC_BYTE of a symbol that has a code. -/
theorem exec_encByte {s : State} {sym : Byte} (hm : s.dec.mode = .idle) (hc : entry s.ct.len sym ≠ 0) :
    exec (.encByte sym) s = .next (
      emit (.encByte sym) (encodeSym sym s).1 (encodeWrites (entry s.ct.len sym) (encodeSym sym s).2) s) := by
  rw [exec, execEncByte, whenAccepted_yes (by rw [hm]; rfl), if_neg hc]

/-- R142: ENC_FLUSH with no bit pending. -/
theorem exec_encFlush_none {s : State} (hm : s.dec.mode = .idle) (hp : s.enc.pending.isEmpty = true) :
    exec .encFlush s = .next (complete s) := by
  rw [exec, execEncFlush, whenAccepted_yes (by rw [hm]; rfl), if_pos hp]

/-- R142: ENC_FLUSH with bits pending. -/
theorem exec_encFlush_some {s : State} (hm : s.dec.mode = .idle) (hp : ¬ s.enc.pending.isEmpty = true) :
    exec .encFlush s = .next (emit .encFlush (flushBytes s) flushWrites s) := by
  rw [exec, execEncFlush, whenAccepted_yes (by rw [hm]; rfl), if_neg hp]

/-- R171: DEC_FEED. -/
theorem exec_decFeed {s : State} {sym : Byte} (hm : s.dec.mode = .decoding) :
    exec (.decFeed sym) s = .next (
      emit (.decFeed sym) (feedByte sym s).out (feedWrites (feedByte sym s) (Instr.decFeed sym).header) s) := by
  rw [exec, execDecFeed, whenAccepted_yes (by rw [hm]; rfl)]

/-- What a pushing command writes at its last step (R141, R142, R171, log 8); no other command pushes. -/
def finalOf (i : Instr) (s : State) : State → State :=
  match i with
  | .encByte sym => encodeWrites (entry s.ct.len sym) (encodeSym sym s).2
  | .encFlush => flushWrites
  | .decFeed sym => feedWrites (feedByte sym s) (Instr.decFeed sym).header
  | _ => id

/-- R43, R190: an accepted command that has bytes to push is the pushing of them followed by its writes. -/
theorem exec_pushing {i : Instr} {s : State} (ha : accepted i.op s.dec.mode = true) (hp : pushesOf i s ≠ []) :
    exec i s = .next (emit i (pushesOf i s) (finalOf i s) s) := by
  cases i with
  | encByte sym =>
    have hm : s.dec.mode = .idle := mode_idle ha nofun nofun nofun
    refine exec_encByte hm fun h0 => hp ?_
    have hcode : s.ct.code sym = [] := List.eq_nil_of_length_eq_zero (by rw [length_code, h0]; rfl)
    rw [pushesOf, encodeSym, hcode, packBits]
  | encFlush =>
    have hm : s.dec.mode = .idle := mode_idle ha nofun nofun nofun
    exact exec_encFlush_some hm fun he => hp (by rw [pushesOf, flushBytes, if_pos he])
  | decFeed sym => exact exec_decFeed (mode_decoding ha (.inl rfl))
  | nop | freqClear | freqAcc | build | genCodes | encInit | ctClear | ctLoad | decStart | decEnd =>
    exact absurd rfl hp

/-! ## What they do not depend on -/

/-- The same machine with other queue contents: OUTQ, EXEC, the FIFO depths and the turn's grant. -/
def withOutput (outq : List Byte) (e : Option Exec) (p : Params) (g : Option Nat) (s : State) : State :=
  { s with outq := outq, executing := e, params := p, grant := g }

section
variable (i : Instr) (s t : State) (outq : List Byte) (e : Option Exec) (p : Params) (g : Option Nat)

theorem pushesOf_withOutput : pushesOf i (withOutput outq e p g s) = pushesOf i s := by cases i <;> rfl

theorem finalOf_withOutput : finalOf i (withOutput outq e p g s) = finalOf i s := by cases i <;> rfl

/-- The last step of a pushing command neither reads nor writes OUTQ, the FIFO depths and the grant. -/
theorem complete_finalOf_withOutput :
    complete (finalOf i s (withOutput outq e p g t)) = withOutput outq none p g (complete (finalOf i s t)) := by
  cases i with
  | decFeed sym =>
    simp only [finalOf, feedWrites]
    cases (feedByte sym s).dead <;> rfl
  | _ => rfl

end

/-! ## Whole and stopped pushes -/

section
variable {i : Instr} {s : State} {k : Nat}

/-- R43: how a command stands that has made k pushes, none of them where it has not begun. -/
theorem progress_pushed
    (hx : s.executing = none ∧ k = 0 ∨ s.executing = some { header := i.header, taken := i.ext, pushed := k }) :
    progress i s = { header := i.header, taken := i.ext, pushed := k } := by
  rcases hx with ⟨hx, rfl⟩ | hx <;> simp [progress, hx]

variable (ha : accepted i.op s.dec.mode = true) (hk : k < (pushesOf i s).length)
  (hx : s.executing = none ∧ k = 0 ∨ s.executing = some { header := i.header, taken := i.ext, pushed := k })
include ha hk hx

/-- R195 (b), R196: with fewer slots than bytes left the command fills them and stays in EXEC. -/
theorem exec_stops (hs : slots s < (pushesOf i s).length - k) :
    exec i s = .next { s with
      outq := s.outq ++ ((pushesOf i s).drop k).take (slots s)
      executing := some { header := i.header, taken := i.ext, pushed := k + slots s } } := by
  have hu : unpushed i (pushesOf i s) s = (pushesOf i s).drop k := by rw [unpushed, progress_pushed hx]
  rw [exec_pushing ha (List.ne_nil_of_length_pos (by omega)), emit_some _ (by rw [hu, List.length_drop]; exact hs), hu,
    progress_pushed hx]

/-- R190: with a slot for each byte left the command pushes them, makes its writes and completes. -/
theorem exec_pushes (hs : (pushesOf i s).length - k ≤ slots s) :
    exec i s = .next (withOutput (s.outq ++ (pushesOf i s).drop k) none s.params s.grant
      (complete (finalOf i s s))) := by
  have hu : unpushed i (pushesOf i s) s = (pushesOf i s).drop k := by rw [unpushed, progress_pushed hx]
  rw [exec_pushing ha (List.ne_nil_of_length_pos (by omega)), emit_all _ (by rw [hu, List.length_drop]; exact hs), hu,
    ← complete_finalOf_withOutput i s s _ s.executing]
  rfl

end

/-- R43, R196: whatever OUTQ holds and however many pushes were made before, a command that has a slot for each byte
left completes with the same writes. -/
theorem exec_withOutput_pushes {i : Instr} {s : State} {k : Nat} {outq : List Byte} {e : Option Exec} {p : Params}
    {g : Option Nat} (ha : accepted i.op s.dec.mode = true) (hk : k < (pushesOf i s).length)
    (hx : e = none ∧ k = 0 ∨ e = some { header := i.header, taken := i.ext, pushed := k })
    (hs : (pushesOf i s).length - k ≤ slots (withOutput outq e p g s)) :
    exec i (withOutput outq e p g s) =
      .next (withOutput (outq ++ (pushesOf i s).drop k) none p g (complete (finalOf i s s))) := by
  have hp := pushesOf_withOutput i s outq e p g
  rw [exec_pushes (s := withOutput outq e p g s) ha (hp ▸ hk) hx (hp ▸ hs), hp, finalOf_withOutput,
    complete_finalOf_withOutput]
  rfl

/-! ## The slots of a turn -/

/-- R195: a turn without a limit can fill OUTQ. -/
theorem slots_unlimited {s : State} (h : s.grant = none) : slots s = s.params.outDepth.toNat - s.outq.length := by
  rw [slots, h]

/-- R196: a turn that grants k pushes makes k, where OUTQ has as many slots. -/
theorem slots_granted {s : State} {k : Nat} (h : s.grant = some k)
    (hk : k ≤ s.params.outDepth.toNat - s.outq.length) : slots s = k := by
  rw [slots, h]; exact Nat.min_eq_left hk

end Sys2Proof.Machine

/-! CERTIFICATE. The statements on ENC_BYTE and ENC_FLUSH: O30, O32. -/

namespace Sys2Proof.Machine

/-- Settles O30: the bytes are those `packBits` completes, so the slots the premise grants suffice for them. -/
theorem encByteAppendsCode : Obligations.EncByteAppendsCode := by
  intro s sym hm hx hc hs
  obtain ⟨hbits, hrest⟩ := packBits_spec (s.ct.code sym) (length_pending_lt s.enc)
  refine ⟨(encodeSym sym s).1, (encodeSym sym s).2, hbits, hrest, ?_⟩
  have hu : unpushed (.encByte sym) (encodeSym sym s).1 s = (encodeSym sym s).1 := unpushed_fresh _ _ hx
  rw [exec_encByte hm hc, emit_all _ (by rw [hu, length_encodeSym]; exact hs), hu]
  rfl

/-- Settles O32: the byte pushed is the pending bits padded to eight. -/
theorem encFlushPads : Obligations.EncFlushPads := by
  intro s hm hx
  constructor
  · intro h0
    exact exec_encFlush_none hm ((pending_isEmpty_iff _).2 h0)
  · intro h0 hs
    have hp : ¬ s.enc.pending.isEmpty = true := fun he => h0 ((pending_isEmpty_iff _).1 he)
    have hpad := bitsOfByte_byteOfBits_pad (length_pending_lt s.enc).le
    have hu : unpushed .encFlush (flushBytes s) s = [byteOfBits s.enc.pending] := by
      rw [unpushed_fresh _ _ hx, flushBytes, if_neg hp]
    refine ⟨byteOfBits s.enc.pending, by rw [hpad, Encoder.pending, length_load], ?_⟩
    rw [exec_encFlush_some hm hp, emit_all _ (by rw [hu]; exact hs), hu]
    rfl

end Sys2Proof.Machine

/-! CERTIFICATE. The splitting of a command's pushes: O34. -/

namespace Sys2Proof.Machine

/-- R190: with nothing scheduled the step is the engine's turn, without a limit on its pushes (log 1). -/
theorem step_unscheduled {s : State} (h : s.sched = []) : step s = engineTurn none s := by
  unfold step nextTurn
  rw [h]

/-- R89: a well-formed command's own words are all its header asks for. -/
theorem missing_whole {i : Instr} (hw : WellFormed i) (k : Nat) :
    Exec.missing { header := i.header, taken := i.ext, pushed := k } = 0 := by
  rw [Exec.missing, extCount_header hw, Nat.sub_self]

/-- R89: a command with all its words takes none from CMDQ. -/
theorem takeWords_whole {i : Instr} (hw : WellFormed i) {s : State} {k : Nat}
    (hx : s.executing = some { header := i.header, taken := i.ext, pushed := k }) :
    takeWords { header := i.header, taken := i.ext, pushed := k } s =
      ({ header := i.header, taken := i.ext, pushed := k }, s) := by
  simp [takeWords, missing_whole hw k, ← hx]

/-- R43, R191 step 6: the engine's turn on a command in EXEC with all its words is its meaning. -/
theorem engineTurn_whole {i : Instr} (hw : WellFormed i) {s : State} {k : Nat} (g : Option Nat) (hr : s.rstN = true)
    (hx : s.executing = some { header := i.header, taken := i.ext, pushed := k }) :
    engineTurn g s = exec i { s with grant := g } := by
  have ht := takeWords_whole hw (s := { s with grant := g }) hx
  rw [engineTurn_run g hr hx, runCommand_runs (by rw [ht]; exact missing_whole hw k)
    (by rw [ht]; exact decode_encode hw), ht]

/-- R196: a command stopped by a turn that grants k pushes has made the first k of them and nothing else. -/
theorem exec_granted {i : Instr} {s : State} {k : Nat} (hx : s.executing = none)
    (ha : accepted i.op s.dec.mode = true) (hk : k < (pushesOf i s).length)
    (hroom : (pushesOf i s).length ≤ s.params.outDepth.toNat - s.outq.length) :
    exec i { s with grant := some k } = .next (withOutput (s.outq ++ (pushesOf i s).take k)
      (some { header := i.header, taken := i.ext, pushed := k }) s.params (some k) s) := by
  have hp : pushesOf i { s with grant := some k } = pushesOf i s :=
    pushesOf_withOutput i s s.outq s.executing s.params _
  have hs : slots { s with grant := some k } = k := slots_granted rfl (hk.le.trans hroom)
  rw [exec_stops (s := { s with grant := some k }) ha (k := 0) (by rw [hp]; omega) (.inl ⟨hx, rfl⟩)
    (by rw [hs, hp]; omega), hp, hs, Nat.zero_add]
  rfl

/-- Settles O34: what a pushing command does is the pushes left over and then its writes, which no split changes. That
the writes wait for the last step is the model's choice (log 8), that a stopped command is resumed by its meaning too
(log 15). -/
theorem splitPushesAgree : Obligations.SplitPushesAgree := by
  refine ⟨?_, ?_, ?_⟩
  · intro s i k _ hg ha hx hk
    have hs := slots_unlimited hg
    refine ⟨fun hfree => hs ▸ exec_stops ha hk hx (hs ▸ hfree), fun hfree p hp => ?_⟩
    have hwhole : exec i (withOutput [] none p s.grant s) = _ :=
      exec_withOutput_pushes ha (k := 0) (by omega) (.inl ⟨rfl, rfl⟩) (by
        rw [slots_unlimited (s := withOutput [] none p s.grant s) hg]; exact hp)
    exact ⟨_, hwhole, rfl, rfl, exec_pushes ha hk hx (hs ▸ hfree)⟩
  · intro s i k hw hq hr hx
    rw [step_unscheduled hq]
    exact engineTurn_whole hw none hr hx
  · intro s t i k _ hx hg ha hk hroom ht
    rw [exec_granted hx ha hk hroom] at ht
    obtain rfl := Host.Outcome.next.inj ht
    refine ⟨rfl, ?_⟩
    have hresumed : exec i (withOutput (s.outq ++ (pushesOf i s).take k)
        (some { header := i.header, taken := i.ext, pushed := k }) s.params none s) = _ :=
      exec_withOutput_pushes ha hk (.inr rfl) (by
        rw [slots_unlimited rfl]
        simp only [withOutput, List.length_append, List.length_take]
        omega)
    have hwhole := exec_pushes ha (k := 0) (by omega) (.inl ⟨hx, rfl⟩) (by rw [slots_unlimited hg]; exact hroom)
    rw [hwhole, hg]
    refine hresumed.trans ?_
    rw [List.append_assoc, List.take_append_drop, List.drop_zero]

end Sys2Proof.Machine

/-! CERTIFICATE. The statement on CT_LOAD: O36. -/

namespace Sys2Proof.Machine

/-- R159: no symbol holds a code that no entry of its length is equal to. -/
theorem holder_eq_none {ct : CodeTable} {len : Byte} {c : Bits}
    (h : ∀ t, entry ct.len t = len → load (entry ct.bits t) len.toNat ≠ c) : ct.holder len c = none := by
  refine List.find?_eq_none.2 fun t _ => ?_
  simpa using h t

/-- R156: CT_LOAD of a record that passes the three checks. -/
theorem exec_ctLoad {s : State} {sym len : Byte} {data : List Word} (hm : s.dec.mode = .idle) (hlen : len ≠ 0)
    (hfree : entry s.ct.len sym = 0) (hfresh : s.ct.holder len (loadWords data len.toNat) = none) :
    exec (.ctLoad sym len data) s = .next (complete { s with ct := s.ct.put sym (loadWords data len.toNat) }) := by
  rw [exec, execCtLoad, whenAccepted_yes (by rw [hm]; rfl)]
  simp only [if_neg hlen, hfree, ne_eq, not_true_eq_false, if_false, hfresh]

/-- Settles O36: the table is `put` at SYM, whose laws say what each entry holds. -/
theorem ctLoadStores : Obligations.CtLoadStores := by
  intro s sym len data hm _ hlen hfree hfresh
  have hbits : len.toNat < 256 := len.isLt
  have hl : (loadWords data len.toNat).length = len.toNat := length_loadWords _ _
  refine ⟨s.ct.put sym (loadWords data len.toNat), exec_ctLoad hm hlen hfree (holder_eq_none hfresh), ?_, ?_, ?_, ?_⟩
  · rw [put_len, if_pos rfl, hl]; simp
  · exact put_code_same _ _ _ (by omega)
  · intro k hk
    rw [put_bits, if_pos rfl, getMsbD_store _ _ _ (by omega), List.getD_eq_default _ _ (by omega)]
  · intro r hr
    exact ⟨by rw [put_len, if_neg hr], by rw [put_bits, if_neg hr]⟩

end Sys2Proof.Machine

/-! CERTIFICATE. The machine's parameters and the depths of the queues: O60. -/

namespace Sys2Proof.Machine

/-- R8, R41, R42: from `s` to `t` the parameters stay, and neither queue grows past its depth. -/
def KeepsDepths (s t : State) : Prop := t.params = s.params ∧ (QueuesFit s → QueuesFit t)

theorem KeepsDepths.trans {s t u : State} (h : KeepsDepths s t) (g : KeepsDepths t u) : KeepsDepths s u :=
  ⟨g.1.trans h.1, g.2 ∘ h.2⟩

/-- The law from its three parts: the parameters stay, and each queue stays within the depth it was within. -/
theorem keepsDepths_of_le {s t : State} (hp : t.params = s.params)
    (hc : s.cmdq.length ≤ s.params.cmdDepth.toNat → t.cmdq.length ≤ s.params.cmdDepth.toNat)
    (ho : s.outq.length ≤ s.params.outDepth.toNat → t.outq.length ≤ s.params.outDepth.toNat) : KeepsDepths s t :=
  ⟨hp, fun h => ⟨hp ▸ hc h.1, hp ▸ ho h.2⟩⟩

/-- Emptying the queues keeps the law: a reset (R231). -/
theorem keepsDepths_resetElements (s : State) : KeepsDepths s (resetElements s) :=
  keepsDepths_of_le rfl (fun _ => Nat.zero_le _) (fun _ => Nat.zero_le _)

theorem OnlyWords.keepsDepths {s t : State} (h : OnlyWords s t) : KeepsDepths s t :=
  keepsDepths_of_le h.params h.fewer.length_le.trans (h.outq ▸ id)

theorem OnlyBus.keepsDepths {s t : State} (h : OnlyBus s t) : KeepsDepths s t := by
  refine keepsDepths_of_le h.params (fun hc => ?_) h.outq.length_le.trans
  rcases h.cmdq with e | ⟨v, e, hroom⟩
  · rwa [e]
  · rw [e, List.length_append]
    exact of_decide_eq_true hroom

/-- R15, R195: pushing as far as the slots reach stays within the depth, where the writes leave the queues and the
parameters alone. -/
theorem keepsDepths_emit {i : Instr} {bytes : List Byte} {final : State → State} {s : State}
    (hc : ∀ t, (final t).cmdq = t.cmdq) (ho : ∀ t, (final t).outq = t.outq) (hp : ∀ t, (final t).params = t.params) :
    KeepsDepths s (emit i bytes final s) := by
  have hs := slots_le s
  rcases Nat.lt_or_ge (slots s) (unpushed i bytes s).length with h | h
  · rw [emit_some _ h]
    refine keepsDepths_of_le rfl id fun hq => ?_
    simp only [List.length_append, List.length_take]
    omega
  · rw [emit_all _ h]
    refine keepsDepths_of_le (hp _) (fun hq => ?_) (fun hq => ?_)
    · rwa [complete_cmdq, hc]
    · rw [complete_outq, ho, List.length_append]
      omega

theorem feedWrites_cmdq (f : Feed) (h : Word) (t : State) : (feedWrites f h t).cmdq = t.cmdq := by
  obtain ⟨-, -, -, -, -, hc, -⟩ := feedWrites_frame f h t
  exact hc

theorem feedWrites_outq (f : Feed) (h : Word) (t : State) : (feedWrites f h t).outq = t.outq := by
  obtain ⟨-, -, -, -, -, -, ho, -⟩ := feedWrites_frame f h t
  exact ho

theorem feedWrites_params (f : Feed) (h : Word) (t : State) : (feedWrites f h t).params = t.params := by
  obtain ⟨-, -, -, -, -, -, -, -, hp, -⟩ := feedWrites_frame f h t
  exact hp

/-- R41, R42: no command grows a queue past its depth. -/
theorem Effect.keepsDepths {i : Instr} {s t : State} (h : Effect i s t) : KeepsDepths s t := by
  have same : ∀ {u : State}, u.params = s.params → u.cmdq = s.cmdq → u.outq = s.outq → KeepsDepths s u :=
    fun hp hc ho => keepsDepths_of_le hp (hc ▸ id) (ho ▸ id)
  cases h with
  | encByte => exact keepsDepths_emit (fun _ => rfl) (fun _ => rfl) (fun _ => rfl)
  | encFlush => exact keepsDepths_emit (fun _ => rfl) (fun _ => rfl) (fun _ => rfl)
  | decFeed =>
    exact keepsDepths_emit (feedWrites_cmdq _ _) (feedWrites_outq _ _) (feedWrites_params _ _)
  | _ => exact same rfl rfl rfl

theorem keepsDepths_hostTurn (s : State) : KeepsDepths s (hostTurn s) := by
  rcases hostTurn_cases s with h | ⟨p, h⟩
  · exact h.keepsDepths
  · exact h ▸ keepsDepths_resetElements { s with host := p }

theorem keepsDepths_setRstN (level : Bool) (s : State) : KeepsDepths s (setRstN level s) := by
  cases level
  · exact keepsDepths_resetElements s
  · exact ⟨rfl, id⟩

theorem keepsDepths_engineTurn {k : Option Nat} {s t : State} (h : engineTurn k s = .next t) : KeepsDepths s t := by
  rcases engineTurn_cases k s with ⟨u, hu, e⟩ | ⟨i, u, hu, e⟩ | ⟨u, sub, w, hu, e⟩
  · exact Host.Outcome.next.inj (e ▸ h) ▸ hu.keepsDepths
  · exact hu.keepsDepths.trans (exec_effect (e ▸ h)).keepsDepths
  · exact Host.Outcome.next.inj (e ▸ h) ▸ hu.keepsDepths.trans ⟨rfl, id⟩

/-- R8, R41, R42: the law of every step. -/
theorem keepsDepths_step {s t : State} (h : step s = .next t) : KeepsDepths s t := by
  rcases step_cases s with ⟨k, ts, e⟩ | ⟨ts, e⟩ | ⟨level, ts, e⟩
  · exact keepsDepths_engineTurn (s := { s with sched := ts }) (e ▸ h)
  · exact Host.Outcome.next.inj (e ▸ h) ▸ keepsDepths_hostTurn { s with sched := ts }
  · exact Host.Outcome.next.inj (e ▸ h) ▸ keepsDepths_setRstN level { s with sched := ts }

/-- Settles O60: the law of every step, and the bounds are those of the type of the parameters. -/
theorem stepKeepsDepths : Obligations.StepKeepsDepths := by
  intro s t h
  obtain ⟨hp, hq⟩ := keepsDepths_step h
  exact ⟨hp, hq, t.params.cmdPositive, Nat.le_of_lt_succ t.params.cmdDepth.isLt, t.params.outPositive,
    Nat.le_of_lt_succ t.params.outDepth.isLt⟩

end Sys2Proof.Machine

/-! SUPPORT. What a step does to the units and the error record, said once: nothing, a command's effect, a refused
header, or a reset. Every law of a unit is proved from it (`keeps_of_step`). -/

namespace Sys2Proof.Machine

/-- The units and the error record agree: all of the state that a law of a unit speaks of. -/
structure SameUnits (s t : State) : Prop where
  freq : t.freq = s.freq
  tree : t.tree = s.tree
  ct : t.ct = s.ct
  enc : t.enc = s.enc
  dec : t.dec = s.dec
  err : t.err = s.err

theorem SameUnits.rfl {s : State} : SameUnits s s := ⟨.refl _, .refl _, .refl _, .refl _, .refl _, .refl _⟩

theorem OnlyWords.sameUnits {s t : State} (h : OnlyWords s t) : SameUnits s t :=
  ⟨h.freq, h.tree, h.ct, h.enc, h.dec, h.err⟩

theorem OnlyBus.sameUnits {s t : State} (h : OnlyBus s t) : SameUnits s t :=
  ⟨h.freq, h.tree, h.ct, h.enc, h.dec, h.err⟩

/-- Between the units of `s` and those of `t` lies what one step can do to them. In a state without an error, or with
a command in EXEC, that may be a command or a refused header (R190, R192); it may be a reset (R231) at any time. -/
inductive UnitsStep (s t : State) : Prop
  | same (h : SameUnits s t)
  | ran (i : Instr) (u : State) (begun : s.err.error = true → s.executing ≠ none) (h : SameUnits s u)
      (effect : Effect i u t)
  | refused (sub : BitVec 4) (w : Word) (u : State) (h : SameUnits s u)
      (raised : t = raise .illegalCommand sub w 0 w u)
  | reset (h : SameUnits State.reset t)

/-- R192: in the error state with EXEC = NONE the engine's turn moves words at most. -/
theorem engineTurn_error (k : Option Nat) {s : State} (he : s.err.error = true) (hx : s.executing = none) :
    ∃ t, engineTurn k s = .next t ∧ SameUnits s t := by
  cases hr : s.rstN with
  | false => exact ⟨_, engineTurn_low k hr, rfl, rfl, rfl, rfl, rfl, rfl⟩
  | true =>
    cases hq : s.cmdq with
    | nil => exact ⟨_, engineTurn_idle k hx hq, rfl, rfl, rfl, rfl, rfl, rfl⟩
    | cons w rest =>
      have hd := takeHeader_discards w rest (s := { s with grant := k }) he
      exact ⟨_, (engineTurn_take k hr hx hq).trans hd, rfl, rfl, rfl, rfl, rfl, rfl⟩

theorem engineTurn_units {k : Option Nat} {s t : State} (h : engineTurn k s = .next t) : UnitsStep s t := by
  by_cases hd : s.err.error = true ∧ s.executing = none
  · obtain ⟨u, e, hu⟩ := engineTurn_error k hd.1 hd.2
    exact .same (Host.Outcome.next.inj (e ▸ h) ▸ hu)
  · rcases engineTurn_cases k s with ⟨u, hu, e⟩ | ⟨i, u, hu, e⟩ | ⟨u, sub, w, hu, e⟩
    · exact .same (Host.Outcome.next.inj (e ▸ h) ▸ hu.sameUnits)
    · exact .ran i u (fun he hx => hd ⟨he, hx⟩) hu.sameUnits (exec_effect (e ▸ h))
    · exact .refused sub w u hu.sameUnits (Host.Outcome.next.inj (e ▸ h)).symm

theorem hostTurn_units (s : State) : UnitsStep s (hostTurn s) := by
  rcases hostTurn_cases s with h | ⟨p, h⟩
  · exact .same h.sameUnits
  · exact .reset (h ▸ ⟨rfl, rfl, rfl, rfl, rfl, rfl⟩)

theorem setRstN_units (level : Bool) (s : State) : UnitsStep s (setRstN level s) := by
  cases level with
  | false => exact .reset ⟨rfl, rfl, rfl, rfl, rfl, rfl⟩
  | true => exact .same ⟨rfl, rfl, rfl, rfl, rfl, rfl⟩

/-- A turn does not read the schedule's tail. -/
theorem UnitsStep.of_sched {s t : State} {ts : List Turn} (h : UnitsStep { s with sched := ts } t) :
    UnitsStep s t := by
  cases h with
  | same h => exact .same ⟨h.freq, h.tree, h.ct, h.enc, h.dec, h.err⟩
  | ran i u begun h effect => exact .ran i u begun ⟨h.freq, h.tree, h.ct, h.enc, h.dec, h.err⟩ effect
  | refused sub w u h raised => exact .refused sub w u ⟨h.freq, h.tree, h.ct, h.enc, h.dec, h.err⟩ raised
  | reset h => exact .reset h

/-- The inversion lemma of the step for the units. -/
theorem step_units {s t : State} (h : step s = .next t) : UnitsStep s t := by
  rcases step_cases s with ⟨k, ts, e⟩ | ⟨ts, e⟩ | ⟨level, ts, e⟩
  · exact (engineTurn_units (e ▸ h)).of_sched
  · exact (Host.Outcome.next.inj (e ▸ h) ▸ hostTurn_units _ : UnitsStep { s with sched := ts } t).of_sched
  · exact (Host.Outcome.next.inj (e ▸ h) ▸ setRstN_units level _ : UnitsStep { s with sched := ts } t).of_sched

/-- A law of the frequency table, the tree and the code table is kept by every step when the effect of every command
keeps it and it holds at reset. -/
theorem keeps_of_step {α : Type} (view : State → α) {P : α → Prop} (same : ∀ {s t}, SameUnits s t → view t = view s)
    (raised : ∀ code sub info bp w s, view (raise code sub info bp w s) = view s) (reset : P (view State.reset))
    (effect : ∀ {i s t}, Effect i s t → P (view s) → P (view t)) {s t : State} (h : step s = .next t)
    (hs : P (view s)) : P (view t) := by
  cases step_units h with
  | same h => exact same h ▸ hs
  | ran i u begun h e => exact effect e (same h ▸ hs)
  | refused sub w u h e => rw [e, raised, same h]; exact hs
  | reset h => exact same h ▸ reset

/-- R15, R190: a command that pushes keeps a law of what neither OUTQ and EXEC nor its last writes touch. -/
theorem emit_keeps {α : Type} (view : State → α) (P : α → Prop) {i : Instr} {bytes : List Byte}
    {final : State → State} {s : State} (hview : ∀ u q x, view { u with outq := q, executing := x } = view u)
    (hfinal : ∀ u, view (final u) = view u) (hs : P (view s)) : P (view (emit i bytes final s)) := by
  have heq : view (emit i bytes final s) = view s := by
    rcases emit_cases i bytes final s with e | ⟨x, e⟩
    · rw [e]
      exact (hview (final _) _ none).trans ((hfinal _).trans (hview s _ s.executing))
    · rw [e]
      exact hview s _ _
  rwa [heq]

theorem feedWrites_freq (f : Feed) (h : Word) (t : State) : (feedWrites f h t).freq = t.freq := by
  obtain ⟨hf, -⟩ := feedWrites_frame f h t
  exact hf

theorem feedWrites_tree (f : Feed) (h : Word) (t : State) : (feedWrites f h t).tree = t.tree := by
  obtain ⟨-, ht, -⟩ := feedWrites_frame f h t
  exact ht

theorem feedWrites_ct (f : Feed) (h : Word) (t : State) : (feedWrites f h t).ct = t.ct := by
  obtain ⟨-, -, hc, -⟩ := feedWrites_frame f h t
  exact hc

theorem feedWrites_enc (f : Feed) (h : Word) (t : State) : (feedWrites f h t).enc = t.enc := by
  obtain ⟨-, -, -, he, -⟩ := feedWrites_frame f h t
  exact he

end Sys2Proof.Machine

/-! CERTIFICATE. The command in execution: O10. -/

namespace Sys2Proof.Machine

theorem execWaits_of_none {s : State} (h : s.executing = none) : ExecWaits s :=
  fun _ he => absurd (h.symm.trans he) nofun

/-- The bytes of a command depend on the encoder, the decoder and the code table alone (R141, R142, R171). -/
theorem pushesOf_congr {s t : State} (i : Instr) (henc : t.enc = s.enc) (hdec : t.dec = s.dec) (hct : t.ct = s.ct) :
    pushesOf i t = pushesOf i s := by
  cases i with
  | encByte sym => simp only [pushesOf, encodeSym, henc, hct]
  | encFlush => simp only [pushesOf, flushBytes, henc]
  | decFeed sym => simp only [pushesOf, feedByte, hdec, hct]
  | _ => rfl

/-- Whether the command in execution waits does not depend on the queues, the enables and the host. -/
theorem ExecWaits.of_sameUnits {s t : State} (hw : ExecWaits s) (h : SameUnits s t)
    (hx : t.executing = s.executing) : ExecWaits t := by
  intro e he
  obtain ⟨herr, hop, hwait⟩ := hw e (hx ▸ he)
  refine ⟨h.err ▸ herr, h.dec ▸ hop, hwait.imp_right ?_⟩
  rintro ⟨i, hd, hp⟩
  exact ⟨i, hd, pushesOf_congr i h.enc h.dec h.ct ▸ hp⟩

/-- R85, R89: a header with exactly the extension words it asks for spells a command, and no word is left. -/
theorem decode_whole {h : Word} {ws : List Word} {op : Op} (hc : classify h = .ok op) (hn : ws.length = extCount h) :
    decode (h :: ws) = .ok (assemble op h ws, []) := by
  simp [decode, hc, ← hn]

/-- R195 (b): a command that pushes either completes or holds with bytes left. -/
theorem execWaits_emit {i : Instr} {bytes : List Byte} {final : State → State} {s : State} {e : Exec}
    (hx : s.executing = some e) (herr : s.err.error = false)
    (hop : ∃ op, classify e.header = .ok op ∧ accepted op s.dec.mode = true)
    (hd : decode (e.header :: e.taken) = .ok (i, [])) (hb : bytes = pushesOf i s) :
    ExecWaits (emit i bytes final s) := by
  have hp : progress i s = e := by rw [progress, hx, Option.getD_some]
  rcases Nat.lt_or_ge (slots s) (unpushed i bytes s).length with hs | hs
  · rw [emit_some _ hs, hp]
    intro e' he'
    obtain rfl := Option.some.inj he'
    have hlt : e.pushed + slots s < (pushesOf i s).length := by
      rw [unpushed, hp, List.length_drop, hb] at hs
      omega
    exact ⟨herr, hop, .inr ⟨i, hd, hlt.trans_eq (congrArg List.length (pushesOf_congr i rfl rfl rfl).symm)⟩⟩
  · rw [emit_all _ hs]
    exact execWaits_of_none rfl

/-- R43, R195: a command that runs completes, raises an error or holds with bytes left to push. -/
theorem Effect.execWaits {i : Instr} {s t : State} {e : Exec} (h : Effect i s t) (hx : s.executing = some e)
    (herr : s.err.error = false) (hop : ∃ op, classify e.header = .ok op ∧ accepted op s.dec.mode = true)
    (hd : decode (e.header :: e.taken) = .ok (i, [])) : ExecWaits t := by
  cases h with
  | encByte | encFlush | decFeed => exact execWaits_emit hx herr hop hd rfl
  | _ => exact execWaits_of_none rfl

/-- R191, R195: an accepted command in EXEC, with no more words than its header asks for, waits or runs. -/
theorem runCommand_execWaits {e : Exec} {s t : State} (herr : s.err.error = false)
    (hop : ∃ op, classify e.header = .ok op ∧ accepted op s.dec.mode = true)
    (hlen : e.taken.length ≤ extCount e.header) (h : runCommand e s = .next t) : ExecWaits t := by
  rcases Nat.eq_zero_or_pos (takeWords e s).1.missing with hm | hm
  · obtain ⟨op, hc, ha⟩ := hop
    have hn : (takeWords e s).1.taken.length = extCount e.header := by
      simp only [takeWords_fst, Exec.missing, List.length_append, List.length_take] at hm ⊢
      omega
    have hd := decode_whole hc hn
    rw [runCommand_runs hm hd] at h
    exact (exec_effect h).execWaits (e := (takeWords e s).1) rfl herr ⟨op, hc, ha⟩ hd
  · rw [runCommand_waits hm] at h
    obtain rfl := Host.Outcome.next.inj h
    intro e' he'
    obtain rfl := Option.some.inj he'
    exact ⟨herr, hop, .inl hm⟩

/-- R43, R89: a command in EXEC has no more words than its header asks for. -/
theorem ExecWaits.length_taken_le {s : State} {e : Exec} (hw : ExecWaits s) (hx : s.executing = some e) :
    e.taken.length ≤ extCount e.header := by
  obtain ⟨-, ⟨op, hc, -⟩, hm | ⟨i, hd, -⟩⟩ := hw e hx
  · rw [Exec.missing] at hm
    omega
  · by_contra hlt
    simp only [decode, hc, if_neg (show ¬ e.taken.length < extCount e.header by omega)] at hd
    have hrest := congrArg List.length (Prod.mk.inj (Except.ok.inj hd)).2
    rw [List.length_drop, List.length_nil] at hrest
    omega

theorem refuseWord_executing {d : DecodeError} {w : Word} {s : State} (hx : s.executing = none) :
    (refuseWord d w s).executing = none := by
  cases d with
  | unassignedOpcode | reservedNonzero => rfl
  | missingExtension | noWord => exact hx

/-- R190, R192: the word taken from CMDQ is discarded or refused, or the command it begins waits or runs. -/
theorem takeHeader_execWaits {w : Word} {rest : List Word} {s t : State} (hx : s.executing = none)
    (h : takeHeader w rest s = .next t) : ExecWaits t := by
  cases herr : s.err.error with
  | true =>
    rw [takeHeader_discards w rest herr] at h
    exact Host.Outcome.next.inj h ▸ execWaits_of_none hx
  | false =>
    cases hc : classify w with
    | error d =>
      rw [takeHeader_illegal rest herr hc] at h
      exact Host.Outcome.next.inj h ▸ execWaits_of_none (refuseWord_executing hx)
    | ok op =>
      cases ha : accepted op s.dec.mode with
      | false =>
        rw [takeHeader_refused rest herr hc ha] at h
        exact Host.Outcome.next.inj h ▸ execWaits_of_none rfl
      | true =>
        rw [takeHeader_begins rest herr hc ha] at h
        exact runCommand_execWaits (e := ⟨w, [], 0⟩) (s := beginCommand w rest s) herr ⟨op, hc, ha⟩ (Nat.zero_le _) h

theorem engineTurn_execWaits {k : Option Nat} {s t : State} (hw : ExecWaits s) (h : engineTurn k s = .next t) :
    ExecWaits t := by
  have idle : ExecWaits { s with grant := k } := hw.of_sameUnits ⟨rfl, rfl, rfl, rfl, rfl, rfl⟩ rfl
  cases hr : s.rstN with
  | false => exact Host.Outcome.next.inj (engineTurn_low k hr ▸ h) ▸ idle
  | true =>
    cases hx : s.executing with
    | some e =>
      obtain ⟨herr, hop, -⟩ := hw e hx
      exact runCommand_execWaits (s := { s with grant := k }) herr hop (hw.length_taken_le hx)
        (engineTurn_run k hr hx ▸ h)
    | none =>
      cases hq : s.cmdq with
      | nil => exact Host.Outcome.next.inj (engineTurn_idle k hx hq ▸ h) ▸ idle
      | cons w rest => exact takeHeader_execWaits (s := { s with grant := k }) hx (engineTurn_take k hr hx hq ▸ h)

theorem hostTurn_execWaits {s : State} (hw : ExecWaits s) : ExecWaits (hostTurn s) := by
  rcases hostTurn_cases s with h | ⟨p, h⟩
  · exact hw.of_sameUnits h.sameUnits h.executing
  · exact execWaits_of_none (by rw [h]; rfl)

theorem setRstN_execWaits {s : State} (level : Bool) (hw : ExecWaits s) : ExecWaits (setRstN level s) := by
  cases level with
  | false => exact execWaits_of_none rfl
  | true => exact hw.of_sameUnits ⟨rfl, rfl, rfl, rfl, rfl, rfl⟩ rfl

/-- Settles O10: only the engine changes EXEC, and a command it runs stays there only with a word missing or bytes left
to push. -/
theorem holdsOnlyForWordOrSlot : Obligations.HoldsOnlyForWordOrSlot := by
  intro s t hw h
  have base (ts : List Turn) : ExecWaits { s with sched := ts } :=
    hw.of_sameUnits ⟨rfl, rfl, rfl, rfl, rfl, rfl⟩ rfl
  rcases step_cases s with ⟨k, ts, e⟩ | ⟨ts, e⟩ | ⟨level, ts, e⟩
  · exact engineTurn_execWaits (base ts) (e ▸ h)
  · exact Host.Outcome.next.inj (e ▸ h) ▸ hostTurn_execWaits (base ts)
  · exact Host.Outcome.next.inj (e ▸ h) ▸ setRstN_execWaits level (base ts)

end Sys2Proof.Machine

/-! SUPPORT. The arena BUILD writes can be walked (42_tree_builder.md R110 to R121, 43_code_table.md R125). -/

namespace Sys2Proof.Machine

/-! ## Walks of the arena -/

/-- R125: the walk from handle `i` ends within `fuel` levels, and meets handles below `m` alone. -/
inductive Walks (node : Vector Node Config.nodeMax) (m : Nat) : Nat → BitVec 9 → Prop
  | leaf {fuel i sym f} (hi : i.toNat < m) (hn : node[i.toNat]? = some (.leaf sym f)) : Walks node m (fuel + 1) i
  | internal {fuel i f l r} (hi : i.toNat < m) (hn : node[i.toNat]? = some (.internal f l r))
      (hl : Walks node m fuel l) (hr : Walks node m fuel r) : Walks node m (fuel + 1) i

theorem Walks.succ {node : Vector Node Config.nodeMax} {m fuel : Nat} {i : BitVec 9} (h : Walks node m fuel i) :
    Walks node m (fuel + 1) i := by
  induction h with
  | leaf hi hn => exact .leaf hi hn
  | internal hi hn _ _ hl hr => exact .internal hi hn hl hr

theorem Walks.mono_fuel {node : Vector Node Config.nodeMax} {m fuel fuel' : Nat} {i : BitVec 9}
    (h : Walks node m fuel i) (hle : fuel ≤ fuel') : Walks node m fuel' i := by
  induction hle with
  | refl => exact h
  | step _ ih => exact ih.succ

/-- A record written at a handle the walk does not meet leaves the walk as it was. -/
theorem Walks.setIfInBounds {node : Vector Node Config.nodeMax} {m fuel : Nat} {i : BitVec 9}
    (h : Walks node m fuel i) (x : Node) : Walks (node.setIfInBounds m x) (m + 1) fuel i := by
  have kept {j : Nat} (hj : j < m) : (node.setIfInBounds m x)[j]? = node[j]? := by
    rw [Vector.getElem?_setIfInBounds_ne (by omega)]
  induction h with
  | leaf hi hn => exact .leaf (Nat.lt_succ_of_lt hi) ((kept hi).trans hn)
  | internal hi hn _ _ hl hr => exact .internal (Nat.lt_succ_of_lt hi) ((kept hi).trans hn) hl hr

theorem Walks.visit_isSome {node : Vector Node Config.nodeMax} {m fuel : Nat} {i : BitVec 9}
    (h : Walks node m fuel i) (p : Bits) : (visit node fuel i p).isSome = true := by
  induction h generalizing p with
  | leaf _ hn => simp only [visit, hn, Option.isSome_some]
  | internal _ hn _ _ hl hr =>
    obtain ⟨below, hb⟩ := Option.isSome_iff_exists.1 (hl (p ++ [false]))
    obtain ⟨above, ha⟩ := Option.isSome_iff_exists.1 (hr (p ++ [true]))
    simp only [visit, hn, hb, ha, Option.isSome_some]

/-- R121, R125: GEN_CODES can walk a tree whose walk ends within L_MAX + 1 levels. -/
theorem Walks.treeWalkable {t : Tree} {m : Nat} (h : Walks t.node m (Config.lMax + 1) t.root) : TreeWalkable t := by
  intro _
  unfold treeCodes
  split
  · rfl
  · exact h.visit_isSome []

/-! ## The passes of the builder -/

/-- Every handle in the collection is below `next`, and the walk from it ends within `fuel` levels. -/
def Builder.Grown (b : Builder) (fuel : Nat) : Prop := ∀ e ∈ b.heap, Walks b.node b.next fuel e.handle

theorem mem_of_popMin {es rest : List HeapEntry} {m : HeapEntry} (h : popMin es = some (m, rest)) :
    m ∈ es ∧ ∀ e ∈ rest, e ∈ es := by
  induction es generalizing m rest with
  | nil => cases h
  | cons e es ih =>
    cases hp : popMin es with
    | none =>
      simp only [popMin, hp, Option.some.injEq, Prod.mk.injEq] at h
      obtain ⟨rfl, rfl⟩ := h
      simp
    | some r =>
      obtain ⟨hm, hrest⟩ := ih hp
      simp only [popMin, hp] at h
      split at h
      all_goals
        simp only [Option.some.injEq, Prod.mk.injEq] at h
        obtain ⟨rfl, rfl⟩ := h
      · exact ⟨List.mem_cons_self, fun x hx => List.mem_cons_of_mem _ hx⟩
      · refine ⟨List.mem_cons_of_mem _ hm, fun x hx => ?_⟩
        rcases List.mem_cons.1 hx with rfl | hx
        · exact List.mem_cons_self
        · exact List.mem_cons_of_mem _ (hrest x hx)

/-- The record just written at a handle inside the arena is read back. -/
theorem getElem?_setIfInBounds_handle {node : Vector Node Config.nodeMax} {k : Nat} (x : Node)
    (hk : k < Config.nodeMax) : (node.setIfInBounds k x)[(BitVec.ofNat 9 k).toNat]? = some x := by
  rw [BitVec.toNat_ofNat, Nat.mod_eq_of_lt (by unfold Config.nodeMax at hk; omega),
    Vector.getElem?_setIfInBounds_self_of_lt hk]

theorem ofNat_handle_lt {k : Nat} (hk : k < Config.nodeMax) : (BitVec.ofNat 9 k).toNat < k + 1 := by
  rw [BitVec.toNat_ofNat, Nat.mod_eq_of_lt (by unfold Config.nodeMax at hk; omega)]
  omega

/-- R111: a leaf joins the collection. -/
theorem addLeaf_grown {f : FreqTable} {b : Builder} (sym : Byte) (h : b.Grown 1) (hn : b.next < Config.nodeMax) :
    (addLeaf f b sym).Grown 1 := by
  intro e he
  rcases List.mem_append.1 he with he | he
  · exact (h e he).setIfInBounds _
  · obtain rfl := List.mem_singleton.1 he
    exact .leaf (ofNat_handle_lt hn) (getElem?_setIfInBounds_handle _ hn)

theorem addLeaf_next (f : FreqTable) (b : Builder) (sym : Byte) : (addLeaf f b sym).next = b.next + 1 := rfl

theorem foldl_addLeaf_grown {f : FreqTable} (syms : List Byte) {b : Builder} (h : b.Grown 1)
    (hn : b.next + syms.length ≤ Config.nodeMax) :
    (syms.foldl (addLeaf f) b).Grown 1 ∧ (syms.foldl (addLeaf f) b).next = b.next + syms.length ∧
      (syms ≠ [] → (syms.foldl (addLeaf f) b).heap ≠ []) := by
  induction syms using List.reverseRecOn with
  | nil => exact ⟨h, rfl, fun hne => absurd rfl hne⟩
  | append_singleton syms sym ih =>
    rw [List.length_append, List.length_singleton] at hn
    obtain ⟨hg, hnext, -⟩ := ih (by omega)
    rw [List.foldl_append, List.foldl_cons, List.foldl_nil, List.length_append, List.length_singleton]
    exact ⟨addLeaf_grown sym hg (by omega), by rw [addLeaf_next, hnext]; rfl, fun _ => by simp [addLeaf]⟩

/-- What one pass can do, said once: nothing, or two nodes of the collection become the children of a new one. -/
theorem mergePass_cases (b : Builder) :
    mergePass b = b ∨ ∃ x ∈ b.heap, ∃ y ∈ b.heap, ∃ rest : List HeapEntry, (∀ e ∈ rest, e ∈ b.heap) ∧
      mergePass b =
        { node := b.node.setIfInBounds b.next (.internal (x.freq + y.freq) x.handle y.handle)
          heap := rest ++ [{ freq := x.freq + y.freq, handle := BitVec.ofNat 9 b.next }]
          next := b.next + 1 } := by
  unfold mergePass
  split
  · exact .inl rfl
  · rename_i x heap₁ hx
    obtain ⟨hxm, hxr⟩ := mem_of_popMin hx
    split
    · exact .inl rfl
    · rename_i y heap₂ hy
      obtain ⟨hym, hyr⟩ := mem_of_popMin hy
      exact .inr ⟨x, hxm, y, hxr y hym, heap₂, fun e he => hxr e (hyr e he), rfl⟩

/-- R113, R114: a pass adds one level at most, takes one handle at most and leaves the collection non-empty. -/
theorem mergePass_grown {b : Builder} {fuel : Nat} (h : b.Grown fuel) (hn : b.next < Config.nodeMax) :
    (mergePass b).Grown (fuel + 1) ∧ (mergePass b).next ≤ b.next + 1 ∧ (b.heap ≠ [] → (mergePass b).heap ≠ []) := by
  rcases mergePass_cases b with e | ⟨x, hx, y, hy, rest, hrest, e⟩
  · rw [e]
    exact ⟨fun a ha => (h a ha).succ, Nat.le_succ _, id⟩
  · rw [e]
    refine ⟨fun a ha => ?_, Nat.le_refl _, fun _ => by simp⟩
    rcases List.mem_append.1 ha with ha | ha
    · exact ((h a (hrest a ha)).setIfInBounds _).succ
    · obtain rfl := List.mem_singleton.1 ha
      exact .internal (ofNat_handle_lt hn) (getElem?_setIfInBounds_handle _ hn) ((h x hx).setIfInBounds _)
        ((h y hy).setIfInBounds _)

theorem mergePasses_grown {n fuel : Nat} {b : Builder} (h : b.Grown fuel) (hn : b.next + n ≤ Config.nodeMax)
    (hne : b.heap ≠ []) : ∃ m, (mergePasses n b).heap ≠ [] ∧
      ∀ e ∈ (mergePasses n b).heap, Walks (mergePasses n b).node m (fuel + n) e.handle := by
  induction n generalizing b fuel with
  | zero => exact ⟨b.next, hne, h⟩
  | succ n ih =>
    obtain ⟨hg, hnext, hheap⟩ := mergePass_grown h (by omega)
    obtain ⟨m, hne', hw⟩ := ih hg (by omega) (hheap hne)
    exact ⟨m, hne', fun e he => (hw e he).mono_fuel (by omega)⟩

theorem length_presentSymbols_le (f : FreqTable) : (presentSymbols f).length ≤ 256 :=
  (List.length_filter_le _ _).trans (by simp [allSymbols])

/-- R110, R121: with a symbol present BUILD's tree can be walked: at most 256 leaves take at most 255 passes. -/
theorem buildTree_walkable {f : FreqTable} (node : Vector Node Config.nodeMax) (hne : presentSymbols f ≠ []) :
    TreeWalkable (buildTree f node) := by
  have hlen := length_presentSymbols_le f
  have hpos := List.length_pos_iff.2 hne
  obtain ⟨hg, hnext, hheap⟩ := foldl_addLeaf_grown (f := f) (presentSymbols f) (b := ⟨node, [], 0⟩) nofun
    (by simp only [Config.nodeMax]; omega)
  obtain ⟨m, hne', hw⟩ := mergePasses_grown (n := (presentSymbols f).length - 1) hg
    (by rw [hnext]; simp only [Config.nodeMax]; omega) (hheap hne)
  obtain ⟨e, es, he⟩ := List.exists_cons_of_ne_nil hne'
  have hroot : (buildTree f node).root = e.handle := by
    simp only [buildTree, leafBuilder, he, List.head?_cons, Option.map_some, Option.getD_some]
  refine Walks.treeWalkable (m := m) (hroot ▸ ?_)
  exact (hw e (he ▸ List.mem_cons_self)).mono_fuel (by simp only [Config.lMax]; omega)

end Sys2Proof.Machine

/-! CERTIFICATE. The tree: O23, O12. -/

namespace Sys2Proof.Machine

theorem treeWalkable_reset : TreeWalkable State.reset.tree := nofun

/-- R28, R119, R132: BUILD writes a tree that can be walked, GEN_CODES discards it, no other command touches it. -/
theorem Effect.treeWalkable {i : Instr} {s t : State} (h : Effect i s t) (hs : TreeWalkable s.tree) :
    TreeWalkable t.tree := by
  cases h with
  | build _ some => exact buildTree_walkable _ (List.isEmpty_eq_false_iff.1 some)
  | genCodes => exact nofun
  | encByte | encFlush => exact emit_keeps State.tree TreeWalkable (fun _ _ _ => rfl) (fun _ => rfl) hs
  | decFeed => exact emit_keeps State.tree TreeWalkable (fun _ _ _ => rfl) (feedWrites_tree _ _) hs
  | _ => exact hs

/-- Settles O23: the tree BUILD writes has a walk of at most 256 levels. -/
theorem stepKeepsTree : Obligations.StepKeepsTree := fun _ _ hs h =>
  keeps_of_step State.tree SameUnits.tree (fun _ _ _ _ _ _ => rfl) treeWalkable_reset Effect.treeWalkable h hs

/-- Settles O12: the only stop is GEN_CODES over an arena without a tree, which the premise rules out. That an idle or
holding engine has a turn is the model's choice (log 2). -/
theorem everyStepGoesOn : Obligations.EveryStepGoesOn := by
  intro s hw
  rcases step_cases s with ⟨k, ts, e⟩ | ⟨ts, e⟩ | ⟨level, ts, e⟩
  · rw [e]
    rcases engineTurn_cases k { s with sched := ts } with ⟨t, -, e⟩ | ⟨i, u, hu, e⟩ | ⟨t, sub, w, -, e⟩
    · exact ⟨t, e⟩
    · rcases exec_stops_only_in_genCodes i u with ⟨t, ht⟩ | ⟨-, hv, hnone, -⟩
      · exact ⟨t, e.trans ht⟩
      · have := (hu.tree ▸ hw) hv
        rw [hnone] at this
        cases this
    · exact ⟨_, e⟩
  · exact ⟨_, e⟩
  · exact ⟨_, e⟩

end Sys2Proof.Machine

/-! CERTIFICATE. The counters and their sum: O17. -/

namespace Sys2Proof.Machine

/-- The sum of the counters of the symbols in `syms`. -/
def countSum (count : Table Word) (syms : List Byte) : Nat := (syms.map fun sym => (entry count sym).toNat).sum

theorem countSum_setEntry_of_notMem (count : Table Word) {sym : Byte} {syms : List Byte} (v : Word)
    (h : sym ∉ syms) : countSum (setEntry count sym v) syms = countSum count syms := by
  refine congrArg List.sum (List.map_congr_left fun x hx => ?_)
  rw [entry_setEntry_other _ _ (ne_of_mem_of_not_mem hx h)]

/-- A new value of one counter changes the sum by what it changes the counter. -/
theorem countSum_setEntry (count : Table Word) {sym : Byte} {syms : List Byte} (v : Word) (hd : syms.Nodup)
    (h : sym ∈ syms) :
    countSum (setEntry count sym v) syms + (entry count sym).toNat = countSum count syms + v.toNat := by
  obtain ⟨before, after, rfl⟩ := List.append_of_mem h
  obtain ⟨-, hafter, hdisj⟩ := List.nodup_append.1 hd
  have hb := countSum_setEntry_of_notMem count v fun hm => hdisj sym hm sym List.mem_cons_self rfl
  have ha := countSum_setEntry_of_notMem count v (List.nodup_cons.1 hafter).1
  simp only [countSum, List.map_append, List.map_cons, List.sum_append, List.sum_cons, entry_setEntry_same] at ha hb ⊢
  omega

theorem entry_le_countSum (count : Table Word) {sym : Byte} {syms : List Byte} (h : sym ∈ syms) :
    (entry count sym).toNat ≤ countSum count syms :=
  List.le_sum_of_mem (List.mem_map_of_mem h)

theorem freqSumsToTotal_empty : FreqSumsToTotal FreqTable.empty := by
  simp [FreqSumsToTotal, List.map_const']

/-- R102: one more occurrence raises one counter and TOTAL by 1; below the limit of TOTAL neither wraps. -/
theorem freqSumsToTotal_add {f : FreqTable} (sym : Byte) (h : FreqSumsToTotal f) (room : f.total ≠ 0xFFFFFFFF) :
    FreqSumsToTotal (f.add sym) := by
  have htotal : countSum f.count allSymbols = f.total.toNat := h
  have hle := entry_le_countSum f.count (mem_allSymbols sym)
  have hroom : f.total.toNat < 2 ^ 32 - 1 := by bv_omega
  have hbelow : (entry f.count sym).toNat < 2 ^ 32 - 1 := by omega
  have hcount : (entry f.count sym + 1).toNat = (entry f.count sym).toNat + 1 := by bv_omega
  have hnew : (f.total + 1).toNat = f.total.toNat + 1 := by bv_omega
  have hsum := countSum_setEntry f.count (entry f.count sym + 1) nodup_allSymbols (mem_allSymbols sym)
  show countSum (setEntry f.count sym (entry f.count sym + 1)) allSymbols = (f.total + 1).toNat
  omega

/-- R24, R101, R102: FREQ_CLEAR and FREQ_ACC keep the sum, no other command touches the counters. -/
theorem Effect.freqSumsToTotal {i : Instr} {s t : State} (h : Effect i s t) (hs : FreqSumsToTotal s.freq) :
    FreqSumsToTotal t.freq := by
  cases h with
  | freqClear => exact freqSumsToTotal_empty
  | freqAcc sym _ room => exact freqSumsToTotal_add sym hs room
  | encByte | encFlush => exact emit_keeps State.freq FreqSumsToTotal (fun _ _ _ => rfl) (fun _ => rfl) hs
  | decFeed => exact emit_keeps State.freq FreqSumsToTotal (fun _ _ _ => rfl) (feedWrites_freq _ _) hs
  | _ => exact hs

/-- Settles O17: FREQ_ACC raises a counter and TOTAL together. -/
theorem stepKeepsFreqSum : Obligations.StepKeepsFreqSum := fun _ _ hs h =>
  keeps_of_step State.freq SameUnits.freq (fun _ _ _ _ _ _ => rfl) freqSumsToTotal_empty Effect.freqSumsToTotal h hs

end Sys2Proof.Machine

/-! SUPPORT. The code table that GEN_CODES writes (43_code_table.md R125): the paths of a walk differ, and so do the
codes of two symbols. -/

namespace Sys2Proof.Machine

/-- R125: the paths of a walk begin with the path it starts from, are as long as the levels allow and differ from each
other. -/
theorem visit_paths {node : Vector Node Config.nodeMax} {fuel : Nat} {i : BitVec 9} {p : Bits}
    {codes : List (Byte × Bits)} (h : visit node fuel i p = some codes) :
    (codes.map Prod.snd).Nodup ∧ ∀ c ∈ codes, p <+: c.2 ∧ c.2.length < p.length + fuel := by
  induction fuel generalizing i p codes with
  | zero => cases h
  | succ fuel ih =>
    rw [visit] at h
    split at h
    case h_1 => cases h
    case h_2 sym f _ =>
      obtain rfl := Option.some.inj h
      simp
    case h_3 f l r _ =>
      split at h
      case h_1 => cases h
      case h_2 below hb =>
        split at h
        case h_1 => cases h
        case h_2 above ha =>
          obtain rfl := Option.some.inj h
          obtain ⟨hbn, hbp⟩ := ih hb
          obtain ⟨han, hap⟩ := ih ha
          refine ⟨?_, fun c hc => ?_⟩
          · rw [List.map_append, List.nodup_append]
            refine ⟨hbn, han, fun q hq q' hq' e => ?_⟩
            obtain ⟨c, hc, rfl⟩ := List.mem_map.1 hq
            obtain ⟨c', hc', rfl⟩ := List.mem_map.1 hq'
            have heq := List.IsPrefix.eq_of_length ((List.prefix_of_prefix_length_le (hbp c hc).1
              (e ▸ (hap c' hc').1)) (by simp)) (by simp)
            simp at heq
          · have step (b : Bool) (hp : p ++ [b] <+: c.2 ∧ c.2.length < (p ++ [b]).length + fuel) :
                p <+: c.2 ∧ c.2.length < p.length + (fuel + 1) := by
              refine ⟨(List.prefix_append p [b]).trans hp.1, ?_⟩
              have := hp.2
              rw [List.length_append, List.length_singleton] at this
              omega
            rcases List.mem_append.1 hc with hc | hc
            · exact step false (hbp c hc)
            · exact step true (hap c hc)

/-- R121, R125, R126: the codes of a tree differ, and none is longer than L_MAX bits. -/
theorem treeCodes_paths {t : Tree} {codes : List (Byte × Bits)} (h : treeCodes t = some codes) :
    (codes.map Prod.snd).Nodup ∧ ∀ c ∈ codes, c.2.length ≤ 255 := by
  unfold treeCodes at h
  split at h
  · obtain rfl := Option.some.inj h
    simp
  · obtain ⟨hn, hp⟩ := visit_paths h
    refine ⟨hn, fun c hc => ?_⟩
    have := (hp c hc).2
    simp only [Config.lMax, List.length_nil] at this
    omega

theorem codesCanonical_empty : CodesCanonical CodeTable.empty := fun sym k _ => by simp

theorem codesDistinct_empty : CodesDistinct CodeTable.empty := fun _ _ _ hx => absurd (CodeTable.empty_len _) hx

/-- R14, R30: a code is stored zero-filled. -/
theorem codesCanonical_put {ct : CodeTable} (sym : Byte) {p : Bits} (h : CodesCanonical ct) (hp : p.length ≤ 255) :
    CodesCanonical (ct.put sym p) := by
  intro r k hk
  rw [put_len] at hk
  rw [put_bits]
  split at hk
  case isTrue hr =>
    rw [BitVec.toNat_ofNat, Nat.mod_eq_of_lt (by omega)] at hk
    rw [if_pos hr, getMsbD_store _ _ _ (by omega), List.getD_eq_default _ _ hk]
  case isFalse hr =>
    rw [if_neg hr]
    exact h r k hk

theorem put_len_other (ct : CodeTable) {s r : Byte} (p : Bits) (h : r ≠ s) :
    entry (ct.put s p).len r = entry ct.len r := by rw [put_len, if_neg h]

/-- R31: a code that no other symbol has keeps the codes distinct. -/
theorem codesDistinct_put {ct : CodeTable} {sym : Byte} {p : Bits} (h : CodesDistinct ct) (hp : p.length ≤ 255)
    (fresh : ∀ r, r ≠ sym → entry ct.len r ≠ 0 → ct.code r ≠ p) : CodesDistinct (ct.put sym p) := by
  intro x y hxy hx hy
  by_cases hxs : x = sym
  · have hys : y ≠ sym := fun e => hxy (hxs.trans e.symm)
    rw [hxs, put_code_same _ _ _ hp, put_code_other _ _ hys]
    exact (fresh y hys (put_len_other _ _ hys ▸ hy)).symm
  · rw [put_code_other _ _ hxs]
    by_cases hys : y = sym
    · rw [hys, put_code_same _ _ _ hp]
      exact fresh x hxs (put_len_other _ _ hxs ▸ hx)
    · rw [put_code_other _ _ hys]
      exact h x y hxy (put_len_other _ _ hxs ▸ hx) (put_len_other _ _ hys ▸ hy)

/-- R125: a table written from a list of codes is zero-filled, and each of its codes is in the list. -/
theorem tableOf_codes {codes : List (Byte × Bits)} (hlen : ∀ c ∈ codes, c.2.length ≤ 255) :
    CodesCanonical (tableOf codes) ∧
      ∀ sym, entry (tableOf codes).len sym ≠ 0 → (sym, (tableOf codes).code sym) ∈ codes := by
  induction codes using List.reverseRecOn with
  | nil => exact ⟨codesCanonical_empty, fun sym h => absurd (CodeTable.empty_len sym) h⟩
  | append_singleton codes c ih =>
    obtain ⟨hcan, hmem⟩ := ih fun c' hc' => hlen c' (List.mem_append_left _ hc')
    have hc : c.2.length ≤ 255 := hlen c (List.mem_append_right _ List.mem_cons_self)
    have heq : tableOf (codes ++ [c]) = (tableOf codes).put c.1 c.2 := by simp [tableOf]
    rw [heq]
    refine ⟨codesCanonical_put _ hcan hc, fun sym h => ?_⟩
    by_cases hs : sym = c.1
    · rw [hs, put_code_same _ _ _ hc]
      exact List.mem_append_right _ List.mem_cons_self
    · rw [put_len_other _ _ hs] at h
      rw [put_code_other _ _ hs]
      exact List.mem_append_left _ (hmem sym h)

/-- R31: codes from paths that differ are distinct. -/
theorem codesDistinct_tableOf {codes : List (Byte × Bits)} (hlen : ∀ c ∈ codes, c.2.length ≤ 255)
    (hn : (codes.map Prod.snd).Nodup) : CodesDistinct (tableOf codes) := by
  intro x y hxy hx hy heq
  have hinj := List.inj_on_of_nodup_map hn ((tableOf_codes hlen).2 x hx) ((tableOf_codes hlen).2 y hy) heq
  exact hxy (congrArg Prod.fst hinj)

end Sys2Proof.Machine

/-! CERTIFICATE. The code table: O39. -/

namespace Sys2Proof.Machine

/-- R30, R31: storage beyond a code is zero, and no two symbols have the same code. -/
def CodeTableLaws (ct : CodeTable) : Prop := CodesCanonical ct ∧ CodesDistinct ct

theorem codeTableLaws_empty : CodeTableLaws CodeTable.empty := ⟨codesCanonical_empty, codesDistinct_empty⟩

/-- R159: where no symbol holds the code of a record, it is the code of no symbol. -/
theorem code_ne_of_holder {ct : CodeTable} {len : Byte} {c : Bits} (h : ct.holder len c = none)
    (hc : c.length = len.toNat) (r : Byte) : ct.code r ≠ c := by
  intro heq
  have hlen : entry ct.len r = len := by
    apply BitVec.eq_of_toNat_eq
    rw [← length_code, heq, hc]
  have := List.find?_eq_none.1 h r (mem_allSymbols r)
  rw [CodeTable.code, hlen] at heq
  simp [hlen, heq] at this

/-- R155, R156, R159: CT_LOAD of a record that passes the checks keeps the laws. -/
theorem codeTableLaws_load {ct : CodeTable} (sym : Byte) {len : Byte} {data : List Word} (h : CodeTableLaws ct)
    (fresh : ct.holder len (loadWords data len.toNat) = none) :
    CodeTableLaws (ct.put sym (loadWords data len.toNat)) := by
  have hlen : (loadWords data len.toNat).length = len.toNat := length_loadWords _ _
  have hp : (loadWords data len.toNat).length ≤ 255 := hlen.le.trans (Nat.le_of_lt_succ len.isLt)
  exact ⟨codesCanonical_put _ h.1 hp, codesDistinct_put h.2 hp fun r _ _ => code_ne_of_holder fresh hlen r⟩

/-- R125, R155, R156: GEN_CODES, CT_CLEAR and CT_LOAD keep the laws, no other command touches the table. -/
theorem Effect.codeTableLaws {i : Instr} {s t : State} (h : Effect i s t) (hs : CodeTableLaws s.ct) :
    CodeTableLaws t.ct := by
  cases h with
  | genCodes _ _ codes walk =>
    obtain ⟨hn, hlen⟩ := treeCodes_paths walk
    exact ⟨(tableOf_codes hlen).1, codesDistinct_tableOf hlen hn⟩
  | ctClear => exact codeTableLaws_empty
  | ctLoad sym _ _ _ _ _ fresh => exact codeTableLaws_load sym hs fresh
  | encByte | encFlush => exact emit_keeps State.ct CodeTableLaws (fun _ _ _ => rfl) (fun _ => rfl) hs
  | decFeed => exact emit_keeps State.ct CodeTableLaws (fun _ _ _ => rfl) (feedWrites_ct _ _) hs
  | _ => exact hs

/-- Settles O39: the codes GEN_CODES writes are the paths of a walk, those of CT_LOAD are checked. -/
theorem stepKeepsCodeTable : Obligations.StepKeepsCodeTable := fun _ _ hcan hdis h =>
  keeps_of_step State.ct SameUnits.ct (fun _ _ _ _ _ _ => rfl) codeTableLaws_empty Effect.codeTableLaws h
    ⟨hcan, hdis⟩

end Sys2Proof.Machine

/-! SUPPORT. The encoder's pending bits and the decoder's partial code: how they are stored (R33, R37) and what the
decoder leaves (46_decoder.md R171, R175). -/

namespace Sys2Proof.Machine

/-- R14, R33: fewer than eight pending bits are stored zero-filled. -/
theorem pendingCanonical_withPending (e : Encoder) {p : Bits} (hp : p.length < 8) :
    PendingCanonical (e.withPending p) := by
  intro k hk
  have hlen : p.length ≤ k := by
    rwa [Encoder.withPending, BitVec.toNat_ofNat, Nat.mod_eq_of_lt (by omega)] at hk
  rw [Encoder.withPending, getMsbD_store _ _ _ (by omega), List.getD_eq_default _ _ hlen]

/-- R14, R37: a partial code of at most L_MAX bits is stored zero-filled. -/
theorem partialCanonical_withPartial (d : Decoder) {p : Bits} (hp : p.length ≤ 255) :
    PartialCanonical (d.withPartial p) := by
  intro k hk
  have hlen : p.length ≤ k := by
    rwa [Decoder.withPartial, BitVec.toNat_ofNat, Nat.mod_eq_of_lt (by omega)] at hk
  rw [Decoder.withPartial, getMsbD_store _ _ _ (by omega), List.getD_eq_default _ _ hlen]

/-- R37: a partial code of at most L_MAX bits reads back. -/
theorem partialCode_withPartial (d : Decoder) {p : Bits} (hp : p.length ≤ 255) :
    (d.withPartial p).partialCode = p := by
  rw [Decoder.partialCode, Decoder.withPartial, BitVec.toNat_ofNat, Nat.mod_eq_of_lt (by omega)]
  exact load_store 256 p (by omega)

/-- R174: a live partial code is shorter than L_MAX. -/
theorem length_lt_of_live {ct : CodeTable} {p : Bits} (h : ct.live p = true) : p.length < 255 := by
  obtain ⟨s, hs, -⟩ := (live_iff ct p).1 h
  exact hs.trans_le (Nat.le_of_lt_succ (entry ct.len s).isLt)

/-- R37, R175: the partial code is empty or live. -/
def EmptyOrLive (ct : CodeTable) (p : Bits) : Prop := p = [] ∨ ct.live p = true

theorem EmptyOrLive.length_lt {ct : CodeTable} {p : Bits} (h : EmptyOrLive ct p) : p.length < 255 := by
  rcases h with rfl | h
  · decide
  · exact length_lt_of_live h

theorem emptyOrLive_partialCode {d : Decoder} {ct : CodeTable} :
    EmptyOrLive ct d.partialCode ↔ d.plen = 0 ∨ ct.live d.partialCode = true := by
  refine or_congr_left ?_
  rw [← List.length_eq_zero_iff, Decoder.partialCode, length_load, ← BitVec.toNat_inj]
  rfl

/-- R171, R175: from an empty or live partial code the decoder leaves one that fits the storage, owes no more symbols
than before and, unless it meets a dead one, leaves an empty or live one. -/
theorem feedBits_law (ct : CodeTable) (bs : Bits) (remaining : Word) {p : Bits} (hp : EmptyOrLive ct p) :
    (feedBits ct bs remaining p).rest.length ≤ 255 ∧ (feedBits ct bs remaining p).remaining ≤ remaining ∧
      ((feedBits ct bs remaining p).dead = none → EmptyOrLive ct (feedBits ct bs remaining p).rest) := by
  have unchanged {r : Word} {q : Bits} (hq : EmptyOrLive ct q) :
      q.length ≤ 255 ∧ r ≤ r ∧ (none = (none : Option Nat) → EmptyOrLive ct q) :=
    ⟨hq.length_lt.le, BitVec.le_refl _, fun _ => hq⟩
  induction bs generalizing remaining p with
  | nil => exact unchanged hp
  | cons b bs ih =>
    rw [feedBits]
    split
    case isTrue h0 => exact unchanged hp
    case isFalse h0 =>
      split
      case h_1 s _ =>
        obtain ⟨hlen, hle, hlive⟩ := ih (remaining - 1) (.inl rfl)
        exact ⟨hlen, by bv_omega, hlive⟩
      case h_2 =>
        split
        case isTrue hl => exact ih remaining (.inr hl)
        case isFalse =>
          have := hp.length_lt
          exact ⟨by simp; omega, BitVec.le_refl _, nofun⟩

end Sys2Proof.Machine

/-! CERTIFICATE. The laws of the encoder, the decoder and the error record: O47. -/

namespace Sys2Proof.Machine

/-- The laws speak of the encoder, the decoder, the code table and the record alone. -/
theorem UnitsInv.congr {s t : State} (h : UnitsInv s) (henc : PendingCanonical t.enc) (hdec : t.dec = s.dec)
    (hct : t.ct = s.ct) (herr : t.err = s.err) : UnitsInv t where
  pending := henc
  partialStored := hdec ▸ h.partialStored
  partialLive := by
    have := h.partialLive
    rwa [PartialLive, ← hdec, ← hct, ← herr] at this
  record := herr ▸ h.record

theorem UnitsInv.of_sameUnits {s t : State} (h : UnitsInv s) (hu : SameUnits s t) : UnitsInv t :=
  h.congr (hu.enc ▸ h.pending) hu.dec hu.ct hu.err

/-- In IDLE mode the code table may change. -/
theorem unitsInv_of_idle {s : State} (henc : PendingCanonical s.enc) (hdec : PartialCanonical s.dec)
    (hm : s.dec.mode = .idle) (herr : RecordClear s.err) : UnitsInv s where
  pending := henc
  partialStored := hdec
  partialLive := fun hd => absurd (hm.symm.trans hd) nofun
  record := herr

/-- After an error nothing is claimed of the partial code and the record (R175, R209). -/
theorem unitsInv_of_error {s : State} (henc : PendingCanonical s.enc) (hdec : PartialCanonical s.dec)
    (he : s.err.error = true) : UnitsInv s where
  pending := henc
  partialStored := hdec
  partialLive := fun _ h => absurd (he.symm.trans h) nofun
  record := fun h => absurd (he.symm.trans h) nofun

theorem unitsInv_reset : UnitsInv State.reset :=
  unitsInv_of_idle (fun k _ => by simp [State.reset]) (fun k _ => by simp [State.reset]) rfl fun _ => rfl

/-- A command that pushes keeps the laws when its last writes do. -/
theorem unitsInv_emit {i : Instr} {bytes : List Byte} {final : State → State} {s : State} (hs : UnitsInv s)
    (hfinal : UnitsInv (final { s with outq := s.outq ++ unpushed i bytes s })) :
    UnitsInv (emit i bytes final s) := by
  rcases emit_cases i bytes final s with e | ⟨x, e⟩
  · rw [e]
    exact hfinal.congr hfinal.pending rfl rfl rfl
  · rw [e]
    exact hs.congr hs.pending rfl rfl rfl

/-- R141: the bits ENC_BYTE leaves pending are fewer than eight. -/
theorem length_encodeSym_pending_lt (sym : Byte) (s : State) : (encodeSym sym s).2.length < 8 :=
  (packBits_spec (s.ct.code sym) (length_pending_lt s.enc)).2

theorem feedWrites_dec (f : Feed) (h : Word) (t : State) :
    (feedWrites f h t).dec = { t.dec.withPartial f.rest with remaining := f.remaining } := by
  obtain ⟨-, -, -, -, -, -, -, -, -, -, -, -, hd⟩ := feedWrites_frame f h t
  exact hd

/-- R171: without a dead partial code DEC_FEED leaves the record alone. -/
theorem feedWrites_err_of_alive {f : Feed} (h : Word) (t : State) (hd : f.dead = none) :
    (feedWrites f h t).err = t.err := by simp only [feedWrites, hd]

/-- R171: a dead partial code is an error. -/
theorem feedWrites_error_of_dead {f : Feed} {k : Nat} (h : Word) (t : State) (hd : f.dead = some k) :
    (feedWrites f h t).err.error = true := by simp only [feedWrites, hd, raise_err]

/-- R171, R175: DEC_FEED in a state without an error keeps the laws. -/
theorem unitsInv_feedWrites {s : State} (sym : Byte) (h : Word) (hs : UnitsInv s) (hm : s.dec.mode = .decoding)
    (herr : s.err.error = false) : UnitsInv (feedWrites (feedByte sym s) h s) := by
  obtain ⟨hlive, howed⟩ := hs.partialLive hm herr
  obtain ⟨hlen, hle, halive⟩ := feedBits_law s.ct (bitsOfByte sym) s.dec.remaining (emptyOrLive_partialCode.2 hlive)
  have henc : PendingCanonical (feedWrites (feedByte sym s) h s).enc := feedWrites_enc _ h s ▸ hs.pending
  have hdec : PartialCanonical (feedWrites (feedByte sym s) h s).dec := by
    rw [feedWrites_dec]
    exact partialCanonical_withPartial s.dec hlen
  cases hd : (feedByte sym s).dead with
  | some k => exact unitsInv_of_error henc hdec (feedWrites_error_of_dead h s hd)
  | none =>
    have hcode : (feedWrites (feedByte sym s) h s).dec.partialCode = (feedByte sym s).rest := by
      rw [feedWrites_dec]
      exact partialCode_withPartial s.dec hlen
    refine ⟨henc, hdec, fun _ _ => ⟨emptyOrLive_partialCode.1 ?_, ?_⟩, feedWrites_err_of_alive h s hd ▸ hs.record⟩
    · rw [hcode, feedWrites_ct]
      exact halive hd
    · rw [feedWrites_dec]
      exact BitVec.le_trans hle howed

/-- R33, R37, R39, R175: every command in a state without an error keeps the laws. -/
theorem Effect.unitsInv {i : Instr} {s t : State} (h : Effect i s t) (hs : UnitsInv s) (herr : s.err.error = false) :
    UnitsInv t := by
  cases h with
  | raised => exact unitsInv_of_error hs.pending hs.partialStored rfl
  | nop | freqClear | freqAcc | build | encFlushNone => exact hs.congr hs.pending rfl rfl rfl
  | genCodes m | ctClear m | ctLoad _ _ _ m => exact unitsInv_of_idle hs.pending hs.partialStored m hs.record
  | encInit => exact hs.congr (fun k _ => by simp) rfl rfl rfl
  | encByte sym =>
    have henc := pendingCanonical_withPending s.enc (length_encodeSym_pending_lt sym s)
    exact unitsInv_emit hs (hs.congr henc rfl rfl rfl)
  | encFlush => exact unitsInv_emit hs (hs.congr (pendingCanonical_withPending _ (by decide)) rfl rfl rfl)
  | decStart count => exact ⟨hs.pending, fun k _ => by simp, fun _ _ => ⟨.inl rfl, BitVec.le_refl _⟩, hs.record⟩
  | decFeed sym m =>
    have fed (q : List Byte) :
        UnitsInv (feedWrites (feedByte sym s) (Instr.decFeed sym).header { s with outq := q }) :=
      unitsInv_feedWrites (s := { s with outq := q }) sym _ (hs.congr hs.pending rfl rfl rfl) m herr
    exact unitsInv_emit hs (fed _)
  | decEnd => exact unitsInv_of_idle hs.pending hs.partialStored rfl hs.record

/-- Settles O47: by the premise on EXEC a command runs in a state without an error alone, where the decoder's partial
code is empty or live. -/
theorem stepKeepsUnits : Obligations.StepKeepsUnits := by
  intro s t hs hw h
  cases step_units h with
  | same hu => exact hs.of_sameUnits hu
  | refused sub w u hu e =>
    have hs' := hs.of_sameUnits hu
    exact e ▸ unitsInv_of_error hs'.pending hs'.partialStored rfl
  | reset hu => exact unitsInv_reset.of_sameUnits hu
  | ran i u begun hu effect =>
    have herr : s.err.error = false := by
      by_contra he
      obtain ⟨e, hx⟩ := Option.ne_none_iff_exists'.1 (begun (by simpa using he))
      exact he (hw e hx).1
    exact effect.unitsInv (hs.of_sameUnits hu) (hu.err ▸ herr)

end Sys2Proof.Machine

/-! CERTIFICATE. Taking a command's words from CMDQ: O6, O8. -/

namespace Sys2Proof.Machine

/-- R89, R191 step 5: a command that finds in CMDQ the words it misses takes exactly those. -/
theorem takeWords_rest {i : Instr} (hw : WellFormed i) {s : State} {k : Nat} {rest : List Word} (hk : k ≤ i.ext.length)
    (hq : s.cmdq = i.ext.drop k ++ rest) :
    takeWords { header := i.header, taken := i.ext.take k, pushed := 0 } s =
      ({ header := i.header, taken := i.ext, pushed := 0 },
        { s with cmdq := rest, executing := some { header := i.header, taken := i.ext, pushed := 0 } }) := by
  have hm : Exec.missing { header := i.header, taken := i.ext.take k, pushed := 0 } = (i.ext.drop k).length := by
    rw [Exec.missing, extCount_header hw, List.length_take, List.length_drop, Nat.min_eq_left hk]
  simp only [takeWords, hm, hq, List.take_left, List.drop_left, List.take_append_drop]

/-- R191 step 6: at the step that finds the missing words in CMDQ the command runs. -/
theorem runCommand_rest {i : Instr} (hw : WellFormed i) {s : State} {k : Nat} {rest : List Word}
    (hk : k ≤ i.ext.length) (hq : s.cmdq = i.ext.drop k ++ rest) :
    runCommand { header := i.header, taken := i.ext.take k, pushed := 0 } s =
      exec i { s with cmdq := rest, executing := some { header := i.header, taken := i.ext, pushed := 0 } } := by
  have ht := takeWords_rest hw hk hq
  rw [runCommand_runs (by rw [ht]; exact missing_whole hw 0) (by rw [ht]; exact decode_encode hw), ht]

/-- Settles O6: the header is accepted, and its extension words are the next ones in CMDQ. -/
theorem stepRunsDecoded : Obligations.StepRunsDecoded := by
  intro s i rest hsched hr hx herr hw ha hq
  rw [step_unscheduled hsched, engineTurn_take none hr hx hq,
    takeHeader_begins (s := { s with grant := none }) _ herr (classify_header i) ha]
  exact runCommand_rest (s := beginCommand i.header (i.ext ++ rest) { s with grant := none }) hw (Nat.zero_le _) rfl

/-- R195 (a): a header with fewer words after it than it asks for takes those, and the engine holds. -/
theorem runCommand_short {h : Word} {ws : List Word} {s : State} (hn : ws.length < extCount h) (hq : s.cmdq = ws) :
    runCommand { header := h, taken := [], pushed := 0 } s =
      .next { s with cmdq := [], executing := some { header := h, taken := ws, pushed := 0 } } := by
  have ht : takeWords { header := h, taken := [], pushed := 0 } s =
      ({ header := h, taken := ws, pushed := 0 },
        { s with cmdq := [], executing := some { header := h, taken := ws, pushed := 0 } }) := by
    simp [takeWords, Exec.missing, hq, List.take_of_length_le hn.le, hn.le]
  rw [runCommand_waits (by rw [ht]; exact Nat.sub_pos_of_lt hn), ht]

/-- R195 (a): with CMDQ empty a command that misses a word holds, and nothing changes. -/
theorem runCommand_holds {e : Exec} {s : State} (hx : s.executing = some e) (hm : 0 < e.missing) (hq : s.cmdq = []) :
    runCommand e s = .next s := by
  have ht : takeWords e s = (e, s) := by
    cases s
    subst hx hq
    simp [takeWords]
  rw [runCommand_waits (by rw [ht]; exact hm), ht]

/-- Settles O8: the words there are, are taken; the next turn finds none; a turn that finds the missing ones runs the
command. That a holding engine has a turn, which changes nothing, is the model's choice (log 2). -/
theorem waitsForExtensionWords : Obligations.WaitsForExtensionWords := by
  refine ⟨?_, ?_⟩
  · intro s h ws op hsched hr hx herr hc ha hn hq t
    have hm : 0 < Exec.missing { header := h, taken := ws, pushed := 0 } := Nat.sub_pos_of_lt hn
    refine ⟨?_, rfl, ?_, ?_⟩
    · rw [step_unscheduled hsched, engineTurn_take none hr hx hq,
        takeHeader_begins (s := { s with grant := none }) _ herr hc ha]
      exact runCommand_short hn rfl
    · simp [t, State.extWait, hm]
    · rw [step_unscheduled (s := t) hsched, engineTurn_run none (s := t) hr rfl]
      exact runCommand_holds rfl hm rfl
  · intro s i k rest hsched hr hw hk hx hq
    rw [step_unscheduled hsched, engineTurn_run none hr hx]
    exact runCommand_rest (s := { s with grant := none }) hw hk.le hq

end Sys2Proof.Machine

/-! CERTIFICATE. The registers of packed fields, STATUS and the queue ports: O51, O52, O54. -/

namespace Sys2Proof.Machine

/-! ## Packed fields -/

/-- R11: a field placed right above another one makes one field with it. -/
theorem fieldAt_or_fieldAt {n m : Nat} (lo : BitVec n) (hi : BitVec m) (k : Nat) :
    fieldAt lo k ||| fieldAt hi (k + n) = fieldAt (hi ++ lo) k := by
  apply BitVec.eq_of_getLsbD_eq
  intro j hj
  rw [BitVec.getLsbD_or, getLsbD_fieldAt _ _ _ hj, getLsbD_fieldAt _ _ _ hj, getLsbD_fieldAt _ _ _ hj,
    BitVec.getLsbD_append]
  by_cases h : j - k < n
  · simp [h, show ¬ k + n ≤ j by omega]
  · simp [h, BitVec.getLsbD_of_ge lo (j - k) (by omega), show k + n ≤ j ↔ k ≤ j by omega, Nat.sub_sub]

/-- Reserved bits above a field. -/
theorem fieldAt_reserved_above {n : Nat} (v : BitVec n) (m k : Nat) :
    fieldAt v k = fieldAt ((0 : BitVec m) ++ v) k := by
  rw [← fieldAt_or_fieldAt]
  simp [fieldAt]

/-- Reserved bits below a field. -/
theorem fieldAt_reserved_below {n : Nat} (v : BitVec n) (m k : Nat) :
    fieldAt v (k + m) = fieldAt (v ++ (0 : BitVec m)) k := by
  rw [← fieldAt_or_fieldAt]
  simp [fieldAt]

/-- A field as wide as a word is the word. -/
theorem fieldAt_word (w : Word) : fieldAt w 0 = w := by simp [fieldAt]

/-- R55: LMAX, COUNT_WIDTH and the two depths side by side. -/
theorem Params.word_eq (p : Params) : p.word = p.outDepth ++ p.cmdDepth ++ (32 : Byte) ++ (255 : Byte) := by
  rw [Params.word, BitVec.or_assoc, BitVec.or_assoc, fieldAt_or_fieldAt p.cmdDepth p.outDepth 16,
    fieldAt_or_fieldAt _ _ 8, fieldAt_or_fieldAt _ _ 0]
  exact fieldAt_word _

/-- R58: CODE, SUB, OPC, ARG and BITPOS side by side. -/
theorem ErrRecord.word_eq (e : ErrRecord) :
    e.word = (0 : BitVec 5) ++ e.bitpos ++ e.arg ++ e.opc ++ e.sub ++ e.code.number := by
  rw [ErrRecord.word, BitVec.or_assoc, BitVec.or_assoc, BitVec.or_assoc, fieldAt_reserved_above e.bitpos 5 24,
    fieldAt_or_fieldAt e.arg _ 16,
    fieldAt_or_fieldAt _ _ 8, fieldAt_or_fieldAt _ _ 4, fieldAt_or_fieldAt _ _ 0]
  exact fieldAt_word _

/-- R64: ENC_ACC_LEN and the pending bits, with reserved bits between and above them. -/
theorem Encoder.accWord_eq (e : Encoder) : e.accWord = (0 : BitVec 16) ++ e.acc ++ (0 : BitVec 5) ++ e.accLen := by
  rw [Encoder.accWord, fieldAt_reserved_above e.acc 16 8, fieldAt_reserved_below _ 5 3, fieldAt_or_fieldAt _ _ 0]
  exact fieldAt_word _

/-! ## Numbers of symbols -/

/-- R25, R32: the number of symbols with a property fits a register. -/
theorem toNat_ofNat_filter_allSymbols (p : Byte → Bool) :
    (BitVec.ofNat 32 (allSymbols.filter p).length).toNat = allSymbols.countP p := by
  have hle : allSymbols.countP p ≤ 256 := List.countP_le_length.trans (by simp [allSymbols])
  rw [← List.countP_eq_length_filter, BitVec.toNat_ofNat, Nat.mod_eq_of_lt (by omega)]

/-- R67: OUT_LEVEL counts the bytes of an OUTQ within its depth. -/
theorem toNat_outLevel {s : State} (h : QueuesFit s) : (BitVec.ofNat 32 s.outq.length).toNat = s.outq.length := by
  have hle := h.2
  have hdepth := s.params.outDepth.isLt
  rw [BitVec.toNat_ofNat, Nat.mod_eq_of_lt (by omega)]

/-- R56: IRQ_EN_ERR and IRQ_EN_IDLE at bits 1 and 2. -/
theorem getLsbD_ctrlWord (c : Ctrl) {k : Nat} (hk : k < 32) :
    c.word.getLsbD k = (decide (k = 1) && c.irqEnErr || decide (k = 2) && c.irqEnIdle) := by
  rw [Ctrl.word, BitVec.getLsbD_or, getLsbD_bitAt _ hk, getLsbD_bitAt _ hk]

/-- Settles O51: PARAMS, CTRL and OUT_LEVEL are registers no command writes, the others are read with BUSY = 0. -/
theorem packedRegistersRead : Obligations.PackedRegistersRead := by
  intro s hr
  have hparams : busRead 0x004 s = (s.params.word, s) := busRead_exact (r := .params) rfl hr rfl nofun
  have hctrl : busRead 0x008 s = (s.ctrl.word, s) := busRead_exact (r := .ctrl) rfl hr rfl nofun
  have hlevel : busRead 0x03C s = (BitVec.ofNat 32 s.outq.length, s) :=
    busRead_exact (r := .outLevel) rfl hr rfl nofun
  rw [hparams, hctrl, hlevel, Params.word_eq]
  refine ⟨rfl, ⟨rfl, ?_, ?_, fun k h1 h2 => ?_⟩, ⟨rfl, toNat_outLevel⟩, fun hb => ?_⟩
  · exact (getLsbD_ctrlWord s.ctrl (by decide)).trans (by simp)
  · exact (getLsbD_ctrlWord s.ctrl (by decide)).trans (by simp)
  · by_cases hk : k < 32
    · simp [getLsbD_ctrlWord _ hk, h1, h2]
    · exact BitVec.getLsbD_of_ge _ _ (by omega)
  · have herr : busRead 0x010 s = (s.err.word, s) := busRead_idle (r := .err) rfl hr hb nofun
    have hnsym : busRead 0x01C s = (BitVec.ofNat 32 (nsym s.freq), s) := busRead_idle (r := .nsym) rfl hr hb nofun
    have hcount : busRead 0x020 s = (BitVec.ofNat 32 (ctCount s.ct), s) :=
      busRead_idle (r := .ctCount) rfl hr hb nofun
    have hacc : busRead 0x02C s = (s.enc.accWord, s) := busRead_idle (r := .encAcc) rfl hr hb nofun
    rw [herr, hnsym, hcount, hacc, ErrRecord.word_eq, Encoder.accWord_eq]
    refine ⟨rfl, ⟨rfl, ?_⟩, ⟨rfl, ?_⟩, rfl⟩
    · simp only [nsym, toNat_ofNat_filter_allSymbols, bne, ne_eq, decide_not, beq_eq_decide]
    · simp only [ctCount, toNat_ofNat_filter_allSymbols, bne, ne_eq, decide_not, beq_eq_decide]

/-! ## STATUS -/

/-- R44: BUSY. -/
theorem busy_iff (s : State) : s.busy = true ↔ s.cmdq ≠ [] ∨ s.executing ≠ none := by
  simp [State.busy, Option.isSome_iff_ne_none]

/-- R44: EXT_WAIT. -/
theorem extWait_iff (s : State) : s.extWait = true ↔
    ∃ e, s.executing = some e ∧ e.taken.length < extCount e.header ∧ s.cmdq = [] := by
  cases hx : s.executing <;> simp [State.extWait, hx, Exec.missing]

/-- R57: OUT_NONEMPTY. -/
theorem outNonempty_iff (s : State) : s.outNonempty = true ↔ s.outq ≠ [] := by simp [State.outNonempty]

/-- R57: DECODING. -/
theorem isDecoding_iff (m : Mode) : m.isDecoding = true ↔ m = .decoding := by cases m <;> decide

/-- Settles O52: STATUS is a register no command writes, and each of its bits is one of the computed bits. -/
theorem statusBits : Obligations.StatusBits := by
  intro s hr
  have hread : busRead 0x00C s = (s.status, s) := busRead_exact (r := .status) rfl hr rfl nofun
  have hbusy : s.status.getLsbD 0 = s.busy := (getLsbD_status s (by decide)).trans (by simp)
  have herror : s.status.getLsbD 1 = s.err.error := (getLsbD_status s (by decide)).trans (by simp)
  have hvalid : s.status.getLsbD 2 = s.tree.valid := (getLsbD_status s (by decide)).trans (by simp)
  have hdecoding : s.status.getLsbD 3 = s.dec.mode.isDecoding := (getLsbD_status s (by decide)).trans (by simp)
  have hwait : s.status.getLsbD 4 = s.extWait := (getLsbD_status s (by decide)).trans (by simp)
  have hout : s.status.getLsbD 5 = s.outNonempty := (getLsbD_status s (by decide)).trans (by simp)
  have hirq : s.status.getLsbD 6 = s.irq := (getLsbD_status s (by decide)).trans (by simp)
  rw [hread]
  simp only [hbusy, herror, hvalid, hdecoding, hwait, hout, hirq]
  refine ⟨trivial, busy_iff s, trivial, trivial, isDecoding_iff _, extWait_iff s, outNonempty_iff s, rfl,
    fun k hk => ?_⟩
  by_cases hk32 : k < 32
  · simp [getLsbD_status _ hk32, show k ≠ 0 by omega, show k ≠ 1 by omega, show k ≠ 2 by omega, show k ≠ 3 by omega,
      show k ≠ 4 by omega, show k ≠ 5 by omega, show k ≠ 6 by omega]
  · exact BitVec.getLsbD_of_ge _ _ (by omega)

/-! ## The queue ports -/

/-- R80: a turn of the host. -/
theorem step_host {s : State} {ts : List Turn} (h : s.sched = .host :: ts) :
    step s = .next (hostTurn { s with sched := ts }) := by
  unfold step nextTurn
  rw [h]

/-- R80: with no write waiting the host makes the next write. -/
theorem hostTurn_write {s : State} {a : Addr} {v : Word} {ops : List BusOp} (hs : s.host.stalled = none)
    (hp : s.host.pending = .write a v :: ops) : hostTurn s = hostWrite a v (withPending ops s) := by
  unfold hostTurn
  simp only [hs, hp]

/-- R69: a write that waits completes once CMDQ has a slot. -/
theorem hostTurn_retry {s : State} {v : Word} (hs : s.host.stalled = some v) (hroom : cmdRoom s = true) :
    hostTurn s = hostWrite cmdAddr v (withStalled none s) := by
  unfold hostTurn
  simp only [hs, hroom, if_true]

/-- R69: with a slot a CMD write appends its word. -/
theorem busWrite_cmd_room {s : State} (v : Word) (hr : s.rstN = true)
    (hroom : s.cmdq.length < s.params.cmdDepth.toNat) :
    busWrite cmdAddr v s = some { s with cmdq := s.cmdq ++ [v] } := by
  rw [busWrite_cmd v rfl hr, if_pos (show cmdRoom s = true from decide_eq_true hroom)]

/-- R69: without one it waits. -/
theorem busWrite_cmd_full {s : State} (v : Word) (hr : s.rstN = true)
    (hfull : s.params.cmdDepth.toNat ≤ s.cmdq.length) : busWrite cmdAddr v s = none := by
  rw [busWrite_cmd v rfl hr, if_neg (by simpa [cmdRoom] using hfull)]

theorem hostWrite_of_some {s t : State} {a : Addr} {v : Word} (h : busWrite a v s = some t) : hostWrite a v s = t := by
  rw [hostWrite, h]

theorem hostWrite_of_none {s : State} {a : Addr} {v : Word} (h : busWrite a v s = none) :
    hostWrite a v s = withStalled (some v) s := by rw [hostWrite, h]

/-- Settles O54: the ports are the bus accesses of CMD and OUT_DATA, and the host's turn keeps a write that waits. That
it is kept in the host is the model's choice (log 9). -/
theorem queuePorts : Obligations.QueuePorts := by
  intro s hr
  refine ⟨fun v => busWrite_cmd_room v hr, fun v => busWrite_cmd_full v hr, ?_, ?_, ?_, ?_⟩
  · intro b rest hq
    rw [busRead_outData rfl hr, popOut, hq]
  · intro hq
    rw [busRead_outData rfl hr, popOut, hq]
  · intro v ops ts hsched hs hp
    rw [step_host hsched, hostTurn_write (s := { s with sched := ts }) hs hp]
    refine ⟨fun hroom => congrArg _ (hostWrite_of_some (busWrite_cmd_room v hr hroom)), fun hfull => ?_⟩
    exact congrArg _ (hostWrite_of_none (busWrite_cmd_full v hr hfull))
  · intro v ts hsched hs hroom
    rw [step_host hsched, hostTurn_retry (s := { s with sched := ts }) hs (decide_eq_true hroom)]
    exact congrArg _ (hostWrite_of_some (busWrite_cmd_room v hr hroom))

end Sys2Proof.Machine

/-! CERTIFICATE. The state right after reset: O58, O59. -/

namespace Sys2Proof.Machine

/-- Settles O58: the values of `State.reset`; the depths in PARAMS are the model's choice (log 3). -/
theorem resetValues : Obligations.ResetValues := by
  have hstatus : busRead 0x00C State.reset = (State.reset.status, State.reset) :=
    busRead_exact (r := .status) rfl rfl rfl nofun
  have hparams : busRead 0x004 State.reset = (State.reset.params.word, State.reset) :=
    busRead_exact (r := .params) rfl rfl rfl nofun
  refine ⟨fun sym => ⟨FreqTable.empty_count sym, CodeTable.empty_len sym, CodeTable.empty_bits sym⟩,
    rfl, rfl, rfl, rfl, rfl, rfl, rfl, rfl, rfl, ?_, ?_⟩
  · rw [hstatus]
    decide
  · rw [hparams]
    decide

/-- Settles O59: the tables are empty, nothing is pending, no command is in EXEC and the queues are empty. -/
theorem resetMeetsInvariants : Obligations.ResetMeetsInvariants :=
  ⟨⟨freqSumsToTotal_empty, treeWalkable_reset, codesCanonical_empty, codesDistinct_empty⟩, unitsInv_reset,
    execWaits_of_none rfl, Nat.zero_le _, Nat.zero_le _⟩

end Sys2Proof.Machine

/-! SUPPORT. The register map of the bus (20_memory.md R51, R53, R74): the register of each window's addresses, and
what an access depends on. -/

namespace Sys2Proof.Machine

/-! ## The offset of an address (R51) -/

/-- Masking an address clears its bits [1:0]. -/
theorem and_offsetMask_eq_shift (a : Addr) : a &&& (0x3FFC : Addr) = a >>> 2 <<< 2 := by
  apply BitVec.eq_of_getLsbD_eq
  intro i hi
  interval_cases i <;> simp

/-- R51: the masked address is the offset that the register map looks up. -/
theorem toNat_and_offsetMask (a : Addr) : (a &&& 0x3FFC).toNat = a.toNat / 4 * 4 := by
  have ha := a.isLt
  rw [and_offsetMask_eq_shift, BitVec.toNat_shiftLeft, BitVec.toNat_ushiftRight, Nat.shiftLeft_eq,
    Nat.shiftRight_eq_div_pow]
  omega

/-- R51: address bits [1:0] do not select. -/
theorem regAt_and_offsetMask (a : Addr) : regAt (a &&& 0x3FFC) = regAt a := by
  unfold regAt
  rw [toNat_and_offsetMask, Nat.mul_div_cancel _ (by decide)]

/-! ## The windows (R53, R74) -/

/-- R53: what stands at index `x` of a window of words is found by `x` again. -/
theorem ofNat_windowIndex {n : Nat} (base : Nat) (x : BitVec n) :
    BitVec.ofNat n ((base + 4 * x.toNat - base) / 4) = x := by
  rw [Nat.add_sub_cancel_left, Nat.mul_div_cancel_left _ (by decide), BitVec.ofNat_toNat, BitVec.setWidth_eq]

theorem windowAt_decPbits (w : BitVec 3) : windowAt (0x080 + 4 * w.toNat) = .decPbits w := by
  have hw := w.isLt
  rw [windowAt, if_pos (by omega), ofNat_windowIndex]

theorem windowAt_freq (sym : Byte) : windowAt (0x400 + 4 * sym.toNat) = .freq sym := by
  have hsym := sym.isLt
  rw [windowAt, if_neg (by omega), if_pos (by omega), ofNat_windowIndex]

theorem windowAt_codeLen (sym : Byte) : windowAt (0x800 + 4 * sym.toNat) = .codeLen sym := by
  have hsym := sym.isLt
  rw [windowAt, if_neg (by omega), if_neg (by omega), if_pos (by omega), ofNat_windowIndex]

/-- R73: eight words to a symbol. -/
theorem windowAt_codeBits (sym : Byte) (w : BitVec 3) :
    windowAt (0x1000 + 32 * sym.toNat + 4 * w.toNat) = .codeBits sym w := by
  have hsym := sym.isLt
  have hw := w.isLt
  have hofSym : BitVec.ofNat 8 ((0x1000 + 32 * sym.toNat + 4 * w.toNat - 0x1000) / 32) = sym :=
    BitVec.eq_of_toNat_eq (by rw [BitVec.toNat_ofNat]; omega)
  have hofWord : BitVec.ofNat 3 ((0x1000 + 32 * sym.toNat + 4 * w.toNat - 0x1000) / 4) = w :=
    BitVec.eq_of_toNat_eq (by rw [BitVec.toNat_ofNat]; omega)
  rw [windowAt, if_neg (by omega), if_neg (by omega), if_neg (by omega), if_pos (by omega), hofSym, hofWord]

/-- R74: the offsets outside every window. -/
theorem windowAt_reserved {o : Nat}
    (h : o < 0x080 ∨ (0x0A0 ≤ o ∧ o < 0x400) ∨ (0xC00 ≤ o ∧ o < 0x1000) ∨ 0x3000 ≤ o) : windowAt o = .reserved := by
  rw [windowAt, if_neg (by omega), if_neg (by omega), if_neg (by omega), if_neg (by omega)]

theorem windowAt_ne_ctrl (o : Nat) : windowAt o ≠ .ctrl := by
  unfold windowAt
  split_ifs <;> nofun

theorem windowAt_ne_cmd (o : Nat) : windowAt o ≠ .cmd := by
  unfold windowAt
  split_ifs <;> nofun

/-! ## The register of an address (R53) -/

/-- R53: above OUT_DATA the map has windows alone. -/
theorem regAt_of_ge {a : Addr} (h : 0x048 ≤ a.toNat) : regAt a = windowAt (a.toNat / 4 * 4) := by
  unfold regAt
  split
  case h_19 => rfl
  all_goals omega

theorem offset_of_regAt_ctrl {a : Addr} (h : regAt a = .ctrl) : a.toNat / 4 * 4 = 0x008 := by
  unfold regAt at h
  split at h
  case h_3 => assumption
  case h_19 => exact absurd h (windowAt_ne_ctrl _)
  all_goals cases h

theorem offset_of_regAt_cmd {a : Addr} (h : regAt a = .cmd) : a.toNat / 4 * 4 = 0x040 := by
  unfold regAt at h
  split at h
  case h_17 => assumption
  case h_19 => exact absurd h (windowAt_ne_cmd _)
  all_goals cases h

/-- R53: the register at an aligned offset above OUT_DATA. -/
theorem regAt_of_aligned {a : Addr} {o : Nat} (ha : a.toNat = o) (hge : 0x048 ≤ o) (hdvd : 4 ∣ o) :
    regAt a = windowAt o := by
  rw [regAt_of_ge (ha ▸ hge), ha, Nat.div_mul_cancel hdvd]

/-- R68: word `w` of DEC_PBITS. -/
theorem regAt_decPbits (w : BitVec 3) : regAt (0x080 + 4 * w.setWidth 14) = .decPbits w := by
  rw [regAt_of_aligned (o := 0x080 + 4 * w.toNat) (by bv_omega) (by omega) (by omega), windowAt_decPbits]

/-- R71: FREQ[sym]. -/
theorem regAt_freq (sym : Byte) : regAt (0x400 + 4 * sym.setWidth 14) = .freq sym := by
  rw [regAt_of_aligned (o := 0x400 + 4 * sym.toNat) (by bv_omega) (by omega) (by omega), windowAt_freq]

/-- R72: CODE_LEN[sym]. -/
theorem regAt_codeLen (sym : Byte) : regAt (0x800 + 4 * sym.setWidth 14) = .codeLen sym := by
  rw [regAt_of_aligned (o := 0x800 + 4 * sym.toNat) (by bv_omega) (by omega) (by omega), windowAt_codeLen]

/-- R73: word `w` of CODE_BITS[sym]. -/
theorem regAt_codeBits (sym : Byte) (w : BitVec 3) :
    regAt (0x1000 + 32 * sym.setWidth 14 + 4 * w.setWidth 14) = .codeBits sym w := by
  rw [regAt_of_aligned (o := 0x1000 + 32 * sym.toNat + 4 * w.toNat) (by bv_omega) (by omega) (by omega),
    windowAt_codeBits]

/-! ## What an access depends on (R51, R52) -/

theorem busRead_congr {a b : Addr} (s : State) (h : regAt a = regAt b) : busRead a s = busRead b s := by
  unfold busRead
  rw [h]

theorem busWrite_congr {a b : Addr} (v : Word) (s : State) (h : regAt a = regAt b) :
    busWrite a v s = busWrite b v s := by
  unfold busWrite
  rw [h]

/-- R74: a reserved offset reads 0, whatever the level of `rst_n`. -/
theorem busRead_reserved {a : Addr} (s : State) (h : regAt a = .reserved) : busRead a s = (0, s) := by
  unfold busRead
  rw [h, if_neg (c := Reg.reserved = .outData) nofun]
  exact ite_self _

/-- R52: a write of any register but CTRL and CMD is ignored. -/
theorem busWrite_other {a : Addr} (v : Word) (s : State) (hctrl : regAt a ≠ .ctrl) (hcmd : regAt a ≠ .cmd) :
    busWrite a v s = some s := by
  rw [busWrite, if_neg hctrl, if_neg hcmd, ite_self]

end Sys2Proof.Machine

/-! CERTIFICATE. The addresses of the bus, exact and drawn reads, and the writes of CTRL: O50, O53, O55, O56. -/

namespace Sys2Proof.Machine

/-- Settles O50: the address of each register selects it, and a read of it is exact. That CMD reads 0 at every time is
an inference of the model (log 5). -/
theorem idleReadsAreExact : Obligations.IdleReadsAreExact := by
  intro s hr
  refine ⟨busRead_exact (r := .id) rfl hr rfl nofun, busRead_exact (r := .cmd) rfl hr rfl nofun, fun hb => ?_⟩
  have hlo : s.enc.bits.setWidth 32 = s.enc.bits.extractLsb' 0 32 := BitVec.setWidth_eq_extractLsb' (by decide)
  rw [hlo, BitVec.setWidth_ushiftRight_eq_extractLsb]
  refine ⟨busRead_idle (r := .errInfo) rfl hr hb nofun, busRead_idle (r := .total) rfl hr hb nofun,
    busRead_idle (r := .encBitsLo) rfl hr hb nofun, busRead_idle (r := .encBitsHi) rfl hr hb nofun,
    busRead_idle (r := .decDeclared) rfl hr hb nofun, busRead_idle (r := .decRemaining) rfl hr hb nofun,
    busRead_idle (r := .decPlen) rfl hr hb nofun, fun sym => busRead_idle (regAt_freq sym) hr hb nofun,
    fun sym => busRead_idle (regAt_codeLen sym) hr hb nofun, fun sym w => ?_, fun w => ?_⟩
  · rw [busRead_idle (regAt_codeBits sym w) hr hb nofun]
    exact ⟨rfl, fun k hk => getMsbD_storageWord (entry s.ct.bits sym) w hk⟩
  · rw [busRead_idle (regAt_decPbits w) hr hb nofun]
    exact ⟨rfl, fun k hk => getMsbD_storageWord s.dec.pbits w hk⟩

/-- Settles O53: an access depends on the register its address selects, and the masked address selects the same one. -/
theorem addressesDecoded : Obligations.AddressesDecoded := by
  intro s a v
  refine ⟨busRead_congr s (regAt_and_offsetMask a).symm, busWrite_congr v s (regAt_and_offsetMask a).symm,
    fun h => busRead_reserved s ?_, fun hctrl hcmd => busWrite_other v s (fun h => hctrl ?_) (fun h => hcmd ?_)⟩
  · simp only [BitVec.le_def, BitVec.lt_def, BitVec.reduceToNat] at h
    rw [regAt_of_ge (by omega), windowAt_reserved (by omega)]
  · exact BitVec.eq_of_toNat_eq ((toNat_and_offsetMask a).trans (offset_of_regAt_ctrl h))
  · exact BitVec.eq_of_toNat_eq ((toNat_and_offsetMask a).trans (offset_of_regAt_cmd h))

/-- Settles O55: each address selects a register that a command may write. That every such register draws whichever
command runs, and the counter of the draws, are the model's (log 5, 6). -/
theorem busyReadsDrawn : Obligations.BusyReadsDrawn := by
  intro s hr hb
  have hdraw {a : Addr} {r : Reg} {mask : Word} (ha : regAt a = r) (hmask : drawnBits r = some mask) :
      busRead a s = drawRead mask s := busRead_busy hr hb (ha ▸ hmask)
  exact ⟨hdraw (r := .err) rfl rfl, hdraw (r := .errInfo) rfl rfl, hdraw (r := .total) rfl rfl,
    hdraw (r := .nsym) rfl rfl, hdraw (r := .ctCount) rfl rfl, hdraw (r := .encBitsLo) rfl rfl,
    hdraw (r := .encBitsHi) rfl rfl, hdraw (r := .encAcc) rfl rfl, hdraw (r := .decDeclared) rfl rfl,
    hdraw (r := .decRemaining) rfl rfl, hdraw (r := .decPlen) rfl rfl, fun w => hdraw (regAt_decPbits w) rfl,
    fun sym => hdraw (regAt_freq sym) rfl, fun sym => hdraw (regAt_codeLen sym) rfl,
    fun sym w => hdraw (regAt_codeBits sym w) rfl⟩

/-- Settles O56: the two cases of `writeCtrl`. The reset values of NODE, ROOT and NNODES are the model's choice
(log 4). -/
theorem ctrlWrites : Obligations.CtrlWrites := by
  intro s v hr
  rw [busWrite_ctrl v rfl hr, writeCtrl]
  refine ⟨fun hbit => ?_, fun hbit => ?_⟩
  · rw [if_pos hbit]
    exact ⟨resetElements s, rfl, rfl, rfl, rfl, rfl, rfl, rfl, rfl, rfl, rfl, rfl, rfl, hr⟩
  · rw [hbit, if_neg Bool.false_ne_true]

end Sys2Proof.Machine

/-! SUPPORT. The header words of each command and the words that decode to it (30_encoding.md R85 to R91). -/

namespace Sys2Proof

/-! ## A word and its fields (R86) -/

/-- R86: the four fields cover a word. -/
theorem word_eq_iff_fields {v w : Word} :
    v = w ↔ opcOf v = opcOf w ∧ v.extractLsb' 16 8 = w.extractLsb' 16 8 ∧ lenOf v = lenOf w ∧ symOf v = symOf w := by
  have bit {n k : Nat} (h : v.extractLsb' n 8 = w.extractLsb' n 8) (hn : n ≤ k) (hk : k < n + 8) :
      v.getLsbD k = w.getLsbD k := by
    simpa [show k - n < 8 by omega, show n + (k - n) = k by omega] using
      congrArg (fun x => x.getLsbD (k - n)) h
  refine ⟨fun h => h ▸ ⟨rfl, rfl, rfl, rfl⟩, fun ⟨hopc, hrsv, hlen, hsym⟩ => BitVec.eq_of_getLsbD_eq fun k hk => ?_⟩
  by_cases h1 : k < 8
  · exact bit hsym (Nat.zero_le k) h1
  · by_cases h2 : k < 16
    · exact bit hlen (by omega) h2
    · by_cases h3 : k < 24
      · exact bit hrsv (by omega) h3
      · exact bit hopc (by omega) hk

/-- R86: RSV is 0 in the header of any fields. -/
theorem rsv_mkHeader (opc len sym : Byte) : (mkHeader opc len sym).extractLsb' 16 8 = 0 := by
  apply BitVec.eq_of_getLsbD_eq
  intro k hk
  rw [BitVec.getLsbD_extractLsb', getLsbD_mkHeader _ _ _ _ (by omega), BitVec.getLsbD_of_ge len _ (by omega),
    BitVec.getLsbD_of_ge sym _ (by omega)]
  simp [show ¬ 24 ≤ 16 + k by omega]

/-! ## The rows of the opcode map (R90) -/

/-- R87, R90: the fields a command's format reserves are zero in `h`: RSV, LEN but for CT_LOAD, SYM but for the four
commands with a symbol. -/
def FieldsFit (op : Op) (h : Word) : Prop :=
  h.extractLsb' 16 8 = 0 ∧ (op ≠ .ctLoad → lenOf h = 0) ∧
    (op ≠ .ctLoad → op ≠ .freqAcc → op ≠ .encByte → op ≠ .decFeed → symOf h = 0)

/-- R90: the mask of a command's row. -/
def Op.mask : Op → Word
  | .ctLoad => 0xFFFF0000
  | .freqAcc | .encByte | .decFeed => 0xFFFFFF00
  | .nop | .freqClear | .build | .genCodes | .encInit | .encFlush | .ctClear | .decStart | .decEnd => 0xFFFFFFFF

/-- R90: a command's row of the table is the one its opcode finds, and its match value is the opcode alone. -/
theorem find?_opcodeTable (op : Op) :
    opcodeTable.find? (fun r => opcOf r.pat == op.code) = some ⟨op, mkHeader op.code 0 0, op.mask⟩ := by
  cases op <;> decide

/-- R90, R91: a word with a command's opcode is the command's or has a reserved field set, by the mask. -/
theorem classify_of_opcode {h : Word} {op : Op} (hopc : opcOf h = op.code) :
    classify h = if h &&& op.mask = mkHeader op.code 0 0 then .ok op else .error .reservedNonzero := by
  rw [classify, hopc, find?_opcodeTable]

/-- R91: a word whose opcode is of no command is unassigned. -/
theorem classify_of_no_opcode {h : Word} (hopc : ∀ op : Op, opcOf h ≠ op.code) :
    classify h = .error .unassignedOpcode := by
  have hnone : opcodeTable.find? (fun r => opcOf r.pat == opcOf h) = none := by
    refine List.find?_eq_none.2 fun r hr => ?_
    rw [opcodeTable_code r hr]
    simpa using (hopc r.op).symm
  rw [classify, hnone]

/-- A mask keeps a field or clears it, as its own field is all ones or zero. -/
theorem field_and {h m : Word} {n : Nat} {p : Prop} [Decidable p] (hm : m.extractLsb' n 8 = if p then 0 else 0xFF) :
    (h &&& m).extractLsb' n 8 = if p then 0 else h.extractLsb' n 8 := by
  rw [BitVec.extractLsb'_and, hm]
  split
  · exact BitVec.and_zero
  · exact BitVec.and_allOnes

/-- R90: the mask keeps OPC and RSV, and keeps LEN and SYM where the format reserves them. -/
theorem and_mask_eq_iff {h : Word} {op : Op} (hopc : opcOf h = op.code) :
    h &&& op.mask = mkHeader op.code 0 0 ↔ FieldsFit op h := by
  have aopc : opcOf (h &&& op.mask) = if False then 0 else opcOf h := field_and (by cases op <;> decide)
  have arsv : (h &&& op.mask).extractLsb' 16 8 = if False then 0 else h.extractLsb' 16 8 :=
    field_and (by cases op <;> decide)
  have alen : lenOf (h &&& op.mask) = if op = .ctLoad then 0 else lenOf h := field_and (by cases op <;> decide)
  have asym : symOf (h &&& op.mask) =
      if op = .ctLoad ∨ op = .freqAcc ∨ op = .encByte ∨ op = .decFeed then 0 else symOf h :=
    field_and (by cases op <;> decide)
  rw [word_eq_iff_fields, opcOf_mkHeader, rsv_mkHeader, lenOf_mkHeader, symOf_mkHeader, aopc, arsv, alen, asym,
    FieldsFit]
  cases op <;> simp [hopc]

/-- R90, R91: with a command's opcode a word is the command's exactly when the reserved fields are zero. -/
theorem classify_fit {h : Word} {op : Op} (hopc : opcOf h = op.code) (hf : FieldsFit op h) : classify h = .ok op := by
  rw [classify_of_opcode hopc, if_pos ((and_mask_eq_iff hopc).2 hf)]

theorem classify_unfit {h : Word} {op : Op} (hopc : opcOf h = op.code) (hf : ¬ FieldsFit op h) :
    classify h = .error .reservedNonzero := by
  rw [classify_of_opcode hopc, if_neg (mt (and_mask_eq_iff hopc).1 hf)]

/-- R90: a word classified as a command has its opcode. -/
theorem opcOf_of_classify {h : Word} {op : Op} (hc : classify h = .ok op) : opcOf h = op.code := by
  by_contra hne
  by_cases hex : ∃ op' : Op, opcOf h = op'.code
  · obtain ⟨op', hopc⟩ := hex
    rw [classify_of_opcode hopc] at hc
    split at hc
    · exact hne ((Except.ok.inj hc) ▸ hopc)
    · cases hc
  · rw [classify_of_no_opcode (not_exists.1 hex)] at hc
    cases hc

/-- R90: the words of a command's row. -/
theorem classify_eq_ok_iff {h : Word} {op : Op} : classify h = .ok op ↔ opcOf h = op.code ∧ FieldsFit op h := by
  refine ⟨fun hc => ⟨opcOf_of_classify hc, ?_⟩, fun ⟨hopc, hf⟩ => classify_fit hopc hf⟩
  by_contra hf
  rw [classify_unfit (opcOf_of_classify hc) hf] at hc
  cases hc

/-! ## Words and the command read from them (R85, R88) -/

/-- R85, R89: what decoding answers a command from. -/
theorem decode_eq_ok {ws rest : List Word} {i : Instr} (hd : decode ws = .ok (i, rest)) :
    ∃ h ext op, ws = h :: (ext ++ rest) ∧ classify h = .ok op ∧ ext.length = extCount h ∧ i = assemble op h ext := by
  cases ws with
  | nil => cases hd
  | cons h tail =>
    rw [decode] at hd
    split at hd
    case h_1 => cases hd
    case h_2 op hc =>
      split at hd
      case isTrue => cases hd
      case isFalse hlen =>
        obtain ⟨rfl, rfl⟩ := Prod.mk.inj (Except.ok.inj hd)
        exact ⟨h, _, op, by rw [List.take_append_drop], hc, List.length_take_of_le (by omega), rfl⟩

/-- R86: a word whose RSV field is zero is the header of its other fields. -/
theorem mkHeader_of_fit {h : Word} {op : Op} (hopc : opcOf h = op.code) (hf : FieldsFit op h) :
    mkHeader op.code (lenOf h) (symOf h) = h := by
  rw [word_eq_iff_fields, opcOf_mkHeader, rsv_mkHeader, lenOf_mkHeader, symOf_mkHeader]
  exact ⟨hopc.symm, hf.1.symm, rfl, rfl⟩

/-- R87: the header of the command read from a word is the word. -/
theorem header_assemble {h : Word} {op : Op} (ext : List Word) (hopc : opcOf h = op.code) (hf : FieldsFit op h) :
    (assemble op h ext).header = h := by
  refine Eq.trans ?_ (mkHeader_of_fit hopc hf)
  obtain ⟨-, hlen, hsym⟩ := hf
  cases op with
  | ctLoad => rfl
  | freqAcc | encByte | decFeed => rw [hlen nofun]; rfl
  | nop | freqClear | build | genCodes | encInit | encFlush | ctClear | decStart | decEnd =>
    rw [hlen nofun, hsym nofun nofun nofun nofun]; rfl

/-- R89: the number of extension words of a command with the given LEN. -/
def Op.extWords (len : Byte) : Op → Nat
  | .ctLoad => codeWords len
  | .decStart => 1
  | .nop | .freqClear | .freqAcc | .build | .genCodes | .encInit | .encByte | .encFlush | .ctClear | .decFeed
  | .decEnd => 0

/-- R89: the opcode and LEN fix the number of extension words. -/
theorem extCount_of_opcode {h : Word} {op : Op} (hopc : opcOf h = op.code) : extCount h = op.extWords (lenOf h) := by
  rw [extCount, hopc]
  cases op <;> rfl

/-- R87, R89: the command read from a word and the extension words it asks for is well formed, and these are its
extension words. -/
theorem ext_assemble {h : Word} {op : Op} {ext : List Word} (hopc : opcOf h = op.code)
    (hext : ext.length = extCount h) : WellFormed (assemble op h ext) ∧ (assemble op h ext).ext = ext := by
  rw [extCount_of_opcode hopc] at hext
  cases op with
  | ctLoad => exact ⟨beq_iff_eq.2 hext, rfl⟩
  | decStart =>
    obtain ⟨count, rfl⟩ := List.length_eq_one_iff.1 hext
    exact ⟨rfl, rfl⟩
  | nop | freqClear | freqAcc | build | genCodes | encInit | encByte | encFlush | ctClear | decFeed | decEnd =>
    obtain rfl := List.eq_nil_of_length_eq_zero hext
    exact ⟨rfl, rfl⟩

end Sys2Proof

/-! CERTIFICATE. The statements on the encoding: O1, O2, O3, O4, O5. -/

namespace Sys2Proof

/-- Settles O1: each word is evaluated. -/
theorem sampleWordsDecode : Obligations.SampleWordsDecode :=
  ⟨rfl, rfl, rfl, rfl, rfl, rfl, rfl, rfl, rfl, rfl, rfl, rfl, rfl, rfl, rfl⟩

/-- Settles O2: a command's header is classified as its row, and the operands are read back from its own words. -/
theorem decodeEncodeRoundTrip : Obligations.DecodeEncodeRoundTrip := fun _ rest hw => decode_encode_append hw rest

/-- Settles O3: a word that a row accepts has no bit set outside the command's opcode and operands. -/
theorem decodedWordsAreEncoded : Obligations.DecodedWordsAreEncoded := by
  intro ws rest i hd
  obtain ⟨h, ext, op, rfl, hc, hlen, rfl⟩ := decode_eq_ok hd
  obtain ⟨hopc, hfit⟩ := classify_eq_ok_iff.1 hc
  obtain ⟨hwf, hext⟩ := ext_assemble hopc hlen
  refine ⟨hwf, ?_⟩
  rw [encode, header_assemble ext hopc hfit, hext, List.cons_append]

/-- Settles O4: a row's mask keeps exactly the opcode and the fields its format reserves. -/
theorem headerFieldsClassified : Obligations.HeaderFieldsClassified :=
  fun _ _ => ⟨classify_eq_ok_iff, classify_unfit⟩

end Sys2Proof

namespace Sys2Proof.Machine

/-- R91, R190: the step on a header word that spells no command takes the word alone and refuses it. -/
theorem step_illegal {s : State} {h : Word} {rest : List Word} {d : DecodeError} (hsched : s.sched = [])
    (hr : s.rstN = true) (hx : s.executing = none) (herr : s.err.error = false) (hq : s.cmdq = h :: rest)
    (hc : classify h = .error d) : step s = .next (refuseWord d h { s with cmdq := rest, grant := none }) := by
  rw [step_unscheduled hsched, engineTurn_take none hr hx hq,
    takeHeader_illegal (s := { s with grant := none }) rest herr hc]

/-- Settles O5: an opcode outside the map is unassigned; opcode 0x00 is NOP's, whose format reserves every other
field. -/
theorem reservedOpcodesRaise : Obligations.ReservedOpcodesRaise := by
  intro s h rest hsched hr hx herr hq
  have reserved (op : Op) (hopc : opcOf h = op.code) (hunfit : ¬ FieldsFit op h) :
      step s = .next { s with
        cmdq := rest
        grant := none
        err := { error := true, code := .illegalCommand, sub := 2, opc := op.code, arg := symOf h, bitpos := 0,
                 info := h } } := by
    rw [step_illegal hsched hr hx herr hq (classify_unfit hopc hunfit), ← hopc, hx]
    rfl
  refine ⟨fun hopc => ?_, fun hopc hne => ?_, fun op hopc hset => ?_⟩
  · have hnone (op : Op) : opcOf h ≠ op.code := fun e => hopc (by rw [e]; cases op <;> decide)
    rw [step_illegal hsched hr hx herr hq (classify_of_no_opcode hnone), hx]
    rfl
  · refine reserved .nop hopc fun hfit => hne ?_
    have hheader := mkHeader_of_fit hopc hfit
    rwa [hfit.2.1 nofun, hfit.2.2 nofun nofun nofun nofun, eq_comm] at hheader
  · refine reserved op hopc fun ⟨hrsv, hlen, hsym⟩ => ?_
    rcases hset with hset | ⟨hop, hset⟩ | ⟨h1, h2, h3, h4, hset⟩
    · exact hset hrsv
    · exact hset (hlen hop)
    · exact hset (hsym h1 h2 h3 h4)

end Sys2Proof.Machine

/-! SUPPORT. Commands run one after another by a host that drains OUTQ between them (80_host_interface.md R236,
R239). -/

namespace Sys2Proof.Machine

/-- Between two commands, in mode `m`: no error, nothing in EXEC, no limit on the pushes (log 7), and OUTQ holds the 32
bytes the longest code can complete (R141). -/
structure Ready (m : Mode) (s : State) : Prop where
  mode : s.dec.mode = m
  clean : s.err.error = false
  free : s.executing = none
  unlimited : s.grant = none
  room : 32 ≤ s.params.outDepth.toNat

/-- R239: OUTQ drained by the host. -/
def drained (s : State) : State := { s with outq := [] }

theorem Ready.drained {m : Mode} {s : State} (h : Ready m s) : Ready m (drained s) :=
  ⟨h.mode, h.clean, h.free, h.unlimited, h.room⟩

/-- R195: a drained OUTQ has a slot for each byte of its depth. -/
theorem Ready.slots_drained {m : Mode} {s : State} (h : Ready m s) :
    slots (Machine.drained s) = s.params.outDepth.toNat := by
  rw [slots_unlimited (s := Machine.drained s) h.unlimited]; rfl

/-- R195: with OUTQ drained, a command that pushes no more than 32 bytes pushes them all and completes. -/
theorem Ready.emit_drained {m : Mode} {s : State} (hs : Ready m s) (i : Instr) {bytes : List Byte}
    (final : State → State) (h : bytes.length ≤ 32) :
    emit i bytes final (Machine.drained s) = complete (final { Machine.drained s with outq := bytes }) := by
  have hu : unpushed i bytes (Machine.drained s) = bytes :=
    unpushed_fresh _ _ fun e he => by cases hs.drained.free.symm.trans he
  rw [emit_all _ (by rw [hu, hs.slots_drained]; exact h.trans hs.room), hu]
  rfl

/-- A command that completes is followed by the rest, and the host drains what it pushed. -/
theorem runDrained_cons {i : Instr} {is : List Instr} {s t u : State} {out : List Byte} {m : Mode}
    (hi : exec i (drained s) = .next t) (ht : Ready m t) (his : runDrained is t = some (u, out)) :
    runDrained (i :: is) s = some (u, t.outq ++ out) := by
  have hgo : ¬ (t.executing.isSome || t.err.error) = true := by rw [ht.free, ht.clean]; decide
  rw [drained] at hi
  rw [runDrained, hi]
  simp only [if_neg hgo, his]

theorem runDrained_singleton {i : Instr} {s t : State} {m : Mode} (hi : exec i (drained s) = .next t)
    (ht : Ready m t) : runDrained [i] s = some (t, t.outq) := by
  rw [runDrained_cons hi ht rfl, List.append_nil]

/-- The bytes of two runs, one after the other. -/
theorem runDrained_append {is js : List Instr} {s t u : State} {out out' : List Byte}
    (his : runDrained is s = some (t, out)) (hjs : runDrained js t = some (u, out')) :
    runDrained (is ++ js) s = some (u, out ++ out') := by
  induction is generalizing s out with
  | nil =>
    obtain ⟨rfl, rfl⟩ := Prod.mk.inj (Option.some.inj his)
    exact hjs
  | cons i is ih =>
    rw [runDrained] at his
    rw [List.cons_append, runDrained]
    split at his
    case h_1 v hv =>
      split at his
      case isTrue => cases his
      case isFalse hgo =>
        split at his
        case h_1 w rest hrest =>
          obtain ⟨rfl, rfl⟩ := Prod.mk.inj (Option.some.inj his)
          simp only [if_neg hgo, ih hrest, List.append_assoc]
        case h_2 => cases his
    case h_2 => cases his
    case h_3 => cases his

end Sys2Proof.Machine

/-! SUPPORT. The counts of an input (41_frequency.md R101 to R103). -/

namespace Sys2Proof.Machine

theorem exec_freqClear {s : State} (hm : s.dec.mode = .idle) :
    exec .freqClear s = .next (complete { s with freq := FreqTable.empty }) := by
  rw [exec, execFreqClear, whenAccepted_yes (by rw [hm]; rfl)]

/-- R102: below the limit of TOTAL, FREQ_ACC counts. -/
theorem exec_freqAcc {s : State} {sym : Byte} (hm : s.dec.mode = .idle) (hroom : s.freq.total ≠ 0xFFFFFFFF) :
    exec (.freqAcc sym) s = .next (complete { s with freq := s.freq.add sym }) := by
  rw [exec, execFreqAcc, whenAccepted_yes (by rw [hm]; rfl), if_neg hroom]

/-- R103: a counter grows by the number of occurrences, modulo 2^32. -/
theorem entry_foldl_add (xs : List Byte) (f : FreqTable) (sym : Byte) :
    entry (xs.foldl FreqTable.add f).count sym = entry f.count sym + BitVec.ofNat 32 (xs.count sym) := by
  induction xs generalizing f with
  | nil => exact (BitVec.add_zero _).symm
  | cons x xs ih =>
    rw [List.foldl_cons, ih, FreqTable.add, entry_setEntry, List.count_cons]
    by_cases h : sym = x
    · subst h
      rw [if_pos rfl, if_pos (beq_self_eq_true sym), BitVec.ofNat_add, BitVec.add_assoc,
        BitVec.add_comm (BitVec.ofNat 32 (xs.count sym))]
      rfl
    · rw [if_neg h, if_neg (by simpa using Ne.symm h), Nat.add_zero]

/-- R103, R104: after counting from the empty table the symbols of the input are present. -/
theorem entry_counted_ne_zero {xs : List Byte} (hlen : xs.length < 2 ^ 32) {sym : Byte} (h : sym ∈ xs) :
    entry (xs.foldl FreqTable.add FreqTable.empty).count sym ≠ 0 := by
  have hpos : 0 < xs.count sym := List.count_pos_iff.2 h
  have hle : xs.count sym ≤ xs.length := List.count_le_length
  rw [entry_foldl_add, FreqTable.empty_count]
  refine (BitVec.zero_add _).trans_ne fun h0 => ?_
  have hnat := congrArg BitVec.toNat h0
  rw [BitVec.toNat_ofNat, Nat.mod_eq_of_lt (by omega)] at hnat
  exact hpos.ne' hnat

/-- R102, R236: counting an input for which TOTAL has room. -/
theorem runDrained_freqBytes (xs : List Byte) {s : State} (hs : Ready .idle s)
    (hroom : s.freq.total.toNat + xs.length < 2 ^ 32) :
    ∃ t, runDrained (freqBytes xs) s = some (t, []) ∧ Ready .idle t ∧ t.freq = xs.foldl FreqTable.add s.freq := by
  induction xs generalizing s with
  | nil => exact ⟨s, rfl, hs, rfl⟩
  | cons x xs ih =>
    rw [List.length_cons] at hroom
    let t := complete { drained s with freq := s.freq.add x }
    have hi : exec (.freqAcc x) (drained s) = .next t :=
      exec_freqAcc hs.mode fun h => by
        have : s.freq.total.toNat = 0xFFFFFFFF := congrArg BitVec.toNat h
        omega
    have ht : Ready .idle t := ⟨hs.mode, hs.clean, rfl, hs.unlimited, hs.room⟩
    have htotal : t.freq.total.toNat = s.freq.total.toNat + 1 := by
      show (s.freq.total + 1).toNat = _
      bv_omega
    obtain ⟨u, hrun, hu, hfreq⟩ := ih ht (by omega)
    exact ⟨u, runDrained_cons hi ht hrun, hu, hfreq⟩

end Sys2Proof.Machine

/-! SUPPORT. The generated code table (43_code_table.md R125 to R128): no code begins with another, and every symbol
present at the BUILD has a code. -/

namespace Sys2Proof.Machine

/-! ## The codes of a walk -/

/-- What a walk can answer, said once: the leaf it starts from, or the leaves below the two children. -/
theorem visit_cases {node : Vector Node Config.nodeMax} {fuel : Nat} {i : BitVec 9} {p : Bits}
    {codes : List (Byte × Bits)} (h : visit node (fuel + 1) i p = some codes) :
    (∃ sym f, node[i.toNat]? = some (.leaf sym f) ∧ codes = [(sym, p)]) ∨
    (∃ f l r below above, node[i.toNat]? = some (.internal f l r) ∧ visit node fuel l (p ++ [false]) = some below ∧
      visit node fuel r (p ++ [true]) = some above ∧ codes = below ++ above) := by
  rw [visit] at h
  split at h
  case h_1 => cases h
  case h_2 sym f hn => exact .inl ⟨sym, f, hn, (Option.some.inj h).symm⟩
  case h_3 f l r hn =>
    split at h
    case h_1 => cases h
    case h_2 below hb =>
      split at h
      case h_1 => cases h
      case h_2 above ha => exact .inr ⟨f, l, r, below, above, hn, hb, ha, (Option.some.inj h).symm⟩

/-- Neither of two codes begins with the other. -/
def Apart (c d : Byte × Bits) : Prop := ¬ c.2 <+: d.2 ∧ ¬ d.2 <+: c.2

theorem apart_symm : Std.Symm Apart := ⟨fun _ _ h => h.symm⟩

/-- R128: codes on the two sides of a node differ in the node's bit. -/
theorem apart_of_sides {p : Bits} {c d : Byte × Bits} (hc : p ++ [false] <+: c.2) (hd : p ++ [true] <+: d.2) :
    Apart c d := by
  have hne {q : Bits} (h0 : p ++ [false] <+: q) (h1 : p ++ [true] <+: q) : False := by
    have := (List.prefix_of_prefix_length_le h0 h1 (by simp)).eq_of_length (by simp)
    simp at this
  exact ⟨fun h => hne (hc.trans h) hd, fun h => hne hc (hd.trans h)⟩

/-- R128: no code of a walk begins with another. -/
theorem visit_apart {node : Vector Node Config.nodeMax} {fuel : Nat} {i : BitVec 9} {p : Bits}
    {codes : List (Byte × Bits)} (h : visit node fuel i p = some codes) : codes.Pairwise Apart := by
  induction fuel generalizing i p codes with
  | zero => cases h
  | succ fuel ih =>
    rcases visit_cases h with ⟨sym, f, -, rfl⟩ | ⟨f, l, r, below, above, -, hb, ha, rfl⟩
    · exact List.pairwise_singleton _ _
    · refine List.pairwise_append.2 ⟨ih hb, ih ha, fun c hc d hd => ?_⟩
      exact apart_of_sides ((visit_paths hb).2 c hc).1 ((visit_paths ha).2 d hd).1

/-- R125: a leaf with the symbol `sym` stands at handle `i` or below it, all handles on the way below `m`. -/
inductive LeafBelow (node : Vector Node Config.nodeMax) (m : Nat) (sym : Byte) : BitVec 9 → Prop
  | leaf {i f} (hi : i.toNat < m) (hn : node[i.toNat]? = some (.leaf sym f)) : LeafBelow node m sym i
  | child {i f l r c} (hi : i.toNat < m) (hn : node[i.toNat]? = some (.internal f l r)) (hc : c = l ∨ c = r)
      (h : LeafBelow node m sym c) : LeafBelow node m sym i

/-- A record written at a handle that is not on the way leaves the leaf below. -/
theorem LeafBelow.setIfInBounds {node : Vector Node Config.nodeMax} {m : Nat} {sym : Byte} {i : BitVec 9}
    (h : LeafBelow node m sym i) (x : Node) : LeafBelow (node.setIfInBounds m x) (m + 1) sym i := by
  have kept {j : Nat} (hj : j < m) : (node.setIfInBounds m x)[j]? = node[j]? := by
    rw [Vector.getElem?_setIfInBounds_ne (by omega)]
  induction h with
  | leaf hi hn => exact .leaf (Nat.lt_succ_of_lt hi) ((kept hi).trans hn)
  | child hi hn hc _ ih => exact .child (Nat.lt_succ_of_lt hi) ((kept hi).trans hn) hc ih

/-- R125: a walk meets every leaf below its start. -/
theorem LeafBelow.mem_visit {node : Vector Node Config.nodeMax} {m fuel : Nat} {sym : Byte} {i : BitVec 9} {p : Bits}
    {codes : List (Byte × Bits)} (hl : LeafBelow node m sym i) (h : visit node fuel i p = some codes) :
    ∃ q, (sym, q) ∈ codes := by
  induction fuel generalizing i p codes with
  | zero => cases h
  | succ fuel ih =>
    rcases visit_cases h with ⟨sym', f', hn', rfl⟩ | ⟨f', l, r, below, above, hn', hb, ha, rfl⟩
    · cases hl with
      | leaf _ hn => cases hn.symm.trans hn'; exact ⟨p, List.mem_singleton_self _⟩
      | child _ hn _ _ => cases hn.symm.trans hn'
    · cases hl with
      | leaf _ hn => cases hn.symm.trans hn'
      | child _ hn hc hl =>
        cases hn.symm.trans hn'
        rcases hc with rfl | rfl
        · exact (ih hl hb).imp fun q hq => List.mem_append_left _ hq
        · exact (ih hl ha).imp fun q hq => List.mem_append_right _ hq

/-- R125, R126: what GEN_CODES reads from a tree, said once: the one-bit code of a root that is a leaf, or the walk
from a root that is an internal node. -/
theorem treeCodes_cases {t : Tree} {codes : List (Byte × Bits)} (h : treeCodes t = some codes) :
    (∃ sym f, t.node[t.root.toNat]? = some (.leaf sym f) ∧ codes = [(sym, [false])]) ∨
    ((∃ f l r, t.node[t.root.toNat]? = some (.internal f l r)) ∧
      visit t.node (Config.lMax + 1) t.root [] = some codes) := by
  unfold treeCodes at h
  split at h
  case h_1 sym f hn => exact .inl ⟨sym, f, hn, (Option.some.inj h).symm⟩
  case h_2 hleaf =>
    rcases visit_cases h with ⟨sym, f, hn, -⟩ | ⟨f, l, r, below, above, hn, -⟩
    · exact absurd hn (hleaf sym f)
    · exact .inr ⟨⟨f, l, r, hn⟩, h⟩

/-- R126, R128: the codes of a tree are not empty, and none begins with another. -/
theorem treeCodes_apart {t : Tree} {codes : List (Byte × Bits)} (h : treeCodes t = some codes) :
    codes.Pairwise Apart ∧ ∀ c ∈ codes, c.2 ≠ [] := by
  rcases treeCodes_cases h with ⟨sym, f, -, rfl⟩ | ⟨⟨f, l, r, hn⟩, hv⟩
  · exact ⟨List.pairwise_singleton _ _, fun c hc => by cases List.mem_singleton.1 hc; nofun⟩
  · refine ⟨visit_apart hv, fun c hc h0 => ?_⟩
    rcases visit_cases hv with ⟨sym, f', hn', -⟩ | ⟨f', l', r', below, above, -, hb, ha, rfl⟩
    · cases hn.symm.trans hn'
    · rcases List.mem_append.1 hc with hc | hc
      · simpa [h0] using ((visit_paths hb).2 c hc).1
      · simpa [h0] using ((visit_paths ha).2 c hc).1

/-- R125: every symbol below the root has a code. -/
theorem LeafBelow.mem_treeCodes {t : Tree} {m : Nat} {sym : Byte} {codes : List (Byte × Bits)}
    (hl : LeafBelow t.node m sym t.root) (h : treeCodes t = some codes) : ∃ q, (sym, q) ∈ codes := by
  rcases treeCodes_cases h with ⟨sym', f, hn, rfl⟩ | ⟨-, hv⟩
  · cases hl with
    | leaf _ hn' => cases hn.symm.trans hn'; exact ⟨_, List.mem_singleton_self _⟩
    | child _ hn' _ _ => cases hn.symm.trans hn'
  · exact hl.mem_visit hv

/-! ## The table of the codes -/

theorem tableOf_append (codes : List (Byte × Bits)) (c : Byte × Bits) :
    tableOf (codes ++ [c]) = (tableOf codes).put c.1 c.2 := by simp [tableOf]

theorem put_len_same_ne_zero (ct : CodeTable) (s : Byte) {p : Bits} (hne : p ≠ []) (hp : p.length ≤ 255) :
    entry (ct.put s p).len s ≠ 0 := by
  have hcode : ((ct.put s p).code s).length = p.length := by rw [put_code_same _ _ _ hp]
  rw [length_code] at hcode
  intro h0
  rw [h0] at hcode
  exact hne (List.eq_nil_of_length_eq_zero hcode.symm)

/-- R125: a table written from codes that are not empty has an entry for each of their symbols. -/
theorem tableOf_len_ne_zero {codes : List (Byte × Bits)} (hlen : ∀ c ∈ codes, c.2 ≠ [] ∧ c.2.length ≤ 255)
    {sym : Byte} (h : sym ∈ codes.map Prod.fst) : entry (tableOf codes).len sym ≠ 0 := by
  induction codes using List.reverseRecOn with
  | nil => cases h
  | append_singleton codes c ih =>
    rw [tableOf_append]
    by_cases hs : sym = c.1
    · obtain ⟨hne, hle⟩ := hlen c (List.mem_append_right _ List.mem_cons_self)
      exact hs ▸ put_len_same_ne_zero _ _ hne hle
    · rw [put_len_other _ _ hs]
      refine ih (fun d hd => hlen d (List.mem_append_left _ hd)) ?_
      simpa [hs] using h

/-- R128: of the codes of a table written from codes that are apart none begins with another. -/
theorem prefixFree_tableOf {codes : List (Byte × Bits)} (hlen : ∀ c ∈ codes, c.2.length ≤ 255)
    (h : codes.Pairwise Apart) : PrefixFree (tableOf codes) := by
  intro x y hxy hx hy
  obtain ⟨-, hmem⟩ := tableOf_codes hlen
  have := apart_symm
  exact (h.forall (hmem x hx) (hmem y hy) fun e => hxy (congrArg Prod.fst e)).1

/-! ## The leaves of BUILD's tree -/

theorem popMin_eq_none {es : List HeapEntry} (h : popMin es = none) : es = [] := by
  cases es with
  | nil => rfl
  | cons e es =>
    rw [popMin] at h
    split at h
    · cases h
    · split at h <;> cases h

theorem popMin_perm {es rest : List HeapEntry} {m : HeapEntry} (h : popMin es = some (m, rest)) :
    es.Perm (m :: rest) := by
  induction es generalizing m rest with
  | nil => cases h
  | cons e es ih =>
    rw [popMin] at h
    split at h
    case h_1 hp =>
      obtain ⟨rfl, rfl⟩ := Prod.mk.inj (Option.some.inj h)
      rw [popMin_eq_none hp]
    case h_2 m' rest' hp =>
      split at h
      all_goals obtain ⟨rfl, rfl⟩ := Prod.mk.inj (Option.some.inj h)
      · exact .refl _
      · exact ((ih hp).cons e).trans (.swap _ _ _)

/-- R113, R114: what one pass does to two nodes or more: two of them become the children of a new one. -/
theorem mergePass_perm {b : Builder} (h : 2 ≤ b.heap.length) :
    ∃ x y rest, b.heap.Perm (x :: y :: rest) ∧
      mergePass b =
        { node := b.node.setIfInBounds b.next (.internal (x.freq + y.freq) x.handle y.handle)
          heap := rest ++ [{ freq := x.freq + y.freq, handle := BitVec.ofNat 9 b.next }]
          next := b.next + 1 } := by
  unfold mergePass
  split
  case h_1 hx => rw [popMin_eq_none hx] at h; cases h
  case h_2 x heap₁ hx =>
    have hperm := popMin_perm hx
    split
    case h_1 hy =>
      rw [popMin_eq_none hy] at hperm
      rw [hperm.length_eq] at h
      exact absurd h (Nat.not_succ_le_self 1)
    case h_2 y heap₂ hy => exact ⟨x, y, heap₂, hperm.trans ((popMin_perm hy).cons x), rfl⟩

/-- Each of the symbols stands at a leaf below some node of the collection. -/
def Builder.Covers (b : Builder) (syms : List Byte) : Prop :=
  ∀ sym ∈ syms, ∃ e ∈ b.heap, LeafBelow b.node b.next sym e.handle

/-- R111: after the leaves of the symbols, one node of the collection stands for each. -/
theorem foldl_addLeaf_covers {f : FreqTable} {node : Vector Node Config.nodeMax} (syms : List Byte)
    (hn : syms.length ≤ Config.nodeMax) :
    (syms.foldl (addLeaf f) ⟨node, [], 0⟩).Covers syms ∧
      (syms.foldl (addLeaf f) ⟨node, [], 0⟩).heap.length = syms.length := by
  induction syms using List.reverseRecOn with
  | nil => exact ⟨nofun, rfl⟩
  | append_singleton syms sym ih =>
    rw [List.length_append, List.length_singleton] at hn
    obtain ⟨hcov, hheap⟩ := ih (by omega)
    obtain ⟨-, hnext, -⟩ := foldl_addLeaf_grown (f := f) syms (b := ⟨node, [], 0⟩) nofun
      (by simp only [Config.nodeMax] at hn ⊢; omega)
    rw [List.foldl_append, List.foldl_cons, List.foldl_nil, List.length_append, List.length_singleton, ← hheap]
    have hlt : (syms.foldl (addLeaf f) ⟨node, [], 0⟩).next < Config.nodeMax := by
      rw [hnext, Nat.zero_add]; omega
    refine ⟨fun x hx => ?_, by simp [addLeaf]⟩
    rcases List.mem_append.1 hx with hx | hx
    · obtain ⟨e, he, hl⟩ := hcov x hx
      exact ⟨e, List.mem_append_left _ he, hl.setIfInBounds _⟩
    · obtain rfl := List.mem_singleton.1 hx
      exact ⟨_, List.mem_append_right _ List.mem_cons_self,
        .leaf (ofNat_handle_lt hlt) (getElem?_setIfInBounds_handle _ hlt)⟩

/-- R114: a pass keeps each leaf below some node of the collection, which has one node less. -/
theorem mergePass_covers {b : Builder} {syms : List Byte} (h : b.Covers syms) (hn : b.next < Config.nodeMax)
    (h2 : 2 ≤ b.heap.length) :
    (mergePass b).Covers syms ∧ (mergePass b).heap.length + 1 = b.heap.length ∧ (mergePass b).next = b.next + 1 := by
  obtain ⟨x, y, rest, hperm, e⟩ := mergePass_perm h2
  have hnew := getElem?_setIfInBounds_handle (node := b.node) (.internal (x.freq + y.freq) x.handle y.handle) hn
  rw [e]
  refine ⟨fun sym hsym => ?_, by rw [hperm.length_eq]; simp, rfl⟩
  obtain ⟨d, hd, hl⟩ := h sym hsym
  have merged (hc : d.handle = x.handle ∨ d.handle = y.handle) :
      LeafBelow (b.node.setIfInBounds b.next (.internal (x.freq + y.freq) x.handle y.handle)) (b.next + 1) sym
        (BitVec.ofNat 9 b.next) := .child (ofNat_handle_lt hn) hnew hc (hl.setIfInBounds _)
  rcases List.mem_cons.1 (hperm.mem_iff.1 hd) with rfl | hd
  · exact ⟨_, List.mem_append_right _ List.mem_cons_self, merged (.inl rfl)⟩
  · rcases List.mem_cons.1 hd with rfl | hd
    · exact ⟨_, List.mem_append_right _ List.mem_cons_self, merged (.inr rfl)⟩
    · exact ⟨d, List.mem_append_left _ hd, hl.setIfInBounds _⟩

/-- R113: after all passes one node is left, and each leaf is below it. -/
theorem mergePasses_covers {n : Nat} {b : Builder} {syms : List Byte} (h : b.Covers syms)
    (hn : b.next + n ≤ Config.nodeMax) (hlen : b.heap.length = n + 1) :
    (mergePasses n b).Covers syms ∧ (mergePasses n b).heap.length = 1 := by
  induction n generalizing b with
  | zero => exact ⟨h, hlen⟩
  | succ n ih =>
    obtain ⟨hcov, hheap, hnext⟩ := mergePass_covers h (by omega) (by omega)
    exact ih hcov (by omega) (by omega)

/-- R110, R111: every symbol present stands at a leaf below the root of BUILD's tree. -/
theorem buildTree_leafBelow {f : FreqTable} (node : Vector Node Config.nodeMax) {sym : Byte}
    (h : sym ∈ presentSymbols f) :
    ∃ m, LeafBelow (buildTree f node).node m sym (buildTree f node).root := by
  have hlen := length_presentSymbols_le f
  have hpos := List.length_pos_of_mem h
  obtain ⟨hcov, hheap⟩ := foldl_addLeaf_covers (f := f) (node := node) (presentSymbols f)
    (by simp only [Config.nodeMax]; omega)
  obtain ⟨-, hnext, -⟩ := foldl_addLeaf_grown (f := f) (presentSymbols f) (b := ⟨node, [], 0⟩) nofun
    (by simp only [Config.nodeMax]; omega)
  obtain ⟨hcov, hone⟩ := mergePasses_covers (n := (presentSymbols f).length - 1) hcov
    (by rw [hnext]; simp only [Config.nodeMax]; omega) (by omega)
  obtain ⟨e, he⟩ := List.length_eq_one_iff.1 hone
  obtain ⟨d, hd, hl⟩ := hcov sym h
  rw [he] at hd
  obtain rfl := List.mem_singleton.1 hd
  have hroot : (buildTree f node).root = d.handle := by
    simp only [buildTree, leafBuilder, he, List.head?_cons, Option.map_some, Option.getD_some]
  exact ⟨_, hroot ▸ hl⟩

/-- R104: the symbols with a count are the ones present. -/
theorem mem_presentSymbols {f : FreqTable} {sym : Byte} : sym ∈ presentSymbols f ↔ entry f.count sym ≠ 0 := by
  simp [presentSymbols, mem_allSymbols]

/-- R125, R128: in the table generated from BUILD's tree no code begins with another, the storage is zero-filled and
each symbol present has a code. -/
theorem generatedTable_laws {f : FreqTable} {node : Vector Node Config.nodeMax} {codes : List (Byte × Bits)}
    (h : treeCodes (buildTree f node) = some codes) :
    PrefixFree (tableOf codes) ∧ CodesCanonical (tableOf codes) ∧
      ∀ sym, entry f.count sym ≠ 0 → entry (tableOf codes).len sym ≠ 0 := by
  obtain ⟨-, hlen⟩ := treeCodes_paths h
  obtain ⟨hapart, hne⟩ := treeCodes_apart h
  refine ⟨prefixFree_tableOf hlen hapart, (tableOf_codes hlen).1, fun sym hsym => ?_⟩
  obtain ⟨m, hl⟩ := buildTree_leafBelow node (mem_presentSymbols.2 hsym)
  obtain ⟨q, hq⟩ := hl.mem_treeCodes h
  exact tableOf_len_ne_zero (fun c hc => ⟨hne c hc, hlen c hc⟩) (List.mem_map_of_mem hq)

end Sys2Proof.Machine

/-! SUPPORT. Compressing an input (44_encoder.md R141 to R143, 80_host_interface.md R236): the table pass and the
payload. -/

namespace Sys2Proof.Machine

/-! ## The table pass -/

theorem exec_build {s : State} (hm : s.dec.mode = .idle) (h : presentSymbols s.freq ≠ []) :
    exec .build s = .next (complete { s with tree := buildTree s.freq s.tree.node }) := by
  rw [exec, execBuild, whenAccepted_yes (by rw [hm]; rfl), if_neg (by simpa using h)]

theorem exec_genCodes {s : State} {codes : List (Byte × Bits)} (hm : s.dec.mode = .idle) (hv : s.tree.valid = true)
    (h : treeCodes s.tree = some codes) :
    exec .genCodes s = .next (complete { s with ct := tableOf codes, tree := { s.tree with valid := false } }) := by
  rw [exec, execGenCodes, whenAccepted_yes (by rw [hm]; rfl), if_neg (by simp [hv]), h]

theorem exec_encInit {s : State} (hm : s.dec.mode = .idle) :
    exec .encInit s = .next (complete { s with enc := { acc := 0, accLen := 0, bits := 0 } }) := by
  rw [exec, execEncInit, whenAccepted_yes (by rw [hm]; rfl)]

/-- R236: after the table pass of an input nothing is pending, no code begins with another, the code table is
zero-filled, and each symbol of the input has a code. -/
theorem runDrained_tablePass {s : State} {xs : List Byte} (hs : Ready .idle s) (hne : xs ≠ [])
    (hlen : xs.length < 2 ^ 32) :
    ∃ t, runDrained (tablePass xs) s = some (t, []) ∧ Ready .idle t ∧ t.enc.pending = [] ∧ PrefixFree t.ct ∧
      CodesCanonical t.ct ∧ ∀ x ∈ xs, entry t.ct.len x ≠ 0 := by
  let s₁ := complete { drained s with freq := FreqTable.empty }
  have hs₁ : Ready .idle s₁ := ⟨hs.mode, hs.clean, rfl, hs.unlimited, hs.room⟩
  obtain ⟨s₂, hcount, hs₂, hfreq⟩ := runDrained_freqBytes xs hs₁ (by simpa [s₁] using hlen)
  have hcounted {x : Byte} (hx : x ∈ xs) : entry s₂.freq.count x ≠ 0 := hfreq ▸ entry_counted_ne_zero hlen hx
  obtain ⟨x, hx⟩ := List.exists_mem_of_ne_nil xs hne
  have hpresent : presentSymbols s₂.freq ≠ [] := List.ne_nil_of_mem (mem_presentSymbols.2 (hcounted hx))
  let s₃ := complete { drained s₂ with tree := buildTree s₂.freq s₂.tree.node }
  have hs₃ : Ready .idle s₃ := ⟨hs₂.mode, hs₂.clean, rfl, hs₂.unlimited, hs₂.room⟩
  obtain ⟨codes, hcodes⟩ := Option.isSome_iff_exists.1 (buildTree_walkable s₂.tree.node hpresent rfl)
  let s₄ := complete { drained s₃ with ct := tableOf codes, tree := { s₃.tree with valid := false } }
  have hs₄ : Ready .idle s₄ := ⟨hs₃.mode, hs₃.clean, rfl, hs₃.unlimited, hs₃.room⟩
  let s₅ := complete { drained s₄ with enc := { acc := 0, accLen := 0, bits := 0 } }
  have hs₅ : Ready .idle s₅ := ⟨hs₄.mode, hs₄.clean, rfl, hs₄.unlimited, hs₄.room⟩
  obtain ⟨hfree, hcan, hhas⟩ := generatedTable_laws hcodes
  refine ⟨s₅, ?_, hs₅, rfl, hfree, hcan, fun x hx => hhas x (hcounted hx)⟩
  have htail : runDrained [.build, .genCodes, .encInit] s₂ = some (s₅, []) :=
    runDrained_cons (exec_build hs₂.mode hpresent) hs₃ <|
      runDrained_cons (exec_genCodes hs₃.mode rfl hcodes) hs₄ <| runDrained_singleton (exec_encInit hs₄.mode) hs₅
  exact runDrained_append (runDrained_cons (exec_freqClear hs.mode) hs₁ hcount) htail

/-! ## The payload -/

/-- R33: the pending bits read back. -/
theorem pending_withPending (e : Encoder) {p : Bits} (hp : p.length < 8) : (e.withPending p).pending = p := by
  rw [Encoder.pending, Encoder.withPending, BitVec.toNat_ofNat, Nat.mod_eq_of_lt (by omega)]
  exact load_store 8 p (by omega)

/-- R141: with OUTQ drained, ENC_BYTE of a symbol with a code pushes its bytes whole: a code completes at most 32. -/
theorem exec_encByte_drained {s : State} {x : Byte} (hs : Ready .idle s) (hx : entry s.ct.len x ≠ 0) :
    exec (.encByte x) (drained s) = .next (complete (encodeWrites (entry s.ct.len x) (encodeSym x s).2
      { drained s with outq := (encodeSym x s).1 })) := by
  have hfit : (encodeSym x s).1.length ≤ 32 := by
    have hacc : s.enc.accLen.toNat < 8 := s.enc.accLen.isLt
    have hlen : (entry s.ct.len x).toNat < 256 := (entry s.ct.len x).isLt
    rw [length_encodeSym]
    omega
  exact (exec_encByte (s := drained s) hs.mode hx).trans (congrArg _ (hs.emit_drained _ _ hfit))

/-- R141, R143: encoding symbols that have a code pushes whole bytes of their codes and leaves the rest pending. -/
theorem runDrained_encBytes (xs : List Byte) {s : State} (hs : Ready .idle s) (hx : ∀ x ∈ xs, entry s.ct.len x ≠ 0) :
    ∃ t out, runDrained (encBytes xs) s = some (t, out) ∧ Ready .idle t ∧ t.ct = s.ct ∧
      s.enc.pending ++ xs.flatMap s.ct.code = out.flatMap bitsOfByte ++ t.enc.pending := by
  induction xs generalizing s with
  | nil => exact ⟨s, [], rfl, hs, rfl, List.append_nil _⟩
  | cons x xs ih =>
    obtain ⟨hx, hxs⟩ := List.forall_mem_cons.1 hx
    let t := complete (encodeWrites (entry s.ct.len x) (encodeSym x s).2 { drained s with outq := (encodeSym x s).1 })
    have ht : Ready .idle t := ⟨hs.mode, hs.clean, rfl, hs.unlimited, hs.room⟩
    obtain ⟨u, out, hrun, hu, hct, hout⟩ := ih ht hxs
    refine ⟨u, _, runDrained_cons (exec_encByte_drained hs hx) ht hrun, hu, hct, ?_⟩
    obtain ⟨hbits, hrest⟩ := packBits_spec (s.ct.code x) (length_pending_lt s.enc)
    have hleft : (encodeSym x s).2 ++ xs.flatMap s.ct.code = out.flatMap bitsOfByte ++ u.enc.pending :=
      (congrArg (· ++ _) (pending_withPending s.enc hrest).symm).trans hout
    calc s.enc.pending ++ (x :: xs).flatMap s.ct.code
        = (s.enc.pending ++ s.ct.code x) ++ xs.flatMap s.ct.code := by rw [List.flatMap_cons, List.append_assoc]
      _ = (encodeSym x s).1.flatMap bitsOfByte ++ ((encodeSym x s).2 ++ xs.flatMap s.ct.code) := by
        rw [hbits, List.append_assoc]; rfl
      _ = ((encodeSym x s).1 ++ out).flatMap bitsOfByte ++ u.enc.pending := by
        rw [hleft, List.flatMap_append, List.append_assoc]

/-- R142: flushing pushes the pending bits, padded with zeros to a byte. -/
theorem runDrained_encFlush {s : State} (hs : Ready .idle s) :
    ∃ t out k, runDrained [.encFlush] s = some (t, out) ∧ Ready .idle t ∧ t.ct = s.ct ∧ k < 8 ∧
      out.flatMap bitsOfByte = s.enc.pending ++ List.replicate k false := by
  by_cases hp : s.enc.pending.isEmpty = true
  · have ht : Ready .idle (complete (drained s)) := ⟨hs.mode, hs.clean, rfl, hs.unlimited, hs.room⟩
    refine ⟨_, _, 0, runDrained_singleton (exec_encFlush_none (s := drained s) hs.mode hp) ht, ht, rfl, by decide, ?_⟩
    rw [List.isEmpty_iff.1 hp]; rfl
  · have hbytes : flushBytes s = [byteOfBits s.enc.pending] := if_neg hp
    have hfit : (flushBytes s).length ≤ 32 := hbytes ▸ Nat.le_of_ble_eq_true rfl
    have hi : exec .encFlush (drained s) = .next (complete (flushWrites { drained s with outq := flushBytes s })) :=
      (exec_encFlush_some (s := drained s) hs.mode hp).trans (congrArg _ (hs.emit_drained _ _ hfit))
    have ht : Ready .idle (complete (flushWrites { drained s with outq := flushBytes s })) :=
      ⟨hs.mode, hs.clean, rfl, hs.unlimited, hs.room⟩
    have hpos : 0 < s.enc.pending.length := List.length_pos_iff.2 (by simpa using hp)
    refine ⟨_, _, 8 - s.enc.pending.length, runDrained_singleton hi ht, ht, rfl, by omega, ?_⟩
    have hpad := bitsOfByte_byteOfBits_pad (length_pending_lt s.enc).le
    exact (congrArg _ hbytes).trans <| (List.flatMap_singleton _ _).trans hpad

/-- R143: with nothing pending, the payload of an input whose symbols all have a code is the bytes of the codes,
padded with zeros. -/
theorem runDrained_payloadPass {s : State} {xs : List Byte} (hs : Ready .idle s) (hp : s.enc.pending = [])
    (hx : ∀ x ∈ xs, entry s.ct.len x ≠ 0) :
    ∃ t out k, runDrained (payloadPass xs) s = some (t, out) ∧ Ready .idle t ∧ t.ct = s.ct ∧ k < 8 ∧
      out.flatMap bitsOfByte = xs.flatMap s.ct.code ++ List.replicate k false := by
  obtain ⟨t, out, hrun, ht, hct, hout⟩ := runDrained_encBytes xs hs hx
  obtain ⟨u, last, k, hflush, hu, hct', hk, hlast⟩ := runDrained_encFlush ht
  refine ⟨u, out ++ last, k, runDrained_append hrun hflush, hu, hct'.trans hct, hk, ?_⟩
  rw [List.flatMap_append, hlast, ← List.append_assoc, ← hout, hp, List.nil_append]

end Sys2Proof.Machine

/-! SUPPORT. Loading a table's codebook (45_codebook_load.md R155 to R162). -/

namespace Sys2Proof.Machine

/-! ## The data words of a code (R88) -/

/-- R88: the bits of a code are read back from its data words. -/
theorem loadWords_dataWords (c : Bits) : loadWords (dataWords c) c.length = c := by
  apply List.ext_getElem
  · simp
  · intro k _ hk
    have hw : k / 32 < (c.length + 31) / 32 := by omega
    have hmod : k % 32 < 32 := Nat.mod_lt _ (by decide)
    have hword : (dataWords c).getD (k / 32) 0 = store 32 ((c.drop (32 * (k / 32))).take 32) := by
      simp [dataWords, hw]
    simp only [loadWords, List.getElem_map, List.getElem_range]
    rw [hword, getMsbD_store _ _ _ (List.length_take_le _ _), List.getD_eq_getElem?_getD, List.getElem?_take_of_lt hmod,
      List.getElem?_drop, Nat.div_add_mod, List.getElem?_eq_getElem hk]
    rfl

/-! ## The records of a codebook -/

/-- R156, R159: a record can be loaded into `ct`: its code is not empty and fits, its symbol has no entry, and no symbol
has its code. -/
structure Loadable (ct : CodeTable) (r : Byte × Bits) : Prop where
  nonempty : r.2 ≠ []
  fits : r.2.length ≤ 255
  free : entry ct.len r.1 = 0
  fresh : ∀ t, ct.code t ≠ r.2

/-- R88, R156: the CT_LOAD of a record stores its code. -/
theorem exec_loadCode {s : State} {r : Byte × Bits} (hm : s.dec.mode = .idle) (hr : Loadable s.ct r) :
    exec (loadCode r.1 r.2) s = .next (complete { s with ct := s.ct.put r.1 r.2 }) := by
  have hlen : (BitVec.ofNat 8 r.2.length).toNat = r.2.length :=
    Nat.mod_eq_of_lt (Nat.lt_succ_of_le hr.fits)
  have hdata : loadWords (dataWords r.2) (BitVec.ofNat 8 r.2.length).toNat = r.2 := by
    rw [hlen, loadWords_dataWords]
  have hne : BitVec.ofNat 8 r.2.length ≠ 0 := fun h0 => hr.nonempty <|
    List.eq_nil_of_length_eq_zero (hlen.symm.trans (congrArg BitVec.toNat h0))
  have hfresh : s.ct.holder (BitVec.ofNat 8 r.2.length) r.2 = none :=
    holder_eq_none fun t ht h => hr.fresh t (by rw [CodeTable.code, ht, h])
  rw [loadCode, exec_ctLoad hm hne hr.free (hdata.symm ▸ hfresh), hdata]

/-- Two records of a codebook have two symbols and two codes. -/
def RecordsDiffer (r q : Byte × Bits) : Prop := r.1 ≠ q.1 ∧ r.2 ≠ q.2

/-- R156: a record that was loadable still is after another one is loaded. -/
theorem Loadable.put {ct : CodeTable} {r q : Byte × Bits} (hr : Loadable ct r) (hq : Loadable ct q)
    (h : RecordsDiffer r q) : Loadable (ct.put r.1 r.2) q where
  nonempty := hq.nonempty
  fits := hq.fits
  free := (put_len_other ct r.2 h.1.symm).trans hq.free
  fresh t := by
    by_cases ht : t = r.1
    · rw [ht, put_code_same _ _ _ hr.fits]; exact h.2
    · rw [put_code_other _ _ ht]; exact hq.fresh t

/-- R162: records that differ are loaded one after another. -/
theorem runDrained_loadCodes {book : List (Byte × Bits)} {s : State} (hs : Ready .idle s)
    (hbook : ∀ r ∈ book, Loadable s.ct r) (hdiff : book.Pairwise RecordsDiffer) :
    ∃ t, runDrained (book.map fun r => loadCode r.1 r.2) s = some (t, []) ∧ Ready .idle t ∧
      t.ct = book.foldl (fun ct r => ct.put r.1 r.2) s.ct := by
  induction book generalizing s with
  | nil => exact ⟨s, rfl, hs, rfl⟩
  | cons r book ih =>
    obtain ⟨hr, hbook⟩ := List.forall_mem_cons.1 hbook
    obtain ⟨hdiff, hrest⟩ := List.pairwise_cons.1 hdiff
    have ht : Ready .idle (complete { drained s with ct := s.ct.put r.1 r.2 }) :=
      ⟨hs.mode, hs.clean, rfl, hs.unlimited, hs.room⟩
    obtain ⟨u, hrun, hu, hct⟩ := ih ht (fun q hq => hr.put (hbook q hq) (hdiff q hq)) hrest
    exact ⟨u, runDrained_cons (exec_loadCode (s := drained s) hs.mode hr) ht hrun, hu, hct⟩

/-! ## The codebook of a table -/

theorem mem_bookOf {ct : CodeTable} {r : Byte × Bits} : r ∈ bookOf ct ↔ entry ct.len r.1 ≠ 0 ∧ r.2 = ct.code r.1 := by
  obtain ⟨sym, c⟩ := r
  rw [bookOf, List.mem_map]
  constructor
  · rintro ⟨x, hx, h⟩
    obtain ⟨rfl, rfl⟩ := Prod.mk.inj h
    exact ⟨by simpa using (List.mem_filter.1 hx).2, rfl⟩
  · rintro ⟨hlen, hcode⟩
    exact ⟨sym, List.mem_filter.2 ⟨mem_allSymbols sym, by simpa using hlen⟩, Prod.ext rfl hcode.symm⟩

/-- R31: the records of a table with distinct codes differ. -/
theorem bookOf_recordsDiffer {ct : CodeTable} (h : CodesDistinct ct) : (bookOf ct).Pairwise RecordsDiffer := by
  refine List.pairwise_map.2 ?_
  refine (nodup_allSymbols.filter _).imp_of_mem fun hx hy hne => ⟨hne, h _ _ hne ?_ ?_⟩
  · simpa using (List.mem_filter.1 hx).2
  · simpa using (List.mem_filter.1 hy).2

/-- R155: the records of a table can be loaded into the empty one. -/
theorem loadable_bookOf {ct : CodeTable} {r : Byte × Bits} (hr : r ∈ bookOf ct) : Loadable CodeTable.empty r := by
  obtain ⟨hlen, hcode⟩ := mem_bookOf.1 hr
  have hne : r.2 ≠ [] := fun h0 => hlen <| BitVec.eq_of_toNat_eq <| by
    rw [← length_code, ← hcode, h0]; rfl
  refine ⟨hne, ?_, CodeTable.empty_len _, fun t h => hne ?_⟩
  · rw [hcode, length_code]; exact Nat.le_of_lt_succ (entry ct.len r.1).isLt
  · rw [← h]; exact List.eq_nil_of_length_eq_zero (by rw [length_code, CodeTable.empty_len]; rfl)

/-- R29, R30: a table that is written from records of `ct` holds their entries as `ct` does, and no others. -/
theorem entry_tableOf_records {ct : CodeTable} (hcan : CodesCanonical ct) {book : List (Byte × Bits)}
    (hbook : ∀ r ∈ book, r.2 = ct.code r.1) (sym : Byte) :
    (sym ∈ book.map Prod.fst → entry (tableOf book).len sym = entry ct.len sym ∧
      entry (tableOf book).bits sym = entry ct.bits sym) ∧
    (sym ∉ book.map Prod.fst → entry (tableOf book).len sym = 0 ∧ entry (tableOf book).bits sym = 0) := by
  induction book using List.reverseRecOn with
  | nil => exact ⟨nofun, fun _ => ⟨CodeTable.empty_len _, CodeTable.empty_bits _⟩⟩
  | append_singleton book r ih =>
    obtain ⟨hin, hout⟩ := ih fun q hq => hbook q (List.mem_append_left _ hq)
    have hr : r.2 = ct.code r.1 := hbook r (List.mem_append_right _ List.mem_cons_self)
    rw [tableOf_append, put_len, put_bits]
    by_cases hs : sym = r.1
    · subst hs
      refine ⟨fun _ => ?_, fun h => absurd (by simp) h⟩
      rw [if_pos rfl, if_pos rfl, hr, length_code]
      exact ⟨by simp, store_load _ _ (entry ct.len r.1).isLt.le (hcan r.1)⟩
    · have hmem : sym ∈ (book ++ [r]).map Prod.fst ↔ sym ∈ book.map Prod.fst := by simp [hs]
      rw [if_neg hs, if_neg hs, hmem]
      exact ⟨hin, hout⟩

/-- R162: the records of a zero-filled table, in any order, rebuild it bit for bit. -/
theorem tableOf_bookOf {ct : CodeTable} (hcan : CodesCanonical ct) {book : List (Byte × Bits)}
    (hperm : book.Perm (bookOf ct)) : tableOf book = ct := by
  have hmem {r : Byte × Bits} : r ∈ book ↔ entry ct.len r.1 ≠ 0 ∧ r.2 = ct.code r.1 := hperm.mem_iff.trans mem_bookOf
  have same (sym : Byte) : entry (tableOf book).len sym = entry ct.len sym ∧
      entry (tableOf book).bits sym = entry ct.bits sym := by
    obtain ⟨hin, hout⟩ := entry_tableOf_records hcan (fun r hr => (hmem.1 hr).2) sym
    by_cases h0 : entry ct.len sym = 0
    · obtain ⟨hl, hb⟩ := hout fun h => by
        obtain ⟨r, hr, rfl⟩ := List.mem_map.1 h
        exact (hmem.1 hr).1 h0
      refine ⟨hl.trans h0.symm, hb.trans (BitVec.eq_of_getMsbD_eq fun k _ => ?_)⟩
      rw [hcan sym k (by rw [h0]; exact Nat.zero_le k)]
      simp
    · exact hin (List.mem_map.2 ⟨(sym, ct.code sym), hmem.2 ⟨h0, rfl⟩, rfl⟩)
  have hlen : (tableOf book).len = ct.len := table_ext fun sym => (same sym).1
  have hbits : (tableOf book).bits = ct.bits := table_ext fun sym => (same sym).2
  cases h : tableOf book
  rw [h] at hlen hbits
  cases ct
  exact congrArg₂ CodeTable.mk hlen hbits

theorem exec_ctClear {s : State} (hm : s.dec.mode = .idle) :
    exec .ctClear s = .next (complete { s with ct := CodeTable.empty }) := by
  rw [exec, execCtClear, whenAccepted_yes (by rw [hm]; rfl)]

/-- R162, R237: loading the codebook of a table rebuilds the table. -/
theorem runDrained_loadBook {s : State} {ct : CodeTable} (hs : Ready .idle s) (hcan : CodesCanonical ct)
    (hdis : CodesDistinct ct) :
    ∃ t, runDrained (loadBook (bookOf ct)) s = some (t, []) ∧ Ready .idle t ∧ t.ct = ct := by
  have ht : Ready .idle (complete { drained s with ct := CodeTable.empty }) :=
    ⟨hs.mode, hs.clean, rfl, hs.unlimited, hs.room⟩
  obtain ⟨u, hrun, hu, hct⟩ := runDrained_loadCodes ht (fun r hr => loadable_bookOf hr) (bookOf_recordsDiffer hdis)
  exact ⟨u, runDrained_cons (exec_ctClear hs.drained.mode) ht hrun, hu, hct.trans (tableOf_bookOf hcan (.refl _))⟩

end Sys2Proof.Machine

/-! SUPPORT. Decoding a payload (46_decoder.md R170 to R177). -/

namespace Sys2Proof.Machine

/-! ## Tables in which no code begins with another (R17, R128) -/

theorem PrefixFree.eq_of_prefix {ct : CodeTable} (h : PrefixFree ct) {x y : Byte} (hx : entry ct.len x ≠ 0)
    (hy : entry ct.len y ≠ 0) (hxy : ct.code x <+: ct.code y) : x = y := by
  by_contra hne
  exact h x y hne hx hy hxy

/-- R17, R31: a code begins with itself, so two of which neither begins with the other are distinct. -/
theorem PrefixFree.codesDistinct {ct : CodeTable} (h : PrefixFree ct) : CodesDistinct ct :=
  fun x y hne hx hy heq => h x y hne hx hy (heq ▸ List.prefix_refl _)

theorem len_ne_zero_iff {ct : CodeTable} {x : Byte} : entry ct.len x ≠ 0 ↔ ct.code x ≠ [] := by
  rw [not_iff_not, ← List.length_eq_zero_iff, length_code, ← BitVec.toNat_inj]
  rfl

/-- R173: the code of a symbol matches that symbol. -/
theorem matching_code {ct : CodeTable} (h : PrefixFree ct) {x : Byte} (hx : entry ct.len x ≠ 0) :
    ct.matching (ct.code x) = some x := by
  cases hm : ct.matching (ct.code x) with
  | none => exact absurd rfl (matching_none hm x)
  | some y =>
    have hcode := matching_some hm
    have hy : entry ct.len y ≠ 0 := by rw [len_ne_zero_iff, hcode]; exact len_ne_zero_iff.1 hx
    rw [h.eq_of_prefix hy hx (hcode ▸ List.prefix_refl _)]

/-- R173, R174: a first part of a code matches no symbol and is live. -/
theorem matching_properPrefix {ct : CodeTable} (h : PrefixFree ct) {x : Byte} {p q : Bits} (hx : entry ct.len x ≠ 0)
    (hcode : p ++ q = ct.code x) (hp : p ≠ []) (hq : q ≠ []) : ct.matching p = none ∧ ct.live p = true := by
  have hlen := congrArg List.length hcode
  rw [List.length_append] at hlen
  have hqlen := List.length_pos_iff.2 hq
  refine ⟨?_, (live_iff ct p).2 ⟨x, by rw [← length_code]; omega, by rw [← hcode, List.take_left]⟩⟩
  cases hm : ct.matching p with
  | none => rfl
  | some y =>
    obtain rfl := matching_some hm
    obtain rfl := h.eq_of_prefix (len_ne_zero_iff.2 hp) hx ⟨q, hcode⟩
    omega

/-! ## Feeding bits -/

/-- R171, R173: while a symbol is owed, the rest `q` of a code after its part `p` pushes its symbol. -/
theorem feedBits_code {ct : CodeTable} (h : PrefixFree ct) {x : Byte} (hx : entry ct.len x ≠ 0) {p q : Bits}
    (hcode : p ++ q = ct.code x) (hq : q ≠ []) {bs : Bits} {remaining : Word} (hr : remaining ≠ 0) {f : Feed}
    (hf : feedBits ct bs (remaining - 1) [] = f) :
    feedBits ct (q ++ bs) remaining p = { f with out := x :: f.out } := by
  induction q generalizing p with
  | nil => exact absurd rfl hq
  | cons b q ih =>
    have hsplit : (p ++ [b]) ++ q = ct.code x := by rw [List.append_assoc]; exact hcode
    rw [List.cons_append, feedBits, if_neg hr]
    cases q with
    | nil =>
      rw [List.append_nil] at hsplit
      rw [hsplit, matching_code h hx, ← hf]
      rfl
    | cons b' q =>
      obtain ⟨hm, hl⟩ := matching_properPrefix h hx hsplit (by simp) nofun
      rw [hm, if_pos hl]
      exact ih hsplit nofun

/-- R171, R178: once no symbol is owed every bit is ignored. -/
theorem feedBits_done (ct : CodeTable) (bs p : Bits) :
    feedBits ct bs 0 p = { out := [], remaining := 0, rest := p, dead := none } := by
  cases bs with
  | nil => rfl
  | cons b bs => rw [feedBits, if_pos rfl]

/-- R177: where no code begins with another, the codes of a string, followed by any bits, decode to the string. -/
theorem feedBits_codes {ct : CodeTable} (h : PrefixFree ct) {xs : List Byte} (hx : ∀ x ∈ xs, entry ct.len x ≠ 0)
    (hlen : xs.length < 2 ^ 32) (tail : Bits) :
    feedBits ct (xs.flatMap ct.code ++ tail) (BitVec.ofNat 32 xs.length) [] =
      { out := xs, remaining := 0, rest := [], dead := none } := by
  induction xs with
  | nil => exact feedBits_done ct tail []
  | cons x xs ih =>
    obtain ⟨hx, hxs⟩ := List.forall_mem_cons.1 hx
    rw [List.length_cons] at hlen
    have hr : BitVec.ofNat 32 (x :: xs).length ≠ 0 := by rw [List.length_cons]; bv_omega
    have hnext : BitVec.ofNat 32 (x :: xs).length - 1 = BitVec.ofNat 32 xs.length := by
      rw [List.length_cons]; bv_omega
    rw [List.flatMap_cons, List.append_assoc]
    exact feedBits_code h hx (List.nil_append _) (len_ne_zero_iff.1 hx) hr (hnext ▸ ih hxs (by omega))

/-- R171: bits fed in two parts, the first of which makes no dead string, are fed one part after the other. -/
theorem feedBits_append {ct : CodeTable} {as : Bits} {remaining : Word} {p : Bits} {f : Feed}
    (hf : feedBits ct as remaining p = f) (h : f.dead = none) (bs : Bits) :
    feedBits ct (as ++ bs) remaining p =
      { feedBits ct bs f.remaining f.rest with out := f.out ++ (feedBits ct bs f.remaining f.rest).out } := by
  subst hf
  induction as generalizing remaining p with
  | nil => rfl
  | cons a as ih =>
    rw [feedBits] at h ⊢
    rw [List.cons_append, feedBits]
    split
    case isTrue h0 => rw [h0, feedBits_done]; rfl
    case isFalse h0 =>
      rw [if_neg h0] at h
      split
      case h_1 s hm => rw [hm] at h; simp only [ih h]; rfl
      case h_2 hm =>
        rw [hm] at h
        split
        case isTrue hl => simp only [if_pos hl] at h; exact ih h
        case isFalse hl => simp only [if_neg hl] at h; cases h

/-- R171: bits that make no dead string make none in a first part of them. -/
theorem feedBits_dead_left {ct : CodeTable} {as bs : Bits} {remaining : Word} {p : Bits}
    (h : (feedBits ct (as ++ bs) remaining p).dead = none) : (feedBits ct as remaining p).dead = none := by
  induction as generalizing remaining p with
  | nil => rfl
  | cons a as ih =>
    rw [List.cons_append, feedBits] at h
    rw [feedBits]
    split
    case isTrue => rfl
    case isFalse h0 =>
      rw [if_neg h0] at h
      split at h
      case h_1 s hm => exact ih h
      case h_2 hm =>
        split at h
        case isTrue hl => rw [if_pos hl]; exact ih h
        case isFalse => cases h

/-- R171: a bit pushes at most one symbol. -/
theorem length_feedBits_out (ct : CodeTable) (bs : Bits) (remaining : Word) (p : Bits) :
    (feedBits ct bs remaining p).out.length ≤ bs.length := by
  induction bs generalizing remaining p with
  | nil => exact Nat.le_refl 0
  | cons b bs ih =>
    rw [feedBits]
    split
    · exact Nat.zero_le _
    · split
      · exact Nat.succ_le_succ (ih _ _)
      · split
        · exact (ih _ _).trans (Nat.le_succ _)
        · exact Nat.zero_le _

/-! ## The payload -/

/-- R171: with OUTQ drained, DEC_FEED of a byte that makes no dead string pushes the symbols its bits complete. -/
theorem exec_decFeed_drained {s : State} {y : Byte} (hs : Ready .decoding s) (hd : (feedByte y s).dead = none) :
    exec (.decFeed y) (drained s) = .next (complete { drained s with
      outq := (feedByte y s).out
      dec := { s.dec.withPartial (feedByte y s).rest with remaining := (feedByte y s).remaining } }) := by
  have hfit : (feedByte y s).out.length ≤ 32 :=
    (length_feedBits_out _ _ _ _).trans (by rw [length_bitsOfByte]; decide)
  refine (exec_decFeed (s := drained s) hs.mode).trans (congrArg _ ((hs.emit_drained _ _ hfit).trans ?_))
  rw [feedWrites, show (feedByte y (drained s)).dead = none from hd]
  rfl

/-- R171: payload bytes that make no dead string push the symbols their bits complete, over the whole payload. -/
theorem runDrained_decBytes (ys : List Byte) {s : State} {f : Feed} (hs : Ready .decoding s)
    (hp : EmptyOrLive s.ct s.dec.partialCode)
    (hf : feedBits s.ct (ys.flatMap bitsOfByte) s.dec.remaining s.dec.partialCode = f) (hd : f.dead = none) :
    ∃ t, runDrained (decBytes ys) s = some (t, f.out) ∧ Ready .decoding t ∧ t.dec.remaining = f.remaining := by
  induction ys generalizing s f with
  | nil => exact ⟨s, hf ▸ rfl, hs, hf ▸ rfl⟩
  | cons y ys ih =>
    subst hf
    rw [List.flatMap_cons] at hd ⊢
    have hfirst : (feedByte y s).dead = none := feedBits_dead_left hd
    obtain ⟨hlen, -, hlive⟩ := feedBits_law s.ct (bitsOfByte y) s.dec.remaining hp
    rw [feedBits_append rfl hfirst] at hd ⊢
    let t := complete { drained s with
      outq := (feedByte y s).out
      dec := { s.dec.withPartial (feedByte y s).rest with remaining := (feedByte y s).remaining } }
    have ht : Ready .decoding t := ⟨hs.mode, hs.clean, rfl, hs.unlimited, hs.room⟩
    have hpartial : t.dec.partialCode = (feedByte y s).rest := partialCode_withPartial s.dec hlen
    have hnext : feedBits t.ct (ys.flatMap bitsOfByte) t.dec.remaining t.dec.partialCode =
        feedBits s.ct (ys.flatMap bitsOfByte) (feedByte y s).remaining (feedByte y s).rest := by rw [hpartial]; rfl
    obtain ⟨u, hrun, hu, hrem⟩ := ih ht (hpartial.symm ▸ hlive hfirst) hnext hd
    exact ⟨u, runDrained_cons (exec_decFeed_drained hs hfirst) ht hrun, hu, hrem⟩

theorem exec_decStart {s : State} (count : Word) (hm : s.dec.mode = .idle) :
    exec (.decStart count) s = .next (complete { s with
      dec := { mode := .decoding, declared := count, remaining := count, plen := 0, pbits := 0 } }) := by
  rw [exec, execDecStart, whenAccepted_yes (by rw [hm]; rfl)]

/-- R172: DEC_END with no symbol owed. -/
theorem exec_decEnd {s : State} (hm : s.dec.mode = .decoding) (hr : s.dec.remaining = 0) :
    exec .decEnd s = .next (complete { s with dec := { s.dec with mode := .idle } }) := by
  rw [exec, execDecEnd, whenAccepted_yes (by rw [hm]; rfl), if_pos hr]

/-- R177, R237: a payload that holds the codes of a string over the table, followed by any bits, decompresses to the
string. -/
theorem runDrained_decompress {s : State} {xs ys : List Byte} {tail : Bits} (hs : Ready .idle s)
    (hfree : PrefixFree s.ct) (hx : ∀ x ∈ xs, entry s.ct.len x ≠ 0) (hlen : xs.length < 2 ^ 32)
    (hys : ys.flatMap bitsOfByte = xs.flatMap s.ct.code ++ tail) :
    ∃ t, runDrained (decompress (BitVec.ofNat 32 xs.length) ys) s = some (t, xs) := by
  let count := BitVec.ofNat 32 xs.length
  let s₁ := complete { drained s with
    dec := { mode := .decoding, declared := count, remaining := count, plen := 0, pbits := 0 } }
  have hs₁ : Ready .decoding s₁ := ⟨rfl, hs.clean, rfl, hs.unlimited, hs.room⟩
  have hfeed : feedBits s₁.ct (ys.flatMap bitsOfByte) s₁.dec.remaining s₁.dec.partialCode =
      { out := xs, remaining := 0, rest := [], dead := none } := hys ▸ feedBits_codes hfree hx hlen tail
  obtain ⟨s₂, hrun, hs₂, hrem⟩ := runDrained_decBytes ys hs₁ (.inl rfl) hfeed rfl
  let s₃ := complete { drained s₂ with dec := { s₂.dec with mode := .idle } }
  have hs₃ : Ready .idle s₃ := ⟨rfl, hs₂.clean, rfl, hs₂.unlimited, hs₂.room⟩
  have hend : runDrained [.decEnd] s₂ = some (s₃, []) := runDrained_singleton (exec_decEnd hs₂.drained.mode hrem) hs₃
  have htail := runDrained_append hrun hend
  rw [List.append_nil] at htail
  exact ⟨s₃, runDrained_cons (exec_decStart count hs.drained.mode) hs₁ htail⟩

end Sys2Proof.Machine

/-! CERTIFICATE. The round trip: O48. -/

namespace Sys2Proof.Machine

/-- Settles O48: in the generated table no code begins with another and each symbol of the input has one, the codebook
rebuilds the table, and the payload is the codes of the input and zero bits, which are ignored. -/
theorem roundTripLaw : Obligations.RoundTripLaw := by
  intro s xs hm herr hx hg hroom hne hlen
  obtain ⟨s₁, htable, hs₁, hpend, hfree, hcan, hhas⟩ := runDrained_tablePass ⟨hm, herr, hx, hg, hroom⟩ hne hlen
  obtain ⟨t, payload, k, hpayload, ht, hct, -, hbits⟩ := runDrained_payloadPass hs₁ hpend hhas
  obtain ⟨u, hload, hu, huct⟩ := runDrained_loadBook ht (hct ▸ hcan) (hct ▸ hfree.codesDistinct)
  have hsame : u.ct = s₁.ct := huct.trans hct
  obtain ⟨v, hdec⟩ := runDrained_decompress hu (hsame ▸ hfree) (hsame ▸ hhas) hlen (hsame ▸ hbits)
  exact ⟨t, payload, runDrained_append htable hpayload, v, runDrained_append hload hdec⟩

end Sys2Proof.Machine

/-! CERTIFICATE. The statements on FREQ_CLEAR and FREQ_ACC: O14, O15, O16. -/

namespace Sys2Proof.Machine

/-- Settles O14: accepted in IDLE, refused in DECODING. -/
theorem freqClearZeroes : Obligations.FreqClearZeroes := by
  refine ⟨rfl, fun s => ⟨fun hm => exec_freqClear hm, fun hm => ?_⟩⟩
  rw [exec, execFreqClear, whenAccepted_no (by rw [hm]; rfl)]
  rfl

/-- R86, R90: the header of FREQ_ACC is its match value with the symbol in SYM. -/
theorem freqAcc_header (sym : Byte) : (Instr.freqAcc sym).header = 0x11000000 ||| sym.setWidth 32 := by
  simp [Instr.header, mkHeader, fieldAt, Op.code]

/-- R102, R207: with a full TOTAL, FREQ_ACC raises COUNT_OVERFLOW. -/
theorem exec_freqAcc_full {s : State} {sym : Byte} (hm : s.dec.mode = .idle) (hfull : s.freq.total = 0xFFFFFFFF) :
    exec (.freqAcc sym) s = .next (raise .countOverflow 0 0 0 (Instr.freqAcc sym).header s) := by
  rw [exec, execFreqAcc, whenAccepted_yes (by rw [hm]; rfl), if_pos hfull]

/-- Settles O15: below its limit TOTAL counts with the symbol's counter, at it the command refuses. -/
theorem freqAccCounts : Obligations.FreqAccCounts := by
  refine fun sym => ⟨?_, fun s hm => ⟨fun hroom => exec_freqAcc hm hroom, fun hfull => ?_⟩⟩
  · rw [← freqAcc_header]
    exact decode_encode (i := .freqAcc sym) rfl
  · rw [exec_freqAcc_full hm hfull, raise, Instr.header, opcOf_mkHeader, symOf_mkHeader]
    rfl

/-- R192: a command that raises no error is followed by the rest. -/
theorem execAll_cons {i : Instr} {s t : State} (is : List Instr) (hi : exec i s = .next t)
    (ht : t.err.error = false) : execAll (i :: is) s = execAll is t := by
  simp [execAll, hi, ht]

/-- R103: TOTAL grows by the length of the input, modulo 2^32. -/
theorem total_foldl_add (xs : List Byte) (f : FreqTable) :
    (xs.foldl FreqTable.add f).total = f.total + BitVec.ofNat 32 xs.length := by
  induction xs generalizing f with
  | nil => exact (BitVec.add_zero _).symm
  | cons x xs ih =>
    rw [List.foldl_cons, ih, FreqTable.add, List.length_cons]
    bv_omega

/-- R102, R103: FREQ_ACC of each byte of an input for which TOTAL has room counts the input. -/
theorem execAll_freqBytes (xs : List Byte) {s : State} (hm : s.dec.mode = .idle) (herr : s.err.error = false)
    (hroom : s.freq.total.toNat + xs.length < 2 ^ 32) :
    ∃ t, execAll (freqBytes xs) s = .next t ∧ t.err.error = false ∧ t.freq = xs.foldl FreqTable.add s.freq := by
  induction xs generalizing s with
  | nil => exact ⟨s, rfl, herr, rfl⟩
  | cons x xs ih =>
    rw [List.length_cons] at hroom
    have hbelow : s.freq.total ≠ 0xFFFFFFFF := by bv_omega
    have htotal : (s.freq.add x).total.toNat = s.freq.total.toNat + 1 := by
      show (s.freq.total + 1).toNat = _
      bv_omega
    obtain ⟨t, hrun, ht, hfreq⟩ := ih (s := complete { s with freq := s.freq.add x }) hm herr
      (by rw [complete_freq, htotal]; omega)
    exact ⟨t, (execAll_cons _ (exec_freqAcc hm hbelow) herr).trans hrun, ht, hfreq⟩

/-- Settles O16: from zero, no counter and no TOTAL of an input of at most 2^32 - 1 bytes wraps. -/
theorem countsAreOccurrences : Obligations.CountsAreOccurrences := by
  intro s xs hm herr hlen
  obtain ⟨t, hrun, ht, hfreq⟩ := execAll_freqBytes xs (s := complete { s with freq := FreqTable.empty }) hm herr
    (by simpa using hlen)
  refine ⟨t, (execAll_cons _ (exec_freqClear hm) herr).trans hrun, ht, ?_, fun sym => ?_⟩
  · simpa [hfreq, total_foldl_add] using hlen
  · have hcount : xs.count sym ≤ xs.length := List.count_le_length
    simpa [hfreq, entry_foldl_add] using hcount.trans_lt hlen

end Sys2Proof.Machine

/-! SUPPORT. What the builder takes out of the collection (42_tree_builder.md R112). -/

namespace Sys2Proof.Machine

/-- R112: the key (freq, handle) as one number; the handle is its low 9 bits. -/
def HeapEntry.key (e : HeapEntry) : Nat := e.freq.toNat * 512 + e.handle.toNat

/-- R112: the order of the keys is lexicographic. -/
theorem HeapEntry.key_lt_iff {a b : HeapEntry} :
    a.key < b.key ↔ a.freq < b.freq ∨ (a.freq = b.freq ∧ a.handle < b.handle) := by
  have ha := a.handle.isLt
  have hb := b.handle.isLt
  rw [key, key, BitVec.lt_def, BitVec.lt_def, ← BitVec.toNat_inj]
  omega

theorem HeapEntry.before_eq (a b : HeapEntry) : a.before b = decide (a.key < b.key) := by
  simp [before, key_lt_iff]

/-- Equal keys are keys of one handle. -/
theorem HeapEntry.key_lt_of_le {a b : HeapEntry} (hle : a.key ≤ b.key) (hne : a.handle ≠ b.handle) :
    a.key < b.key := by
  have ha := a.handle.isLt
  have hb := b.handle.isLt
  rw [ne_eq, ← BitVec.toNat_inj] at hne
  simp only [key] at hle ⊢
  omega

/-- R112: no key in the collection is below the one removed. -/
theorem popMin_key_le {es rest : List HeapEntry} {m : HeapEntry} (h : popMin es = some (m, rest)) :
    ∀ e ∈ rest, m.key ≤ e.key := by
  induction es generalizing m rest with
  | nil => cases h
  | cons e es ih =>
    rw [popMin] at h
    split at h
    case h_1 =>
      obtain ⟨-, rfl⟩ := Prod.mk.inj (Option.some.inj h)
      exact nofun
    case h_2 m' rest' hp =>
      rw [HeapEntry.before_eq] at h
      split at h
      case isTrue hlt =>
        obtain ⟨rfl, rfl⟩ := Prod.mk.inj (Option.some.inj h)
        have hle : e.key ≤ m'.key := (of_decide_eq_true hlt).le
        intro a ha
        rcases List.mem_cons.1 ((popMin_perm hp).mem_iff.1 ha) with rfl | ha
        · exact hle
        · exact hle.trans (ih hp a ha)
      case isFalse hge =>
        obtain ⟨rfl, rfl⟩ := Prod.mk.inj (Option.some.inj h)
        exact List.forall_mem_cons.2 ⟨not_lt.1 fun hlt => hge (decide_eq_true hlt), ih hp⟩

/-- R112: with distinct handles the key removed is below every other. -/
theorem popMin_key_lt {es rest : List HeapEntry} {m : HeapEntry} (hd : (es.map HeapEntry.handle).Nodup)
    (h : popMin es = some (m, rest)) : ∀ e ∈ rest, m.key < e.key := by
  have hd' := ((popMin_perm h).map HeapEntry.handle).nodup_iff.1 hd
  intro e he
  exact HeapEntry.key_lt_of_le (popMin_key_le h e he) fun heq =>
    (List.nodup_cons.1 hd').1 (heq ▸ List.mem_map_of_mem he)

theorem popMin_isSome {es : List HeapEntry} (h : es ≠ []) : ∃ m rest, popMin es = some (m, rest) := by
  cases hp : popMin es with
  | none => exact absurd (popMin_eq_none hp) h
  | some r => exact ⟨r.1, r.2, rfl⟩

/-- R114: the node made over `x`, its left child, and `y`. -/
def HeapEntry.parent (x y : HeapEntry) : Node := .internal (x.freq + y.freq) x.handle y.handle

/-- R113, R114: a pass over two nodes or more makes the two smallest, `x` before `y`, the children of a new node. -/
theorem mergePass_smallest {b : Builder} (hd : (b.heap.map HeapEntry.handle).Nodup) (h : 2 ≤ b.heap.length) :
    ∃ x y rest, b.heap.Perm (x :: y :: rest) ∧ x.key < y.key ∧ (∀ e ∈ rest, y.key < e.key) ∧
      mergePass b =
        { node := b.node.setIfInBounds b.next (x.parent y)
          heap := rest ++ [{ freq := x.freq + y.freq, handle := BitVec.ofNat 9 b.next }]
          next := b.next + 1 } := by
  obtain ⟨x, heap₁, hx⟩ := popMin_isSome (List.length_pos_iff.1 (Nat.zero_lt_of_lt h))
  have hperm := popMin_perm hx
  have hlen := hperm.length_eq
  rw [List.length_cons] at hlen
  obtain ⟨y, rest, hy⟩ := popMin_isSome (List.length_pos_iff.1 (show 0 < heap₁.length by omega))
  have hperm₁ := popMin_perm hy
  have hd₁ : (heap₁.map HeapEntry.handle).Nodup :=
    (List.nodup_cons.1 ((hperm.map HeapEntry.handle).nodup_iff.1 hd)).2
  refine ⟨x, y, rest, hperm.trans (hperm₁.cons x), ?_, popMin_key_lt hd₁ hy, by simp only [mergePass, hx, hy]; rfl⟩
  exact popMin_key_lt hd hx y (hperm₁.mem_iff.2 List.mem_cons_self)

end Sys2Proof.Machine

/-! SUPPORT. The nodes that are no child yet (42_tree_builder.md R110 to R114): the collection of the builder holds
exactly these. -/

namespace Sys2Proof.Machine

/-! ## Children in the arena -/

/-- Handle `i` is one of the two children of the record. -/
def Node.HasChild (x : Node) (i : Nat) : Prop := ∃ f l r, x = .internal f l r ∧ (l.toNat = i ∨ r.toNat = i)

theorem not_hasChild_leaf (sym : Byte) (f : Word) (i : Nat) : ¬ (Node.leaf sym f).HasChild i := nofun

theorem hasChild_parent (x y : HeapEntry) (i : Nat) :
    (x.parent y).HasChild i ↔ x.handle.toNat = i ∨ y.handle.toNat = i := by
  simp [Node.HasChild, HeapEntry.parent]

theorem childBefore_iff {node : Vector Node Config.nodeMax} {j i : Nat} :
    ChildBefore node j i ↔ ∃ k < j, ∃ x, node[k]? = some x ∧ x.HasChild i := by
  constructor
  · rintro ⟨k, f, l, r, hk, hn, hc⟩
    exact ⟨k, hk, _, hn, f, l, r, rfl, hc⟩
  · rintro ⟨k, hk, _, hn, f, l, r, rfl, hc⟩
    exact ⟨k, f, l, r, hk, hn, hc⟩

/-- Which handles are children before `j` is read from the records below `j` alone. -/
theorem childBefore_congr {node node' : Vector Node Config.nodeMax} {j : Nat} (h : ∀ k < j, node'[k]? = node[k]?)
    (i : Nat) : ChildBefore node' j i ↔ ChildBefore node j i := by
  rw [childBefore_iff, childBefore_iff]
  exact exists_congr fun k => and_congr_right fun hk => by rw [h k hk]

/-- The record written at handle `k` leaves the records below. -/
theorem getElem?_setIfInBounds_below (node : Vector Node Config.nodeMax) {i k : Nat} (x : Node) (h : i < k) :
    (node.setIfInBounds k x)[i]? = node[i]? :=
  Vector.getElem?_setIfInBounds_ne (Nat.ne_of_gt h)

/-- The children before a new record, and its own, are those after it. -/
theorem childBefore_setIfInBounds {node : Vector Node Config.nodeMax} {j : Nat} (x : Node) (hj : j < Config.nodeMax)
    (i : Nat) : ChildBefore (node.setIfInBounds j x) (j + 1) i ↔ ChildBefore node j i ∨ x.HasChild i := by
  rw [← childBefore_congr (fun k hk => getElem?_setIfInBounds_below node x hk) i, childBefore_iff, childBefore_iff]
  simp only [Nat.lt_succ_iff_lt_or_eq, or_and_right, exists_or, exists_eq_left,
    Vector.getElem?_setIfInBounds_self_of_lt hj, Option.some.injEq, exists_eq_left']

/-! ## The collection -/

/-- R110: the collection holds the handles below `next` that are no child yet, each once and with its node's frequency;
a child is below its node. -/
structure Builder.Frontier (b : Builder) : Prop where
  nodup : (b.heap.map HeapEntry.handle).Nodup
  mem_iff : ∀ i, (∃ e ∈ b.heap, e.handle.toNat = i) ↔ i < b.next ∧ ¬ ChildBefore b.node b.next i
  stored : ∀ e ∈ b.heap, ∃ x, b.node[e.handle.toNat]? = some x ∧ x.freq = e.freq
  childBelow : ∀ i, ChildBefore b.node b.next i → i + 1 < b.next

/-- R110: at the start the collection is empty and no handle is used. -/
theorem frontier_start (node : Vector Node Config.nodeMax) : Builder.Frontier ⟨node, [], 0⟩ where
  nodup := List.nodup_nil
  mem_iff _ := ⟨nofun, fun h => absurd h.1 (Nat.not_lt_zero _)⟩
  stored := nofun
  childBelow := by
    rintro i ⟨k, f, l, r, hk, -⟩
    exact absurd hk (Nat.not_lt_zero k)

/-- Every handle of the collection is below `next`. -/
theorem Builder.Frontier.lt {b : Builder} (h : b.Frontier) {e : HeapEntry} (he : e ∈ b.heap) :
    e.handle.toNat < b.next :=
  ((h.mem_iff _).1 ⟨e, he, rfl⟩).1

/-- R111, R114: a new node takes the next handle and joins the collection, which its children leave. -/
theorem Builder.Frontier.push {b : Builder} (h : b.Frontier) (hn : b.next < Config.nodeMax) {x : Node}
    {kept : List HeapEntry} (hd : (kept.map HeapEntry.handle).Nodup)
    (hkept : ∀ e, e ∈ kept ↔ e ∈ b.heap ∧ ¬ x.HasChild e.handle.toNat) (hx : ∀ i, x.HasChild i → i < b.next) :
    Builder.Frontier
      { node := b.node.setIfInBounds b.next x
        heap := kept ++ [{ freq := x.freq, handle := BitVec.ofNat 9 b.next }]
        next := b.next + 1 } := by
  have hnew : (BitVec.ofNat 9 b.next).toNat = b.next :=
    Nat.mod_eq_of_lt (hn.trans (by decide))
  have hlt {e : HeapEntry} (he : e ∈ kept) : e.handle.toNat < b.next := h.lt ((hkept e).1 he).1
  constructor
  case nodup =>
    rw [List.map_append, List.nodup_append]
    refine ⟨hd, List.nodup_singleton _, fun a ha c hc heq => ?_⟩
    obtain ⟨e, he, rfl⟩ := List.mem_map.1 ha
    obtain rfl := List.mem_singleton.1 hc
    exact (hlt he).ne ((congrArg BitVec.toNat heq).trans hnew)
  case mem_iff =>
    intro i
    rw [childBefore_setIfInBounds x hn]
    constructor
    · rintro ⟨e, he, rfl⟩
      rcases List.mem_append.1 he with he | he
      · obtain ⟨hmem, hno⟩ := (hkept e).1 he
        obtain ⟨hi, hfree⟩ := (h.mem_iff _).1 ⟨e, hmem, rfl⟩
        exact ⟨Nat.lt_succ_of_lt hi, not_or.2 ⟨hfree, hno⟩⟩
      · obtain rfl := List.mem_singleton.1 he
        rw [hnew]
        refine ⟨Nat.lt_succ_self _, not_or.2 ⟨fun hc => ?_, fun hc => (hx _ hc).ne rfl⟩⟩
        exact Nat.not_succ_lt_self (h.childBelow _ hc)
    · rintro ⟨hi, hno⟩
      obtain ⟨hfree, hno⟩ := not_or.1 hno
      rcases Nat.lt_succ_iff_lt_or_eq.1 hi with hi | rfl
      · obtain ⟨e, he, rfl⟩ := (h.mem_iff i).2 ⟨hi, hfree⟩
        exact ⟨e, List.mem_append_left _ ((hkept e).2 ⟨he, hno⟩), rfl⟩
      · exact ⟨_, List.mem_append_right _ List.mem_cons_self, hnew⟩
  case stored =>
    intro e he
    rcases List.mem_append.1 he with he | he
    · rw [getElem?_setIfInBounds_below _ _ (hlt he)]
      exact h.stored e ((hkept e).1 he).1
    · obtain rfl := List.mem_singleton.1 he
      exact ⟨x, getElem?_setIfInBounds_handle x hn, rfl⟩
  case childBelow =>
    intro i hi
    rcases (childBefore_setIfInBounds x hn i).1 hi with hi | hi
    · exact Nat.lt_succ_of_lt (h.childBelow i hi)
    · exact Nat.succ_lt_succ (hx i hi)

/-- The node made last is no child yet: a collection of one node holds this one. -/
theorem Builder.Frontier.handle_of_singleton {b : Builder} (h : b.Frontier) {e : HeapEntry} (he : b.heap = [e]) :
    e.handle.toNat = b.next - 1 := by
  have hpos : 0 < b.next := Nat.zero_lt_of_lt (h.lt (he ▸ List.mem_cons_self))
  obtain ⟨d, hd, hlast⟩ := (h.mem_iff (b.next - 1)).2
    ⟨Nat.sub_lt hpos Nat.one_pos, fun hc => by have := h.childBelow _ hc; omega⟩
  rw [he] at hd
  exact List.mem_singleton.1 hd ▸ hlast

/-! ## The leaves -/

/-- R111: after the leaves of the symbols, handle `k` is the leaf of the `k`-th. -/
theorem foldl_addLeaf_frontier {f : FreqTable} {node : Vector Node Config.nodeMax} (syms : List Byte)
    (hn : syms.length ≤ Config.nodeMax) :
    (syms.foldl (addLeaf f) ⟨node, [], 0⟩).Frontier ∧ (syms.foldl (addLeaf f) ⟨node, [], 0⟩).next = syms.length ∧
      ∀ k (h : k < syms.length),
        (syms.foldl (addLeaf f) ⟨node, [], 0⟩).node[k]? = some (.leaf syms[k] (entry f.count syms[k])) := by
  induction syms using List.reverseRecOn with
  | nil => exact ⟨frontier_start node, rfl, nofun⟩
  | append_singleton syms sym ih =>
    rw [List.length_append, List.length_singleton] at hn
    obtain ⟨hfr, hnext, hleaf⟩ := ih (by omega)
    have hlt : (syms.foldl (addLeaf f) ⟨node, [], 0⟩).next < Config.nodeMax := by omega
    rw [List.foldl_append, List.foldl_cons, List.foldl_nil]
    refine ⟨?_, by rw [addLeaf_next, hnext, List.length_append, List.length_singleton], fun k hk => ?_⟩
    · exact hfr.push hlt (x := .leaf sym (entry f.count sym)) hfr.nodup
        (fun e => (and_iff_left (not_hasChild_leaf _ _ _)).symm) nofun
    · rw [List.length_append, List.length_singleton] at hk
      rcases Nat.lt_succ_iff_lt_or_eq.1 hk with hk | rfl
      · rw [addLeaf, getElem?_setIfInBounds_below _ _ (by omega), hleaf k hk]
        simp only [List.getElem_append_left hk]
      · rw [addLeaf, hnext, Vector.getElem?_setIfInBounds_self_of_lt (by omega)]
        simp only [List.getElem_concat_length]

/-! ## The internal nodes -/

/-- R112 to R114: the record at handle `j` is an internal node over the two smallest nodes before `j` that are no
children yet, the smaller on the left. -/
def MergedAt (node : Vector Node Config.nodeMax) (j : Nat) : Prop :=
  ∃ (l r : BitVec 9) (x y : Node),
    l ≠ r ∧ l.toNat < j ∧ r.toNat < j ∧ node[l.toNat]? = some x ∧ node[r.toNat]? = some y ∧
    node[j]? = some (.internal (x.freq + y.freq) l r) ∧
    (x.freq < y.freq ∨ (x.freq = y.freq ∧ l < r)) ∧
    ¬ ChildBefore node j l.toNat ∧ ¬ ChildBefore node j r.toNat ∧
    ∀ i, i < j → i ≠ l.toNat → i ≠ r.toNat → ¬ ChildBefore node j i →
      ∃ z, node[i]? = some z ∧ (y.freq < z.freq ∨ (y.freq = z.freq ∧ r.toNat < i))

/-- The records up to `j` decide what stands at `j`. -/
theorem MergedAt.congr {node node' : Vector Node Config.nodeMax} {j : Nat} (h : MergedAt node j)
    (hsame : ∀ k ≤ j, node'[k]? = node[k]?) : MergedAt node' j := by
  have hchild (i : Nat) : ChildBefore node' j i ↔ ChildBefore node j i :=
    childBefore_congr (fun k hk => hsame k hk.le) i
  obtain ⟨l, r, x, y, hne, hl, hr, hx, hy, hj, hlt, hfl, hfr, hothers⟩ := h
  refine ⟨l, r, x, y, hne, hl, hr, (hsame _ hl.le).trans hx, (hsame _ hr.le).trans hy, (hsame _ le_rfl).trans hj, hlt,
    mt (hchild _).1 hfl, mt (hchild _).1 hfr, fun i hi hil hir hfree => ?_⟩
  rw [hsame i hi.le]
  exact hothers i hi hil hir (mt (hchild i).2 hfree)

/-- R114: what a pass leaves in the collection is what is no child of the node it makes. -/
theorem Builder.Frontier.mem_rest_iff {b : Builder} (h : b.Frontier) {x y : HeapEntry} {rest : List HeapEntry}
    (hperm : b.heap.Perm (x :: y :: rest)) (e : HeapEntry) :
    e ∈ rest ↔ e ∈ b.heap ∧ ¬ (x.parent y).HasChild e.handle.toNat := by
  have hd := (hperm.map HeapEntry.handle).nodup_iff.1 h.nodup
  obtain ⟨hx, hd⟩ := List.nodup_cons.1 hd
  obtain ⟨hy, -⟩ := List.nodup_cons.1 hd
  rw [hasChild_parent, hperm.mem_iff, List.mem_cons, List.mem_cons, BitVec.toNat_inj, BitVec.toNat_inj]
  constructor
  · intro he
    have hhandle := List.mem_map_of_mem (f := HeapEntry.handle) he
    refine ⟨.inr (.inr he), ?_⟩
    rintro (heq | heq)
    · exact hx (heq ▸ List.mem_cons_of_mem _ hhandle)
    · exact hy (heq ▸ hhandle)
  · rintro ⟨rfl | rfl | he, hno⟩
    · exact absurd (.inl rfl) hno
    · exact absurd (.inr rfl) hno
    · exact he

/-- R112 to R114: the node over the two smallest keys of the collection is over the two smallest nodes that are no
children yet. -/
theorem Builder.Frontier.mergedAt {b : Builder} (h : b.Frontier) (hn : b.next < Config.nodeMax) {x y : HeapEntry}
    {rest : List HeapEntry} (hperm : b.heap.Perm (x :: y :: rest)) (hxy : x.key < y.key)
    (hrest : ∀ e ∈ rest, y.key < e.key) : MergedAt (b.node.setIfInBounds b.next (x.parent y)) b.next := by
  have below {k : Nat} (hk : k < b.next) := getElem?_setIfInBounds_below b.node (x.parent y) hk
  have hchild := childBefore_congr fun k hk => below (k := k) hk
  have hx : x ∈ b.heap := hperm.mem_iff.2 List.mem_cons_self
  have hy : y ∈ b.heap := hperm.mem_iff.2 (List.mem_cons_of_mem _ List.mem_cons_self)
  obtain ⟨hxlt, hxfree⟩ := (h.mem_iff _).1 ⟨x, hx, rfl⟩
  obtain ⟨hylt, hyfree⟩ := (h.mem_iff _).1 ⟨y, hy, rfl⟩
  obtain ⟨nx, hnx, hfx⟩ := h.stored x hx
  obtain ⟨ny, hny, hfy⟩ := h.stored y hy
  have hne : x.handle ≠ y.handle := fun heq =>
    (List.nodup_cons.1 ((hperm.map HeapEntry.handle).nodup_iff.1 h.nodup)).1 (heq ▸ List.mem_cons_self)
  refine ⟨x.handle, y.handle, nx, ny, hne, hxlt, hylt, (below hxlt).trans hnx, (below hylt).trans hny, ?_, ?_,
    mt (hchild _).1 hxfree, mt (hchild _).1 hyfree, fun i hi hix hiy hfree => ?_⟩
  · rw [hfx, hfy]
    exact Vector.getElem?_setIfInBounds_self_of_lt hn
  · rw [hfx, hfy]
    exact HeapEntry.key_lt_iff.1 hxy
  · obtain ⟨e, he, rfl⟩ := (h.mem_iff i).2 ⟨hi, mt (hchild i).2 hfree⟩
    have herest : e ∈ rest := (h.mem_rest_iff hperm e).2 ⟨he, by
      rw [hasChild_parent]; exact not_or.2 ⟨hix.symm, hiy.symm⟩⟩
    obtain ⟨z, hz, hfz⟩ := h.stored e he
    refine ⟨z, (below hi).trans hz, ?_⟩
    rw [hfy, hfz]
    exact HeapEntry.key_lt_iff.1 (hrest e herest)

/-- R113, R114: a pass over two nodes or more makes the two smallest the children of a new node, the only record it
writes. -/
theorem mergePass_frontier {b : Builder} (h : b.Frontier) (hn : b.next < Config.nodeMax) (h2 : 2 ≤ b.heap.length) :
    (mergePass b).Frontier ∧ MergedAt (mergePass b).node b.next ∧ (mergePass b).next = b.next + 1 ∧
      (mergePass b).heap.length + 1 = b.heap.length ∧ ∀ k < b.next, (mergePass b).node[k]? = b.node[k]? := by
  obtain ⟨x, y, rest, hperm, hxy, hrest, e⟩ := mergePass_smallest h.nodup h2
  have hd : (rest.map HeapEntry.handle).Nodup :=
    (List.nodup_cons.1 (List.nodup_cons.1 ((hperm.map HeapEntry.handle).nodup_iff.1 h.nodup)).2).2
  have hbelow (i : Nat) (hi : (x.parent y).HasChild i) : i < b.next := by
    rcases (hasChild_parent x y i).1 hi with rfl | rfl
    · exact h.lt (hperm.mem_iff.2 List.mem_cons_self)
    · exact h.lt (hperm.mem_iff.2 (List.mem_cons_of_mem _ List.mem_cons_self))
  rw [e]
  exact ⟨h.push hn hd (h.mem_rest_iff hperm) hbelow, h.mergedAt hn hperm hxy hrest, rfl,
    by rw [hperm.length_eq]; simp, fun k hk => getElem?_setIfInBounds_below _ _ hk⟩

/-- R113: `n` passes over `n + 1` nodes make `n` internal nodes and leave one node. -/
theorem mergePasses_frontier {n : Nat} {b : Builder} (h : b.Frontier) (hn : b.next + n ≤ Config.nodeMax)
    (hlen : b.heap.length = n + 1) :
    (mergePasses n b).Frontier ∧ (mergePasses n b).next = b.next + n ∧ (mergePasses n b).heap.length = 1 ∧
      (∀ k < b.next, (mergePasses n b).node[k]? = b.node[k]?) ∧
      ∀ j, b.next ≤ j → j < b.next + n → MergedAt (mergePasses n b).node j := by
  induction n generalizing b with
  | zero => exact ⟨h, rfl, hlen, fun _ _ => rfl, fun j hj hj' => absurd hj' (Nat.not_lt.2 hj)⟩
  | succ n ih =>
    obtain ⟨hfr, hmerged, hnext, hheap, hsame⟩ := mergePass_frontier h (by omega) (by omega)
    obtain ⟨hfr', hnext', hone, hsame', hmerged'⟩ := ih hfr (by omega) (by omega)
    rw [hnext] at hnext' hsame' hmerged'
    refine ⟨hfr', by rw [mergePasses, hnext']; omega, hone,
      fun k hk => (hsame' k (Nat.lt_succ_of_lt hk)).trans (hsame k hk), fun j hj hj' => ?_⟩
    rcases hj.eq_or_lt with rfl | hj
    · exact hmerged.congr fun k hk => hsame' k (Nat.lt_succ_of_le hk)
    · exact hmerged' j hj (by omega)

end Sys2Proof.Machine

/-! CERTIFICATE. The arena BUILD writes: O21. -/

namespace Sys2Proof.Machine

/-- Settles O21: the collection holds exactly the nodes that are no child yet, so the two smallest keys a pass removes
are the smallest of all such nodes. -/
theorem treeLayout : Obligations.TreeLayout := by
  intro f node syms n t hpos
  have hle : n ≤ 256 := length_presentSymbols_le f
  have hmax : Config.nodeMax = 511 := rfl
  obtain ⟨hfr, hnext, hleaf⟩ := foldl_addLeaf_frontier (f := f) (node := node) syms (by omega)
  obtain ⟨-, hheap⟩ := foldl_addLeaf_covers (f := f) (node := node) syms (by omega)
  obtain ⟨hfr', hnext', hone, hsame, hmerged⟩ :=
    mergePasses_frontier (n := n - 1) hfr (by omega) (by omega)
  rw [hnext] at hnext' hsame hmerged
  obtain ⟨e, he⟩ := List.length_eq_one_iff.1 hone
  refine ⟨?_, ?_, fun k hk => (hsame k hk).trans (hleaf k hk), fun j hj hj' => hmerged j hj (by omega)⟩
  · have hnn : t.nnodes = BitVec.ofNat 10 (n + (n - 1)) := congrArg (BitVec.ofNat 10) hnext'
    rw [hnn, BitVec.toNat_ofNat]
    omega
  · have hroot : t.root = e.handle := by
      simp only [t, buildTree, leafBuilder]
      rw [he]
      rfl
    rw [hroot, hfr'.handle_of_singleton he, hnext']
    omega

end Sys2Proof.Machine

/-! SUPPORT. The symbols of BUILD's tree (42_tree_builder.md R110, R111; 43_code_table.md R125): no leaf of another
symbol is reached from the root. -/

namespace Sys2Proof.Machine

/-- The records below handle `m` are leaves of the given symbols, or internal nodes with both children below `m`. -/
def LeavesIn (node : Vector Node Config.nodeMax) (m : Nat) (syms : List Byte) : Prop :=
  ∀ i < m, (∃ sym ∈ syms, ∃ f, node[i]? = some (.leaf sym f)) ∨
    ∃ f, ∃ l r : BitVec 9, node[i]? = some (.internal f l r) ∧ l.toNat < m ∧ r.toNat < m

/-- A leaf below `m` is one of the given symbols. -/
theorem LeavesIn.mem_of_leaf {node : Vector Node Config.nodeMax} {m i : Nat} {syms : List Byte} {sym : Byte} {f : Word}
    (h : LeavesIn node m syms) (hi : i < m) (hn : node[i]? = some (.leaf sym f)) : sym ∈ syms := by
  rcases h i hi with ⟨sym', hmem, f', hn'⟩ | ⟨f', l, r, hn', -⟩
  · cases hn.symm.trans hn'
    exact hmem
  · cases hn.symm.trans hn'

/-- The children of an internal node below `m` are below `m`. -/
theorem LeavesIn.children_lt {node : Vector Node Config.nodeMax} {m i : Nat} {syms : List Byte} {f : Word}
    {l r : BitVec 9} (h : LeavesIn node m syms) (hi : i < m) (hn : node[i]? = some (.internal f l r)) :
    l.toNat < m ∧ r.toNat < m := by
  rcases h i hi with ⟨sym', -, f', hn'⟩ | ⟨f', l', r', hn', hlt⟩
  · cases hn.symm.trans hn'
  · cases hn.symm.trans hn'
    exact hlt

/-- R125: a walk from below `m` meets the given symbols alone. -/
theorem LeavesIn.mem_of_visit {node : Vector Node Config.nodeMax} {m fuel : Nat} {syms : List Byte} {i : BitVec 9}
    {p : Bits} {codes : List (Byte × Bits)} (h : LeavesIn node m syms) (hi : i.toNat < m)
    (hv : visit node fuel i p = some codes) : ∀ c ∈ codes, c.1 ∈ syms := by
  induction fuel generalizing i p codes with
  | zero => cases hv
  | succ fuel ih =>
    rcases visit_cases hv with ⟨sym, f, hn, rfl⟩ | ⟨f, l, r, below, above, hn, hb, ha, rfl⟩
    · exact List.forall_mem_singleton.2 (h.mem_of_leaf hi hn)
    · obtain ⟨hl, hr⟩ := h.children_lt hi hn
      exact List.forall_mem_append.2 ⟨ih hl hb, ih hr ha⟩

/-- R125, R126: so does the reading of a tree whose root is below `m`. -/
theorem LeavesIn.mem_of_treeCodes {t : Tree} {m : Nat} {syms : List Byte} {codes : List (Byte × Bits)}
    (h : LeavesIn t.node m syms) (hroot : t.root.toNat < m) (hc : treeCodes t = some codes) :
    ∀ c ∈ codes, c.1 ∈ syms := by
  rcases treeCodes_cases hc with ⟨sym, f, hn, rfl⟩ | ⟨-, hv⟩
  · exact List.forall_mem_singleton.2 (h.mem_of_leaf hroot hn)
  · exact h.mem_of_visit hroot hv

/-- R110, R111, R114: the records BUILD writes are the leaves of the symbols present and nodes over earlier ones, and
ROOT is one of them. -/
theorem buildTree_leavesIn {f : FreqTable} (node : Vector Node Config.nodeMax) (h : presentSymbols f ≠ []) :
    LeavesIn (buildTree f node).node (2 * (presentSymbols f).length - 1) (presentSymbols f) ∧
      (buildTree f node).root.toNat < 2 * (presentSymbols f).length - 1 := by
  have hpos := List.length_pos_iff.2 h
  obtain ⟨-, hroot, hleaf, hinternal⟩ := treeLayout f node hpos
  refine ⟨fun i hi => ?_, by omega⟩
  rcases Nat.lt_or_ge i (presentSymbols f).length with hlt | hge
  · exact .inl ⟨_, List.getElem_mem hlt, _, hleaf i hlt⟩
  · obtain ⟨l, r, x, y, -, hl, hr, -, -, hn, -⟩ := hinternal i hge hi
    exact .inr ⟨_, l, r, hn, hl.trans hi, hr.trans hi⟩

/-- R125: a symbol with a code in the generated table was present at the BUILD. -/
theorem generatedTable_present {f : FreqTable} {node : Vector Node Config.nodeMax} {codes : List (Byte × Bits)}
    (hne : presentSymbols f ≠ []) (h : treeCodes (buildTree f node) = some codes) {sym : Byte}
    (hsym : entry (tableOf codes).len sym ≠ 0) : entry f.count sym ≠ 0 := by
  obtain ⟨-, hlen⟩ := treeCodes_paths h
  obtain ⟨hleaves, hroot⟩ := buildTree_leavesIn node hne
  exact mem_presentSymbols.1 (hleaves.mem_of_treeCodes hroot h _ ((tableOf_codes hlen).2 sym hsym))

end Sys2Proof.Machine

/-! SUPPORT. The records BUILD leaves (42_tree_builder.md R118, R119): it reads no record of the old arena and writes
none from `next` on. -/

namespace Sys2Proof.Machine

/-- The first `m` records of `new`, the rest of `old`. -/
def overlay (m : Nat) (new old : Vector Node Config.nodeMax) : Vector Node Config.nodeMax :=
  Vector.ofFn fun i => if i.val < m then new[i] else old[i]

theorem overlay_zero (new old : Vector Node Config.nodeMax) : overlay 0 new old = old := by
  ext i hi
  simp [overlay]

theorem getElem?_overlay (m : Nat) (new old : Vector Node Config.nodeMax) (k : Nat) :
    (overlay m new old)[k]? = if k < m then new[k]? else old[k]? := by
  by_cases hk : k < Config.nodeMax
  · split <;> simp [overlay, *]
  · simp [Vector.getElem?_eq_none (Nat.not_lt.1 hk)]

/-- The next record written is the next record of the new arena. -/
theorem overlay_setIfInBounds (m : Nat) (new old : Vector Node Config.nodeMax) (x : Node) :
    (overlay m new old).setIfInBounds m x = overlay (m + 1) (new.setIfInBounds m x) old := by
  ext i hi
  rcases Nat.lt_trichotomy i m with h | rfl | h
  · simp [overlay, Vector.getElem_setIfInBounds, h, h.ne', h.le]
  · simp [overlay, Vector.getElem_setIfInBounds]
  · simp [overlay, Vector.getElem_setIfInBounds, h.ne, h.not_gt, h.not_ge]

/-- R118, R119: the builder as it stands over another arena. -/
def Builder.over (old : Vector Node Config.nodeMax) (b : Builder) : Builder :=
  { b with node := overlay b.next b.node old }

@[simp] theorem Builder.over_heap (old : Vector Node Config.nodeMax) (b : Builder) : (b.over old).heap = b.heap := by
  rw [Builder.over]

theorem addLeaf_over (f : FreqTable) (old : Vector Node Config.nodeMax) (b : Builder) (sym : Byte) :
    addLeaf f (b.over old) sym = (addLeaf f b sym).over old := by
  simp [addLeaf, Builder.over, overlay_setIfInBounds]

/-- R111: the leaves over another arena. -/
theorem leafBuilder_over (f : FreqTable) (node old : Vector Node Config.nodeMax) :
    leafBuilder f old = (leafBuilder f node).over old := by
  have hstart : (⟨old, [], 0⟩ : Builder) = Builder.over old ⟨node, [], 0⟩ := by
    rw [Builder.over, overlay_zero]
  rw [leafBuilder, leafBuilder, hstart, List.foldl_hom (Builder.over old) (addLeaf_over f old)]

/-- R112, R113: which nodes a pass removes is decided by the collection. -/
theorem mergePass_over (old : Vector Node Config.nodeMax) (b : Builder) :
    mergePass (b.over old) = (mergePass b).over old := by
  unfold mergePass
  rw [Builder.over_heap]
  split
  case h_1 => rfl
  case h_2 =>
    split
    case h_1 => rfl
    case h_2 => simp [Builder.over, overlay_setIfInBounds]

theorem mergePasses_over (n : Nat) (old : Vector Node Config.nodeMax) (b : Builder) :
    mergePasses n (b.over old) = (mergePasses n b).over old := by
  induction n generalizing b with
  | zero => rfl
  | succ n ih => rw [mergePasses, mergePasses, mergePass_over, ih]

/-- A pass takes one handle at most. -/
theorem mergePass_next_le (b : Builder) : (mergePass b).next ≤ b.next + 1 := by
  rcases mergePass_cases b with e | ⟨x, -, y, -, rest, -, e⟩
  · rw [e]
    exact Nat.le_succ _
  · rw [e]

theorem mergePasses_next_le (n : Nat) (b : Builder) : (mergePasses n b).next ≤ b.next + n := by
  induction n generalizing b with
  | zero => exact le_rfl
  | succ n ih =>
    have hpass := mergePass_next_le b
    have hrest := ih (mergePass b)
    rw [mergePasses]
    omega

/-- R110: the builder's variables after all passes. -/
def builtBuilder (f : FreqTable) (node : Vector Node Config.nodeMax) : Builder :=
  mergePasses ((presentSymbols f).length - 1) (leafBuilder f node)

theorem buildTree_eq (f : FreqTable) (node : Vector Node Config.nodeMax) :
    buildTree f node =
      { node := (builtBuilder f node).node
        root := ((builtBuilder f node).heap.head?.map HeapEntry.handle).getD 0
        nnodes := BitVec.ofNat 10 (builtBuilder f node).next
        valid := true } := rfl

/-- R118, R119: over another arena BUILD makes the same records below `next` and leaves the others. -/
theorem builtBuilder_over (f : FreqTable) (node old : Vector Node Config.nodeMax) :
    builtBuilder f old = (builtBuilder f node).over old := by
  rw [builtBuilder, builtBuilder, leafBuilder_over f node old, mergePasses_over]

/-- R27: NNODES, of 10 bits, holds the number of handles taken. -/
theorem buildTree_nnodes (f : FreqTable) (node : Vector Node Config.nodeMax) :
    (buildTree f node).nnodes.toNat = (builtBuilder f node).next := by
  have hlen := length_presentSymbols_le f
  obtain ⟨-, hleaves, -⟩ := foldl_addLeaf_frontier (f := f) (node := node) (presentSymbols f)
    (hlen.trans (by decide))
  have hpasses : (builtBuilder f node).next ≤ (leafBuilder f node).next + ((presentSymbols f).length - 1) :=
    mergePasses_next_le _ _
  rw [leafBuilder, hleaves] at hpasses
  rw [buildTree_eq, BitVec.toNat_ofNat, Nat.mod_eq_of_lt (by omega)]

end Sys2Proof.Machine

/-! SUPPORT. Whether a symbol is present (41_frequency.md R104, 42_tree_builder.md R116). -/

namespace Sys2Proof.Machine

theorem presentSymbols_ne_nil {f : FreqTable} (h : ∃ sym, entry f.count sym ≠ 0) : presentSymbols f ≠ [] :=
  h.elim fun _ hsym => List.ne_nil_of_mem (mem_presentSymbols.2 hsym)

theorem presentSymbols_eq_nil {f : FreqTable} (h : ∀ sym, entry f.count sym = 0) : presentSymbols f = [] :=
  List.eq_nil_iff_forall_not_mem.2 fun sym hsym => mem_presentSymbols.1 hsym (h sym)

/-- R116, R202: with no symbol present, BUILD raises EMPTY_INPUT. -/
theorem exec_build_empty {s : State} (hm : s.dec.mode = .idle) (h : presentSymbols s.freq = []) :
    exec .build s = .next (raise .emptyInput 0 0 0 Instr.build.header s) := by
  rw [exec, execBuild, whenAccepted_yes (by rw [hm]; rfl), if_pos (by rw [h]; rfl)]

/-- R24: a sum of counters is 0 exactly when each of them is. -/
theorem countSum_eq_zero_iff (count : Table Word) (syms : List Byte) :
    countSum count syms = 0 ↔ ∀ sym ∈ syms, entry count sym = 0 := by
  rw [countSum, List.sum_eq_zero_iff, List.forall_mem_map]
  simp only [← BitVec.toNat_inj, BitVec.ofNat_eq_ofNat, BitVec.toNat_ofNat, Nat.zero_mod]

/-- R24, R116: where TOTAL is the sum of the counters, it is 0 exactly when they all are. -/
theorem counts_eq_zero_iff {f : FreqTable} (h : FreqSumsToTotal f) :
    (∀ sym, entry f.count sym = 0) ↔ f.total = 0 := by
  have hsum : countSum f.count allSymbols = f.total.toNat := h
  calc (∀ sym, entry f.count sym = 0) ↔ countSum f.count allSymbols = 0 := by
        simp only [countSum_eq_zero_iff, mem_allSymbols, forall_true_left]
    _ ↔ f.total = 0 := by
        rw [hsum, ← BitVec.toNat_inj]
        rfl

end Sys2Proof.Machine

/-! CERTIFICATE. The statements on BUILD: O27, O19, O20, O22, O18. -/

namespace Sys2Proof.Machine

/-- Settles O27: BUILD's tree can be walked, its leaves are exactly the symbols present, and codes on the two sides of
a node differ in the node's bit. -/
theorem generatedTableIsPrefixFree : Obligations.GeneratedTableIsPrefixFree := by
  intro s hm hsome
  have hne := presentSymbols_ne_nil hsome
  obtain ⟨codes, hcodes⟩ := Option.isSome_iff_exists.1 (buildTree_walkable s.tree.node hne rfl)
  obtain ⟨hfree, -, hhas⟩ := generatedTable_laws hcodes
  exact ⟨_, _, exec_build hm hne, exec_genCodes hm rfl hcodes, rfl,
    fun sym => ⟨generatedTable_present hne hcodes, hhas sym⟩, hfree⟩

/-- Settles O19: BUILD finds no symbol present, and a sum is 0 exactly when each of its terms is. -/
theorem buildRefusesEmpty : Obligations.BuildRefusesEmpty := by
  intro s hm
  refine ⟨fun hzero => ?_, counts_eq_zero_iff⟩
  rw [exec_build_empty hm (presentSymbols_eq_nil hzero), raise, Instr.header, opcOf_mkHeader, symOf_mkHeader]
  rfl

/-- Settles O20: with distinct handles no two keys are equal, so the least key is below every other. -/
theorem smallestKeyRemoved : Obligations.SmallestKeyRemoved := by
  intro heap hne hd
  obtain ⟨m, rest, h⟩ := popMin_isSome hne
  exact ⟨m, rest, h, popMin_perm h, fun e he => HeapEntry.key_lt_iff.1 (popMin_key_lt hd h e he)⟩

/-- Settles O22: the builder over another arena has the same collection and `next` and the same records below `next`;
over its own arena the records from `next` on are the old ones. -/
theorem buildIgnoresOldArena : Obligations.BuildIgnoresOldArena := by
  intro f node node' _
  have hover (old : Vector Node Config.nodeMax) := builtBuilder_over f node old
  refine ⟨?_, ?_, fun k hk => ?_, fun k hk => ?_⟩
  · simp only [buildTree_eq, hover node', Builder.over]
  · simp only [buildTree_eq, hover node', Builder.over]
  · rw [buildTree_nnodes] at hk
    simp only [buildTree_eq, hover node', Builder.over, getElem?_overlay, if_pos hk]
  · rw [buildTree_nnodes] at hk
    rw [buildTree_eq f node, hover node, Builder.over, getElem?_overlay, if_neg (Nat.not_lt.2 hk)]

/-- Settles O18: BUILD is accepted in IDLE and finds a symbol present. -/
theorem buildWritesTree : Obligations.BuildWritesTree :=
  fun _ hm hsome => ⟨exec_build hm (presentSymbols_ne_nil hsome), rfl⟩

end Sys2Proof.Machine

/-! SUPPORT. Codes are paths (43_code_table.md R125, R127): a walk answers exactly the leaves that paths lead to, each
with its path. -/

namespace Sys2Proof.Machine

/-! ## Paths in the arena -/

/-- R125: from a leaf only the empty path leads to a node. -/
theorem follow_of_leaf {node : Vector Node Config.nodeMax} {i : BitVec 9} {q : Bits} {sym : Byte} {f : Word} {x : Node}
    (hn : node[i.toNat]? = some (.leaf sym f)) (h : follow node i q = some x) : q = [] ∧ x = .leaf sym f := by
  cases q with
  | nil => exact ⟨rfl, Option.some.inj (h.symm.trans hn)⟩
  | cons b bs => simp [follow, hn] at h

/-- R125: from an internal node a path goes on from the child its first bit names. -/
theorem follow_cons {node : Vector Node Config.nodeMax} {i l r : BitVec 9} {f : Word} (b : Bool) (bs : Bits)
    (hn : node[i.toNat]? = some (.internal f l r)) :
    follow node i (b :: bs) = follow node (if b then r else l) bs := by
  simp only [follow, hn]

/-- R125: each code of a walk continues its start by the path to a leaf of the symbol. -/
theorem follow_of_mem_visit {node : Vector Node Config.nodeMax} {fuel : Nat} {i : BitVec 9} {p : Bits}
    {codes : List (Byte × Bits)} (h : visit node fuel i p = some codes) {c : Byte × Bits} (hc : c ∈ codes) :
    ∃ q f, c.2 = p ++ q ∧ follow node i q = some (.leaf c.1 f) := by
  induction fuel generalizing i p codes with
  | zero => cases h
  | succ fuel ih =>
    rcases visit_cases h with ⟨sym, f, hn, rfl⟩ | ⟨f, l, r, below, above, hn, hb, ha, rfl⟩
    · obtain rfl := List.mem_singleton.1 hc
      exact ⟨[], f, (List.append_nil p).symm, hn⟩
    · rcases List.mem_append.1 hc with hc | hc
      · obtain ⟨q, f', heq, hq⟩ := ih hb hc
        exact ⟨false :: q, f', by rw [heq, List.append_assoc]; rfl, (follow_cons false q hn).trans hq⟩
      · obtain ⟨q, f', heq, hq⟩ := ih ha hc
        exact ⟨true :: q, f', by rw [heq, List.append_assoc]; rfl, (follow_cons true q hn).trans hq⟩

/-- R125: every path to a leaf gives a code of the walk. -/
theorem mem_visit_of_follow {node : Vector Node Config.nodeMax} {fuel : Nat} {i : BitVec 9} {p q : Bits} {sym : Byte}
    {f : Word} {codes : List (Byte × Bits)} (h : visit node fuel i p = some codes)
    (hq : follow node i q = some (.leaf sym f)) : (sym, p ++ q) ∈ codes := by
  induction fuel generalizing i p q codes with
  | zero => cases h
  | succ fuel ih =>
    rcases visit_cases h with ⟨sym', f', hn, rfl⟩ | ⟨f', l, r, below, above, hn, hb, ha, rfl⟩
    · obtain ⟨rfl, heq⟩ := follow_of_leaf hn hq
      cases heq
      rw [List.append_nil]
      exact List.mem_singleton_self _
    · cases q with
      | nil => cases hn.symm.trans hq
      | cons b q =>
        rw [follow_cons b q hn] at hq
        rw [List.append_cons, List.mem_append]
        cases b with
        | false => exact .inl (ih hb hq)
        | true => exact .inr (ih ha hq)

/-- R125, R127: the codes of a tree whose root is internal are the paths from the root to the leaves. -/
theorem mem_treeCodes_iff_follow {t : Tree} {codes : List (Byte × Bits)} (h : treeCodes t = some codes)
    (hroot : ∃ f l r, t.node[t.root.toNat]? = some (.internal f l r)) (sym : Byte) (q : Bits) :
    (sym, q) ∈ codes ↔ ∃ f, follow t.node t.root q = some (.leaf sym f) := by
  obtain ⟨f, l, r, hn⟩ := hroot
  rcases treeCodes_cases h with ⟨sym', f', hn', -⟩ | ⟨-, hv⟩
  · cases hn.symm.trans hn'
  · refine ⟨fun hc => ?_, fun ⟨f', hq⟩ => mem_visit_of_follow hv hq⟩
    obtain ⟨q', f', rfl, hq⟩ := follow_of_mem_visit hv hc
    exact ⟨f', hq⟩

/-! ## The table GEN_CODES writes -/

/-- R132, R206: without a tree GEN_CODES raises ILLEGAL_COMMAND sub-code 4. -/
theorem exec_genCodes_invalid {s : State} (hm : s.dec.mode = .idle) (hv : s.tree.valid = false) :
    exec .genCodes s = .next (raise .illegalCommand 4 Instr.genCodes.header 0 Instr.genCodes.header s) := by
  rw [exec, execGenCodes, whenAccepted_yes (by rw [hm]; rfl), if_pos hv]

/-- R125, R132: where GEN_CODES answers a next state from a valid tree, the tree was walked to its end. -/
theorem exec_genCodes_walked {s t : State} (hm : s.dec.mode = .idle) (hv : s.tree.valid = true)
    (h : exec .genCodes s = .next t) : ∃ codes, treeCodes s.tree = some codes ∧ t.ct = tableOf codes := by
  cases hc : treeCodes s.tree with
  | none =>
    rw [exec, execGenCodes, whenAccepted_yes (by rw [hm]; rfl), if_neg (by simp [hv]), hc] at h
    cases h
  | some codes =>
    obtain rfl := Host.Outcome.next.inj ((exec_genCodes hm hv hc).symm.trans h)
    exact ⟨codes, rfl, rfl⟩

/-- R126: with one symbol present the tree is its leaf, and its code is the one-bit code "0". -/
theorem treeCodes_buildTree_single {f : FreqTable} {node : Vector Node Config.nodeMax} {sym : Byte}
    (h : presentSymbols f = [sym]) : treeCodes (buildTree f node) = some [(sym, [false])] := by
  obtain ⟨-, hroot, hleaf, -⟩ := treeLayout f node (by rw [h]; exact le_rfl)
  simp only [h, List.length_singleton] at hroot hleaf
  have hn := hleaf 0 Nat.one_pos
  rw [treeCodes, show (buildTree f node).root.toNat = 0 from hroot, hn]
  rfl

theorem presentSymbols_eq_singleton {f : FreqTable} {sym : Byte} (hsym : entry f.count sym ≠ 0)
    (hother : ∀ r, r ≠ sym → entry f.count r = 0) : presentSymbols f = [sym] := by
  refine List.perm_singleton.1 ((List.perm_ext_iff_of_nodup (nodup_allSymbols.filter _) (List.nodup_singleton _)).2
    fun r => ?_)
  rw [List.mem_singleton]
  refine ⟨fun hr => ?_, fun hr => hr ▸ mem_presentSymbols.2 hsym⟩
  by_contra hne
  exact mem_presentSymbols.1 hr (hother r hne)

end Sys2Proof.Machine

/-! CERTIFICATE. The code table GEN_CODES writes: O24, O25, O26. -/

namespace Sys2Proof.Machine

/-- Settles O24: GEN_CODES is accepted in IDLE, and TREE_VALID decides which of its two answers it gives. -/
theorem genCodesWritesTable : Obligations.GenCodesWritesTable := by
  refine fun s hm => ⟨fun codes hv hcodes => exec_genCodes hm hv hcodes, fun hv => ?_⟩
  rw [exec_genCodes_invalid hm hv, raise, Instr.header, opcOf_mkHeader, symOf_mkHeader]
  rfl

/-- Settles O25: the codes of the table are those of the walk, and those are the paths to the leaves. -/
theorem codesArePaths : Obligations.CodesArePaths := by
  intro s t hm hv hroot h
  obtain ⟨codes, hcodes, hct⟩ := exec_genCodes_walked hm hv h
  obtain ⟨-, hlen⟩ := treeCodes_paths hcodes
  obtain ⟨-, hne⟩ := treeCodes_apart hcodes
  have hpath := mem_treeCodes_iff_follow hcodes hroot
  rw [hct]
  refine ⟨fun sym hsym => (hpath _ _).1 ((tableOf_codes hlen).2 sym hsym), fun sym f p hp => ?_⟩
  exact tableOf_len_ne_zero (fun c hc => ⟨hne c hc, hlen c hc⟩) (List.mem_map_of_mem ((hpath sym p).2 ⟨f, hp⟩))

/-- Settles O26: BUILD's tree is the one leaf, and the table holds its code "0" alone. -/
theorem singleSymbolCode : Obligations.SingleSymbolCode := by
  intro s sym hm hsym hother
  have hone := presentSymbols_eq_singleton hsym hother
  refine ⟨_, _, exec_build hm (by rw [hone]; nofun), exec_genCodes hm rfl (treeCodes_buildTree_single hone),
    ?_, ?_, ?_⟩
  · exact entry_setEntry_same _ _ _
  · exact put_code_same _ _ [false] (by decide)
  · exact fun r hr => (put_len_other _ _ hr).trans (CodeTable.empty_len r)

end Sys2Proof.Machine

/-! SUPPORT. The frequencies in BUILD's arena (42_tree_builder.md R117): no sum wraps where TOTAL is the sum of the
counters. -/

namespace Sys2Proof.Machine

/-- R26: the frequency of the record at handle `i`. -/
def freqAt (node : Vector Node Config.nodeMax) (i : Nat) : Nat := (node[i]?.map fun x => x.freq.toNat).getD 0

theorem freqAt_of_getElem? {node : Vector Node Config.nodeMax} {i : Nat} {x : Node} (h : node[i]? = some x) :
    freqAt node i = x.freq.toNat := by
  rw [freqAt, h, Option.map_some, Option.getD_some]

theorem freqAt_congr {node node' : Vector Node Config.nodeMax} {i : Nat} (h : node'[i]? = node[i]?) :
    freqAt node' i = freqAt node i := by
  rw [freqAt, freqAt, h]

/-- R117: the record at handle `j` is over two earlier nodes and its frequency is their sum, which does not wrap. -/
def SumAt (node : Vector Node Config.nodeMax) (j : Nat) : Prop :=
  ∃ f l r, node[j]? = some (.internal f l r) ∧ l.toNat < j ∧ r.toNat < j ∧
    freqAt node j = freqAt node l.toNat + freqAt node r.toNat

/-- The records up to `j` decide what stands at `j`. -/
theorem SumAt.congr {node node' : Vector Node Config.nodeMax} {j : Nat} (h : SumAt node j)
    (hsame : ∀ k ≤ j, node'[k]? = node[k]?) : SumAt node' j := by
  obtain ⟨f, l, r, hn, hl, hr, hsum⟩ := h
  refine ⟨f, l, r, (hsame j le_rfl).trans hn, hl, hr, ?_⟩
  rw [freqAt_congr (hsame _ le_rfl), freqAt_congr (hsame _ hl.le), freqAt_congr (hsame _ hr.le), hsum]

/-- R117: the sum of the frequencies in a collection. -/
def heapSum (heap : List HeapEntry) : Nat := (heap.map fun e => e.freq.toNat).sum

@[simp] theorem heapSum_nil : heapSum [] = 0 := rfl

@[simp] theorem heapSum_cons (e : HeapEntry) (es : List HeapEntry) : heapSum (e :: es) = e.freq.toNat + heapSum es := by
  rw [heapSum, List.map_cons, List.sum_cons, heapSum]

@[simp] theorem heapSum_append (es es' : List HeapEntry) : heapSum (es ++ es') = heapSum es + heapSum es' := by
  rw [heapSum, List.map_append, List.sum_append, heapSum, heapSum]

theorem heapSum_perm {es es' : List HeapEntry} (h : es.Perm es') : heapSum es = heapSum es' :=
  (h.map _).sum_eq

/-- R117: where the collection sums to a word, a pass adds without wrapping and keeps the sum. -/
theorem mergePass_sumAt {b : Builder} (h : b.Frontier) (hn : b.next < Config.nodeMax) (h2 : 2 ≤ b.heap.length)
    (hsum : heapSum b.heap < 2 ^ 32) :
    SumAt (mergePass b).node b.next ∧ heapSum (mergePass b).heap = heapSum b.heap := by
  obtain ⟨x, y, rest, hperm, -, -, e⟩ := mergePass_smallest h.nodup h2
  have hx : x ∈ b.heap := hperm.mem_iff.2 List.mem_cons_self
  have hy : y ∈ b.heap := hperm.mem_iff.2 (List.mem_cons_of_mem _ List.mem_cons_self)
  have hheap : heapSum b.heap = x.freq.toNat + (y.freq.toNat + heapSum rest) := by
    rw [heapSum_perm hperm, heapSum_cons, heapSum_cons]
  have hadd : (x.freq + y.freq).toNat = x.freq.toNat + y.freq.toNat := BitVec.toNat_add_of_lt (by omega)
  have stored {d : HeapEntry} (hd : d ∈ b.heap) :
      freqAt (b.node.setIfInBounds b.next (x.parent y)) d.handle.toNat = d.freq.toNat := by
    obtain ⟨z, hz, hfreq⟩ := h.stored d hd
    rw [freqAt_of_getElem? ((getElem?_setIfInBounds_below _ _ (h.lt hd)).trans hz), hfreq]
  have hnew : (b.node.setIfInBounds b.next (x.parent y))[b.next]? = some (x.parent y) :=
    Vector.getElem?_setIfInBounds_self_of_lt hn
  rw [e]
  refine ⟨⟨_, _, _, hnew, h.lt hx, h.lt hy, ?_⟩, ?_⟩
  · rw [freqAt_of_getElem? hnew, stored hx, stored hy]
    exact hadd
  · rw [heapSum_append, heapSum_cons, heapSum_nil, hadd, hheap]
    omega

/-- R117: so do all passes. -/
theorem mergePasses_sumAt {n : Nat} {b : Builder} (h : b.Frontier) (hn : b.next + n ≤ Config.nodeMax)
    (hlen : b.heap.length = n + 1) (hsum : heapSum b.heap < 2 ^ 32) :
    ∀ j, b.next ≤ j → j < b.next + n → SumAt (mergePasses n b).node j := by
  induction n generalizing b with
  | zero => exact fun j hj hj' => absurd hj' (Nat.not_lt.2 hj)
  | succ n ih =>
    obtain ⟨hfr, -, hnext, hheap, -⟩ := mergePass_frontier h (by omega) (by omega)
    obtain ⟨hnew, hkept⟩ := mergePass_sumAt h (by omega) (by omega) hsum
    obtain ⟨-, -, -, hsame, -⟩ := mergePasses_frontier (n := n) hfr (by omega) (by omega)
    intro j hj hj'
    rcases hj.eq_or_lt with rfl | hj
    · exact hnew.congr fun k hk => hsame k (by omega)
    · exact ih hfr (by omega) (by omega) (hkept ▸ hsum) j (by omega) (by omega)

/-- R111: the collection of leaves sums to the counters of its symbols. -/
theorem heapSum_foldl_addLeaf (f : FreqTable) (b : Builder) (syms : List Byte) :
    heapSum (syms.foldl (addLeaf f) b).heap = heapSum b.heap + countSum f.count syms := by
  induction syms generalizing b with
  | nil => rfl
  | cons sym syms ih =>
    rw [List.foldl_cons, ih, addLeaf, heapSum_append, heapSum_cons, countSum, countSum, List.map_cons, List.sum_cons]
    exact Nat.add_assoc _ _ _

/-- R24, R117: where TOTAL is the sum of the counters, the counters of the symbols present sum to a word. -/
theorem countSum_presentSymbols_lt {f : FreqTable} (h : FreqSumsToTotal f) :
    countSum f.count (presentSymbols f) < 2 ^ 32 := by
  have hsub : countSum f.count (presentSymbols f) ≤ countSum f.count allSymbols :=
    (List.filter_sublist.map _).sum_le_sum fun _ _ => Nat.zero_le _
  exact (hsub.trans h.le).trans_lt f.total.isLt

/-- R117: in BUILD's arena every internal node's frequency is the sum of its children's. -/
theorem buildTree_sumAt {f : FreqTable} (node : Vector Node Config.nodeMax) (h : FreqSumsToTotal f) {j : Nat}
    (hj : (presentSymbols f).length ≤ j) (hj' : j < 2 * (presentSymbols f).length - 1) :
    SumAt (buildTree f node).node j := by
  have hle := length_presentSymbols_le f
  have hmax : Config.nodeMax = 511 := rfl
  obtain ⟨hfr, hnext, -⟩ := foldl_addLeaf_frontier (f := f) (node := node) (presentSymbols f) (by omega)
  obtain ⟨-, hheap⟩ := foldl_addLeaf_covers (f := f) (node := node) (presentSymbols f) (by omega)
  have hsum : heapSum ((presentSymbols f).foldl (addLeaf f) ⟨node, [], 0⟩).heap < 2 ^ 32 := by
    rw [heapSum_foldl_addLeaf, heapSum_nil, Nat.zero_add]
    exact countSum_presentSymbols_lt h
  exact mergePasses_sumAt (n := (presentSymbols f).length - 1) hfr (by omega) (by omega) hsum j (by omega) (by omega)

end Sys2Proof.Machine

/-! SUPPORT. Frequencies and depths in BUILD's arena (43_code_table.md R129): the nodes leave the collection in the
order of their keys, two by two, so a node with a larger key has its parent later, and stands no deeper. -/

namespace Sys2Proof.Machine

/-- The record at handle `j` is an internal node with the child `i`. -/
def IsChild (node : Vector Node Config.nodeMax) (j i : Nat) : Prop := ∃ x, node[j]? = some x ∧ x.HasChild i

theorem isChild_of_internal {node : Vector Node Config.nodeMax} {j i : Nat} {f : Word} {l r : BitVec 9}
    (h : node[j]? = some (.internal f l r)) : IsChild node j i ↔ i = l.toNat ∨ i = r.toNat := by
  simp [IsChild, h, Node.HasChild, eq_comm]

theorem childBefore_of_isChild {node : Vector Node Config.nodeMax} {j k i : Nat} (hk : k < j) (h : IsChild node k i) :
    ChildBefore node j i :=
  childBefore_iff.2 ⟨k, hk, h⟩

theorem ChildBefore.mono {node : Vector Node Config.nodeMax} {j k i : Nat} (h : ChildBefore node j i) (hjk : j ≤ k) :
    ChildBefore node k i := by
  obtain ⟨k', f, l, r, hk, hn, hc⟩ := h
  exact ⟨k', f, l, r, hk.trans_le hjk, hn, hc⟩

/-- R112: the key (freq, handle) of the node at handle `i`, as one number. -/
def keyAt (node : Vector Node Config.nodeMax) (i : Nat) : Nat := freqAt node i * 512 + i

/-- R110 to R117: an arena of `m` records, the first `n` of them leaves; each other one is over the two smallest nodes
before it that are no children yet, its frequency their sum. -/
structure BuiltArena (node : Vector Node Config.nodeMax) (n m : Nat) : Prop where
  fits : m ≤ Config.nodeMax
  leaf : ∀ k < n, ∃ sym f, node[k]? = some (.leaf sym f)
  merged : ∀ j, n ≤ j → j < m → MergedAt node j
  sums : ∀ j, n ≤ j → j < m → SumAt node j

theorem buildTree_builtArena {f : FreqTable} (node : Vector Node Config.nodeMax) (h : FreqSumsToTotal f)
    (hne : presentSymbols f ≠ []) :
    BuiltArena (buildTree f node).node (presentSymbols f).length (2 * (presentSymbols f).length - 1) := by
  have hle := length_presentSymbols_le f
  obtain ⟨-, -, hleaf, hinternal⟩ := treeLayout f node (List.length_pos_iff.2 hne)
  exact {
    fits := by rw [Config.nodeMax]; omega
    leaf := fun k hk => ⟨_, _, hleaf k hk⟩
    merged := hinternal
    sums := fun j hj hj' => buildTree_sumAt node h hj hj' }

section
variable {node : Vector Node Config.nodeMax} {n m : Nat}

/-- R114, R117: an internal node is over two earlier nodes, its frequency their sum. -/
theorem BuiltArena.children (h : BuiltArena node n m) {j : Nat} (hj : n ≤ j) (hj' : j < m) :
    ∃ l r, (∀ i, IsChild node j i ↔ i = l ∨ i = r) ∧ l < j ∧ r < j ∧
      freqAt node j = freqAt node l + freqAt node r := by
  obtain ⟨f, l, r, hn, hl, hr, hsum⟩ := h.sums j hj hj'
  exact ⟨l.toNat, r.toNat, fun i => isChild_of_internal hn, hl, hr, hsum⟩

/-- A node with a child is internal. -/
theorem BuiltArena.le_of_isChild (h : BuiltArena node n m) {j i : Nat} (hc : IsChild node j i) : n ≤ j := by
  by_contra hlt
  obtain ⟨sym, f, hn⟩ := h.leaf j (Nat.lt_of_not_le hlt)
  obtain ⟨x, hx, hchild⟩ := hc
  cases hn.symm.trans hx
  exact not_hasChild_leaf sym f i hchild

/-- R117: a child is before its parent and no more frequent. -/
theorem BuiltArena.child_le (h : BuiltArena node n m) {j i : Nat} (hc : IsChild node j i) (hj : j < m) :
    i < j ∧ freqAt node i ≤ freqAt node j := by
  obtain ⟨l, r, hchild, hl, hr, hsum⟩ := h.children (h.le_of_isChild hc) hj
  rcases (hchild i).1 hc with rfl | rfl
  · exact ⟨hl, hsum ▸ Nat.le_add_right _ _⟩
  · exact ⟨hr, hsum ▸ Nat.le_add_left _ _⟩

/-- R113: no node is a child twice. -/
theorem BuiltArena.not_childBefore (h : BuiltArena node n m) {j i : Nat} (hc : IsChild node j i) (hj : j < m) :
    ¬ ChildBefore node j i := by
  obtain ⟨l, r, x, y, -, -, -, -, -, hn, -, hl, hr, -⟩ := h.merged j (h.le_of_isChild hc) hj
  rcases (isChild_of_internal hn).1 hc with rfl | rfl
  · exact hl
  · exact hr

/-- R112: the children of a node have smaller keys than the nodes its pass leaves in the collection. -/
theorem BuiltArena.keyAt_child_lt (h : BuiltArena node n m) {j c i : Nat} (hc : IsChild node j c) (hj : j < m)
    (hi : i < j) (hfree : ¬ ChildBefore node (j + 1) i) : keyAt node c < keyAt node i := by
  obtain ⟨l, r, x, y, -, -, -, hx, hy, hn, hlr, -, -, hothers⟩ := h.merged j (h.le_of_isChild hc) hj
  have hno : ¬ (i = l.toNat ∨ i = r.toNat) := fun hchild =>
    hfree (childBefore_of_isChild (Nat.lt_succ_self j) ((isChild_of_internal hn).2 hchild))
  obtain ⟨hil, hir⟩ := not_or.1 hno
  obtain ⟨z, hz, hrz⟩ := hothers i hi hil hir fun hb => hfree (hb.mono (Nat.le_succ j))
  have hl9 := l.isLt
  have hr9 := r.isLt
  rw [BitVec.lt_def, ← BitVec.toNat_inj, BitVec.lt_def] at hlr
  rw [BitVec.lt_def, ← BitVec.toNat_inj] at hrz
  rcases (isChild_of_internal hn).1 hc with rfl | rfl
  · rw [keyAt, keyAt, freqAt_of_getElem? hx, freqAt_of_getElem? hz]
    omega
  · rw [keyAt, keyAt, freqAt_of_getElem? hy, freqAt_of_getElem? hz]
    omega

/-- R122: an internal node is no less frequent than the one before: it is over that one, or over two nodes that the
pass before left in the collection. -/
theorem BuiltArena.freqAt_le_succ (h : BuiltArena node n m) {j : Nat} (hj : n ≤ j) (hj' : j + 1 < m) :
    freqAt node j ≤ freqAt node (j + 1) := by
  have hmax : m ≤ 511 := h.fits
  obtain ⟨l, r, hchild, hl, hr, hsum⟩ := h.children hj (Nat.lt_of_succ_lt hj')
  obtain ⟨l', r', hchild', hl', hr', hsum'⟩ := h.children (hj.trans (Nat.le_succ j)) hj'
  have merged {c : Nat} (hc : IsChild node (j + 1) c) :
      c = j ∨ (freqAt node l ≤ freqAt node c ∧ freqAt node r ≤ freqAt node c) := by
    rcases Nat.lt_succ_iff_lt_or_eq.1 (h.child_le hc hj').1 with hlt | rfl
    · have hfree := h.not_childBefore hc hj'
      have hlc := h.keyAt_child_lt ((hchild l).2 (.inl rfl)) (Nat.lt_of_succ_lt hj') hlt hfree
      have hrc := h.keyAt_child_lt ((hchild r).2 (.inr rfl)) (Nat.lt_of_succ_lt hj') hlt hfree
      simp only [keyAt] at hlc hrc
      exact .inr (by omega)
    · exact .inl rfl
  rcases merged ((hchild' l').2 (.inl rfl)) with rfl | ⟨hleft, -⟩
  · exact hsum' ▸ Nat.le_add_right _ _
  · rcases merged ((hchild' r').2 (.inr rfl)) with rfl | ⟨-, hright⟩
    · exact hsum' ▸ Nat.le_add_left _ _
    · rw [hsum, hsum']
      exact Nat.add_le_add hleft hright

/-- R122: the internal nodes stand in the order of their frequencies. -/
theorem BuiltArena.freqAt_mono (h : BuiltArena node n m) {i j : Nat} (hi : n ≤ i) (hij : i ≤ j) (hj : j < m) :
    freqAt node i ≤ freqAt node j := by
  induction j, hij using Nat.le_induction with
  | base => exact le_rfl
  | succ j hij ih => exact (ih (Nat.lt_of_succ_lt hj)).trans (h.freqAt_le_succ (hi.trans hij) hj)

/-- R112, R113: the nodes leave the collection in the order of their keys. -/
theorem BuiltArena.parent_le (h : BuiltArena node n m) {i j i' j' : Nat} (hc : IsChild node j i)
    (hc' : IsChild node j' i') (hj : j < m) (hj' : j' < m) (hkey : keyAt node i ≤ keyAt node i') : j ≤ j' := by
  by_contra hlt
  rw [Nat.not_le] at hlt
  refine hkey.not_gt ?_
  rcases Nat.lt_or_ge i j' with hi | hi
  · exact h.keyAt_child_lt hc' hj' hi fun hb => h.not_childBefore hc hj (hb.mono hlt)
  · have hmono := h.freqAt_mono (h.le_of_isChild hc') hi ((h.child_le hc hj).1.trans hj)
    obtain ⟨hi', hfreq⟩ := h.child_le hc' hj'
    simp only [keyAt]
    omega

/-- R125: a path of `d` steps leads from the handle `root` to a handle. -/
inductive StandsAt (node : Vector Node Config.nodeMax) (root : Nat) : Nat → Nat → Prop
  | root : StandsAt node root root 0
  | child {j i d} (hj : StandsAt node root j d) (hc : IsChild node j i) : StandsAt node root i (d + 1)

/-- No handle below the root is after it. -/
theorem BuiltArena.le_root (h : BuiltArena node n m) {root i d : Nat} (hroot : root < m)
    (hi : StandsAt node root i d) : i ≤ root := by
  induction hi with
  | root => exact le_rfl
  | child _ hc ih => exact (h.child_le hc (ih.trans_lt hroot)).1.le.trans ih

/-- R129: of two nodes below the root the one with the larger key stands no deeper: its parent is no earlier, so by
induction that one stands no deeper. -/
theorem BuiltArena.depth_le (h : BuiltArena node n m) {root i i' d d' : Nat} (hroot : root < m)
    (hi : StandsAt node root i d) (hi' : StandsAt node root i' d') (hkey : keyAt node i ≤ keyAt node i') :
    d' ≤ d := by
  induction hi' generalizing i d with
  | root => exact Nat.zero_le d
  | @child j' i' d' hj' hc' ih =>
    have hlt' := (h.le_root hroot hj').trans_lt hroot
    obtain ⟨hi', hfreq'⟩ := h.child_le hc' hlt'
    cases hi with
    | root =>
      have hmono := h.freqAt_mono (h.le_of_isChild hc') (h.le_root hroot hj') hroot
      have hle := h.le_root hroot hj'
      simp only [keyAt] at hkey
      omega
    | @child j _ d hj hc =>
      have hjj := h.parent_le hc hc' ((h.le_root hroot hj).trans_lt hroot) hlt' hkey
      have hmono := h.freqAt_mono (h.le_of_isChild hc) hjj hlt'
      refine Nat.succ_le_succ (ih hj ?_)
      simp only [keyAt]
      omega

end

/-- R125: a path leads to a node at the depth of its length. -/
theorem StandsAt.follow {node : Vector Node Config.nodeMax} {root d : Nat} {i : BitVec 9} {q : Bits} {x : Node}
    (hi : StandsAt node root i.toNat d) (h : follow node i q = some x) :
    ∃ k, StandsAt node root k (d + q.length) ∧ node[k]? = some x := by
  induction q generalizing i d with
  | nil => exact ⟨_, hi, h⟩
  | cons b q ih =>
    cases hn : node[i.toNat]? with
    | none => simp [Machine.follow, hn] at h
    | some y =>
      cases y with
      | leaf sym f => cases (follow_of_leaf hn h).1
      | internal f l r =>
        rw [follow_cons b q hn] at h
        have hc : IsChild node i.toNat (if b then r else l).toNat :=
          (isChild_of_internal hn).2 (by cases b <;> simp)
        obtain ⟨k, hk, hx⟩ := ih (.child hi hc) h
        exact ⟨k, by rwa [List.length_cons, Nat.add_comm q.length, ← Nat.add_assoc], hx⟩

/-- R111: a leaf of BUILD's tree holds the counter of its symbol. -/
theorem buildTree_leaf_freq {f : FreqTable} {node : Vector Node Config.nodeMax} {k : Nat} {sym : Byte} {freq : Word}
    (hne : presentSymbols f ≠ []) (hk : k < 2 * (presentSymbols f).length - 1)
    (hn : (buildTree f node).node[k]? = some (.leaf sym freq)) : freq = entry f.count sym := by
  obtain ⟨-, -, hleaf, hinternal⟩ := treeLayout f node (List.length_pos_iff.2 hne)
  rcases Nat.lt_or_ge k (presentSymbols f).length with hlt | hge
  · cases (hleaf k hlt).symm.trans hn
    rfl
  · obtain ⟨l, r, x, y, -, -, -, -, -, hn', -⟩ := hinternal k hge hk
    cases hn'.symm.trans hn

/-- R129: a path to a leaf with a larger counter is no longer. -/
theorem buildTree_path_length_le {f : FreqTable} {node : Vector Node Config.nodeMax} (hsum : FreqSumsToTotal f)
    (hne : presentSymbols f ≠ []) {x y : Byte} {fx fy : Word} {p q : Bits}
    (hp : follow (buildTree f node).node (buildTree f node).root p = some (.leaf x fx))
    (hq : follow (buildTree f node).node (buildTree f node).root q = some (.leaf y fy))
    (hlt : entry f.count x < entry f.count y) : q.length ≤ p.length := by
  have h := buildTree_builtArena node hsum hne
  obtain ⟨-, hroot⟩ := buildTree_leavesIn node hne
  obtain ⟨i, hi, hni⟩ := StandsAt.root.follow hp
  obtain ⟨k, hk, hnk⟩ := StandsAt.root.follow hq
  rw [Nat.zero_add] at hi hk
  have hi' := (h.le_root hroot hi).trans_lt hroot
  have hfx := buildTree_leaf_freq hne hi' hni
  have hfy := buildTree_leaf_freq hne ((h.le_root hroot hk).trans_lt hroot) hnk
  refine h.depth_le hroot hi hk ?_
  have hmax : 2 * (presentSymbols f).length - 1 ≤ 511 := h.fits
  rw [BitVec.lt_def, ← hfx, ← hfy] at hlt
  rw [keyAt, keyAt, freqAt_of_getElem? hni, freqAt_of_getElem? hnk, Node.freq, Node.freq]
  omega

end Sys2Proof.Machine

/-! CERTIFICATE. Code lengths and frequencies: O28. -/

namespace Sys2Proof.Machine

/-- R129: in the table generated from BUILD's tree the more frequent of two symbols has no longer code. -/
theorem generatedTable_length_le {f : FreqTable} {node : Vector Node Config.nodeMax} {codes : List (Byte × Bits)}
    (hsum : FreqSumsToTotal f) (h : treeCodes (buildTree f node) = some codes) {x y : Byte}
    (hx : entry f.count x ≠ 0) (hlt : entry f.count x < entry f.count y) :
    ((tableOf codes).code y).length ≤ ((tableOf codes).code x).length := by
  have hy : entry f.count y ≠ 0 := fun h0 => BitVec.not_lt_zero (h0 ▸ hlt)
  obtain ⟨-, -, hhas⟩ := generatedTable_laws h
  obtain ⟨-, hlen⟩ := treeCodes_paths h
  have hcx := (tableOf_codes hlen).2 x (hhas x hx)
  have hcy := (tableOf_codes hlen).2 y (hhas y hy)
  rcases treeCodes_cases h with ⟨sym, f', -, rfl⟩ | ⟨hroot, -⟩
  · rw [(Prod.mk.inj (List.mem_singleton.1 hcx)).2, (Prod.mk.inj (List.mem_singleton.1 hcy)).2]
  · obtain ⟨fx, hp⟩ := (mem_treeCodes_iff_follow h hroot x _).1 hcx
    obtain ⟨fy, hq⟩ := (mem_treeCodes_iff_follow h hroot y _).1 hcy
    exact buildTree_path_length_le hsum (presentSymbols_ne_nil ⟨x, hx⟩) hp hq hlt

/-- Settles O28: BUILD's nodes leave the collection in the order of their frequencies, so a more frequent leaf has its
parent no earlier and stands no deeper. -/
theorem frequentCodesNotLonger : Obligations.FrequentCodesNotLonger := by
  intro s t u x y hm hsum hbuild hgen hx hlt
  have hne := presentSymbols_ne_nil ⟨x, hx⟩
  obtain rfl := Host.Outcome.next.inj ((exec_build hm hne).symm.trans hbuild)
  obtain ⟨codes, hcodes, hct⟩ :=
    exec_genCodes_walked (s := complete { s with tree := buildTree s.freq s.tree.node }) hm rfl hgen
  rw [hct]
  exact generatedTable_length_le hsum hcodes hx hlt

end Sys2Proof.Machine

/-! SUPPORT. The number of payload bits (44_encoder.md R140 to R143): ENC_BITS along a payload, and the padding that
makes whole bytes of a bit string. -/

namespace Sys2Proof.Machine

/-- A run whose first command answers `t` goes on from `t`. -/
theorem runDrained_tail {i : Instr} {is : List Instr} {s t u : State} {out : List Byte}
    (hi : exec i (drained s) = .next t) (h : runDrained (i :: is) s = some (u, out)) :
    ∃ rest, runDrained is t = some (u, rest) := by
  rw [drained] at hi
  simp only [runDrained, hi] at h
  split at h
  case isTrue => cases h
  case isFalse =>
    split at h
    case h_1 v rest hrest =>
      obtain ⟨rfl, -⟩ := Prod.mk.inj (Option.some.inj h)
      exact ⟨rest, hrest⟩
    case h_2 => cases h

/-- R142: ENC_FLUSH keeps ENC_BITS, whether it completes or holds. -/
theorem exec_encFlush_bits {s : State} (hm : s.dec.mode = .idle) :
    ∃ t, exec .encFlush s = .next t ∧ t.enc.bits = s.enc.bits := by
  by_cases hp : s.enc.pending.isEmpty = true
  · exact ⟨_, exec_encFlush_none hm hp, rfl⟩
  · exact ⟨_, exec_encFlush_some hm hp,
      emit_keeps (fun u => u.enc.bits) (· = s.enc.bits) (fun _ _ _ => rfl) (fun _ => rfl) rfl⟩

/-- R141, R142: over a payload ENC_BITS grows by the number of code bits, modulo 2^64. -/
theorem payloadPass_bits {xs : List Byte} {s t : State} {out : List Byte} (hs : Ready .idle s)
    (hx : ∀ x ∈ xs, entry s.ct.len x ≠ 0) (h : runDrained (payloadPass xs) s = some (t, out)) :
    t.enc.bits = s.enc.bits + BitVec.ofNat 64 (xs.flatMap s.ct.code).length := by
  induction xs generalizing s out with
  | nil =>
    obtain ⟨u, hi, hbits⟩ := exec_encFlush_bits (s := drained s) hs.mode
    obtain ⟨_, hu⟩ := runDrained_tail hi h
    obtain ⟨rfl, -⟩ := Prod.mk.inj (Option.some.inj hu)
    exact hbits.trans (BitVec.add_zero _).symm
  | cons x xs ih =>
    obtain ⟨hx, hxs⟩ := List.forall_mem_cons.1 hx
    let u := complete (encodeWrites (entry s.ct.len x) (encodeSym x s).2 { drained s with outq := (encodeSym x s).1 })
    have hu : Ready .idle u := ⟨hs.mode, hs.clean, rfl, hs.unlimited, hs.room⟩
    obtain ⟨_, hrun⟩ := runDrained_tail (exec_encByte_drained hs hx) h
    have hgrow : u.enc.bits = s.enc.bits + BitVec.ofNat 64 (s.ct.code x).length := by
      rw [length_code, BitVec.ofNat_toNat]; rfl
    calc t.enc.bits = u.enc.bits + BitVec.ofNat 64 (xs.flatMap s.ct.code).length := ih hu hxs hrun
      _ = s.enc.bits + BitVec.ofNat 64 ((x :: xs).flatMap s.ct.code).length := by
        rw [hgrow, List.flatMap_cons, List.length_append, BitVec.ofNat_add, BitVec.add_assoc]

/-- R143: fewer than eight zeros that pad `p` to whole bytes are as many as reach the next multiple of eight. -/
theorem padding_of_bytes {bytes : List Byte} {p : Bits} {k : Nat} (hk : k < 8)
    (h : bytes.flatMap bitsOfByte = p ++ List.replicate k false) :
    k = (8 - p.length % 8) % 8 ∧ bytes.length = (p.length + 7) / 8 := by
  have hlen := congrArg List.length h
  rw [length_flatMap_bitsOfByte, List.length_append, List.length_replicate] at hlen
  omega

end Sys2Proof.Machine

/-! CERTIFICATE. The payload law and ENC_INIT: O33, O29. -/

namespace Sys2Proof.Machine

/-- Settles O33: ENC_INIT leaves nothing pending, so the payload is the codes and fewer than eight zeros, and ENC_BITS
counts the code bits from 0. -/
theorem payloadLaw : Obligations.PayloadLaw := by
  intro s xs hm herr hx hg hroom hcodes code
  let s₁ := complete { drained s with enc := { acc := 0, accLen := 0, bits := 0 } }
  have hs₁ : Ready .idle s₁ := ⟨hm, herr, rfl, hg, hroom⟩
  obtain ⟨t, out, k, hrun, -, -, hk, hbytes⟩ := runDrained_payloadPass hs₁ rfl hcodes
  obtain ⟨rfl, hlen⟩ := padding_of_bytes hk hbytes
  have hall := runDrained_cons (exec_encInit (s := drained s) hm) hs₁ hrun
  exact ⟨t, out, hall, hbytes, hlen, (payloadPass_bits hs₁ hcodes hrun).trans (BitVec.zero_add _)⟩

/-- Settles O29: accepted in IDLE, refused in DECODING. -/
theorem encInitClears : Obligations.EncInitClears := by
  refine ⟨rfl, fun s => ⟨fun hm => exec_encInit hm, fun hm => ?_⟩⟩
  rw [exec, execEncInit, whenAccepted_no (by rw [hm]; rfl)]
  rfl

end Sys2Proof.Machine

/-! CERTIFICATE. The statements on CT_CLEAR and CT_LOAD: O35, O37, O38. -/

namespace Sys2Proof.Machine

/-- Settles O35: accepted in IDLE, refused in DECODING. -/
theorem ctClearEmpties : Obligations.CtClearEmpties := by
  refine ⟨rfl, fun s => ⟨fun hm => exec_ctClear hm, fun hm => ?_⟩⟩
  rw [exec, execCtClear, whenAccepted_no (by rw [hm]; rfl)]
  rfl

/-- R31, R159: in a table of distinct codes the search for a non-empty code finds the one symbol that has it. -/
theorem holder_eq_some {ct : CodeTable} (h : CodesDistinct ct) {t len : Byte} {c : Bits} (hne : len ≠ 0)
    (hlen : entry ct.len t = len) (hcode : load (entry ct.bits t) len.toNat = c) : ct.holder len c = some t := by
  cases hfind : ct.holder len c with
  | none => exact absurd hcode (by simpa [hlen] using List.find?_eq_none.1 hfind t (mem_allSymbols t))
  | some r =>
    obtain ⟨hrlen, hrcode⟩ : entry ct.len r = len ∧ load (entry ct.bits r) len.toNat = c := by
      simpa using List.find?_some hfind
    by_contra hrt
    refine h r t (fun e => hrt (congrArg some e)) (hrlen ▸ hne) (hlen ▸ hne) ?_
    rw [CodeTable.code, CodeTable.code, hrlen, hlen, hrcode, hcode]

/-- R157 to R159, R209: the record of an error that CT_LOAD raises. -/
theorem raise_ctLoad (sub : BitVec 4) (info : Word) (sym len : Byte) (data : List Word) (s : State) :
    raise .corruptCodebook sub info 0 (Instr.ctLoad sym len data).header s = { s with
      err := { error := true, code := .corruptCodebook, sub, opc := 0x51, arg := sym, bitpos := 0, info }
      executing := none } := by
  rw [raise, Instr.header, opcOf_mkHeader, symOf_mkHeader]
  rfl

/-- Settles O37: the three checks in their order, each with the ones before it passed. -/
theorem ctLoadRefuses : Obligations.CtLoadRefuses := by
  intro s sym len data hm _
  rw [exec, execCtLoad, whenAccepted_yes (by rw [hm]; rfl)]
  refine ⟨fun hempty => ?_, fun hlen hused => ?_, fun t hlen hfree ht hcode hdis => ?_⟩
  · rw [if_pos hempty, raise_ctLoad]
  · rw [if_neg hlen, if_pos hused, raise_ctLoad]
  · simp only [if_neg hlen, if_neg (not_not_intro hfree), holder_eq_some hdis hlen ht hcode, raise_ctLoad]

/-- R156, R192: records that differ are loaded one after another. -/
theorem execAll_loadCodes {book : List (Byte × Bits)} {s : State} (hm : s.dec.mode = .idle)
    (herr : s.err.error = false) (hbook : ∀ r ∈ book, Loadable s.ct r) (hdiff : book.Pairwise RecordsDiffer) :
    ∃ t, execAll (book.map fun r => loadCode r.1 r.2) s = .next t ∧ t.err.error = false ∧
      t.ct = book.foldl (fun ct r => ct.put r.1 r.2) s.ct := by
  induction book generalizing s with
  | nil => exact ⟨s, rfl, herr, rfl⟩
  | cons r book ih =>
    obtain ⟨hr, hbook⟩ := List.forall_mem_cons.1 hbook
    obtain ⟨hdiff, hrest⟩ := List.pairwise_cons.1 hdiff
    obtain ⟨t, hrun, ht⟩ := ih (s := complete { s with ct := s.ct.put r.1 r.2 }) hm herr
      (fun q hq => hr.put (hbook q hq) (hdiff q hq)) hrest
    exact ⟨t, (execAll_cons _ (exec_loadCode hm hr) herr).trans hrun, ht⟩

/-- The records of a table with distinct codes differ in any order. -/
theorem recordsDiffer_of_perm {ct : CodeTable} (h : CodesDistinct ct) {book : List (Byte × Bits)}
    (hperm : book.Perm (bookOf ct)) : book.Pairwise RecordsDiffer :=
  (bookOf_recordsDiffer h).perm hperm.symm fun hd => ⟨hd.1.symm, hd.2.symm⟩

/-- Settles O38: each record of the table can be loaded into the emptied table and none stops another, and the table
written from the records is the one they come from. -/
theorem reloadRebuildsTable : Obligations.ReloadRebuildsTable := by
  intro s book hm herr hcan hdis hperm
  obtain ⟨t, hrun, ht, hct⟩ := execAll_loadCodes (s := complete { s with ct := CodeTable.empty }) hm herr
    (fun r hr => loadable_bookOf (hperm.mem_iff.1 hr)) (recordsDiffer_of_perm hdis hperm)
  exact ⟨t, (execAll_cons _ (exec_ctClear hm) herr).trans hrun, ht, hct.trans (tableOf_bookOf hcan hperm)⟩

end Sys2Proof.Machine

/-! SUPPORT. How the decoder splits payload bits (46_decoder.md R171 to R174): the consumed part is the codes of the
pushed symbols and the new partial code, each matched as soon as it can be. -/

namespace Sys2Proof.Machine

/-- R173: of the first bits of `q`, more than `old` and fewer than `m` of them, none make a code. -/
def NoCodeWithin (ct : CodeTable) (old m : Nat) (q : Bits) : Prop :=
  ∀ n, old < n → n < m → ∀ y, ct.code y ≠ q.take n

/-- R171 to R174: from the partial code `p`, with `remaining` symbols owed, matching ends in `f` after the bits
`consumed`, the bits `left` not looked at. `old` in the last three clauses is the length of what no consumed bit belongs
to: of `p` where the string begins with it. -/
structure FeedSplit (ct : CodeTable) (p consumed left : Bits) (remaining : Word) (f : Feed) : Prop where
  codes : p ++ consumed = f.out.flatMap ct.code ++ f.rest
  owed : f.remaining.toNat + f.out.length = remaining.toNat
  stopped : f.dead = none → left = [] ∨ f.remaining = 0
  dead : ∀ k, f.dead = some k →
    k = left.length ∧ (∀ sym, ct.code sym ≠ f.rest) ∧ ct.live f.rest = false ∧ f.rest ≠ []
  pushed : ∀ k x, f.out[k]? = some x →
    (if k = 0 then p.length else 0) < (ct.code x).length ∧
      NoCodeWithin ct (if k = 0 then p.length else 0) (ct.code x).length (ct.code x)
  unmatched : NoCodeWithin ct (if f.out = [] then p.length else 0) (f.rest.length + 1) f.rest
  live : f.dead = none → (if f.out = [] then p.length else 0) < f.rest.length → ct.live f.rest = true

variable {ct : CodeTable} {p c left : Bits} {b : Bool} {remaining : Word} {f : Feed}

theorem noCodeWithin_of_le {old m : Nat} (h : m ≤ old + 1) (q : Bits) : NoCodeWithin ct old m q :=
  fun _ hn hm => absurd (hm.trans_le h) (Nat.not_lt.2 hn)

/-- A match that fails at `p ++ [b]` rules out a code of that length in what begins with it. -/
theorem NoCodeWithin.of_snoc {m : Nat} {q : Bits} (h : NoCodeWithin ct (p ++ [b]).length m q)
    (hmatch : ct.matching (p ++ [b]) = none) (hq : p ++ [b] <+: q) : NoCodeWithin ct p.length m q := by
  intro n hn hnm
  rcases Nat.eq_or_lt_of_le (Nat.succ_le_of_lt hn) with rfl | hlt
  · have htake : q.take (p.length + 1) = p ++ [b] := by simpa using (List.prefix_iff_eq_take.1 hq).symm
    exact htake ▸ matching_none hmatch
  · exact h n (by simpa using hlt) hnm

/-- R171, R178: with no bit to come or no symbol owed nothing is consumed. -/
theorem FeedSplit.stop (h : left = [] ∨ remaining = 0) :
    FeedSplit ct p [] left remaining { out := [], remaining, rest := p, dead := none } where
  codes := List.append_nil p
  owed := rfl
  stopped _ := h
  dead := nofun
  pushed := nofun
  unmatched := noCodeWithin_of_le (Nat.le_refl _) _
  live _ hlt := absurd hlt (Nat.lt_irrefl _)

/-- R173: a bit that completes a code pushes its symbol, and matching begins anew. -/
theorem FeedSplit.push {x : Byte} (hr : remaining ≠ 0) (hmatch : ct.matching (p ++ [b]) = some x)
    (h : FeedSplit ct [] c left (remaining - 1) f) :
    FeedSplit ct p (b :: c) left remaining { f with out := x :: f.out } where
  codes := by
    have := h.codes
    rw [List.nil_append] at this
    simp [matching_some hmatch, this]
  owed := by
    have := h.owed
    simp only [List.length_cons]
    bv_omega
  stopped := h.stopped
  dead := h.dead
  pushed k y hk := by
    cases k with
    | zero =>
      obtain rfl : x = y := by simpa using hk
      rw [if_pos rfl, matching_some hmatch, List.length_append, List.length_singleton]
      exact ⟨Nat.lt_succ_self _, noCodeWithin_of_le (Nat.le_refl _) _⟩
    | succ k => simpa using h.pushed k y (by simpa using hk)
  unmatched := by simpa using h.unmatched
  live := by simpa using h.live

/-- R174: a bit that completes no code and leaves a live string is kept. -/
theorem FeedSplit.keep (hmatch : ct.matching (p ++ [b]) = none) (hlive : ct.live (p ++ [b]) = true)
    (h : FeedSplit ct (p ++ [b]) c left remaining f) : FeedSplit ct p (b :: c) left remaining f where
  codes := by rw [← h.codes, List.append_assoc]; rfl
  owed := h.owed
  stopped := h.stopped
  dead := h.dead
  pushed k x hk := by
    have hx := h.pushed k x hk
    split at hx
    case isFalse hk0 => rwa [if_neg hk0]
    case isTrue hk0 =>
      obtain ⟨hlt, hno⟩ := hx
      subst hk0
      obtain ⟨xs, hout⟩ := List.head?_eq_some_iff.1 (List.head?_eq_getElem?.trans hk)
      have hbegins : p ++ [b] <+: ct.code x :=
        List.prefix_of_prefix_length_le ⟨c, h.codes⟩ (by simp [hout]) hlt.le
      have hp : p.length < (p ++ [b]).length := by simp
      exact ⟨hp.trans hlt, hno.of_snoc hmatch hbegins⟩
  unmatched := by
    have hno := h.unmatched
    split at hno
    case isFalse hout => rwa [if_neg hout]
    case isTrue hout =>
      rw [if_pos hout]
      exact hno.of_snoc hmatch ⟨c, by rw [h.codes, hout]; rfl⟩
  live hd hlt := by
    have := h.live hd
    split at this
    case isFalse hout => exact this (by rwa [if_neg hout] at hlt)
    case isTrue hout =>
      have hcodes : p ++ [b] ++ c = f.rest := by rw [h.codes, hout]; rfl
      cases c with
      | nil => rwa [← hcodes, List.append_nil]
      | cons b' c => exact this (by rw [← hcodes]; simp)

/-- R174: a bit that completes no code and makes a dead string ends the matching. -/
theorem FeedSplit.die (hmatch : ct.matching (p ++ [b]) = none) (hlive : ct.live (p ++ [b]) = false) :
    FeedSplit ct p [b] left remaining
      { out := [], remaining, rest := p ++ [b], dead := some left.length } where
  codes := rfl
  owed := rfl
  stopped := nofun
  dead := by
    rintro _ ⟨⟩
    exact ⟨rfl, matching_none hmatch, hlive, by simp⟩
  pushed := nofun
  unmatched := (noCodeWithin_of_le (Nat.le_refl _) _).of_snoc hmatch (List.prefix_refl _)
  live := nofun

/-- R171: the bits are a part that is consumed and a part that is left. -/
theorem feedBits_split (ct : CodeTable) (bits : Bits) (remaining : Word) (p : Bits) :
    ∃ consumed left, bits = consumed ++ left ∧
      FeedSplit ct p consumed left remaining (feedBits ct bits remaining p) := by
  induction bits generalizing remaining p with
  | nil => exact ⟨[], [], rfl, .stop (.inl rfl)⟩
  | cons b bs ih =>
    rw [feedBits]
    split
    case isTrue h0 => exact ⟨[], b :: bs, rfl, .stop (.inr h0)⟩
    case isFalse hr =>
      split
      case h_1 x hmatch =>
        obtain ⟨c, left, rfl, h⟩ := ih (remaining - 1) []
        exact ⟨b :: c, left, rfl, h.push hr hmatch⟩
      case h_2 hmatch =>
        split
        case isTrue hlive =>
          obtain ⟨c, left, rfl, h⟩ := ih remaining (p ++ [b])
          exact ⟨b :: c, left, rfl, h.keep hmatch hlive⟩
        case isFalse hlive => exact ⟨[b], bs, rfl, .die hmatch (Bool.eq_false_of_not_eq_true hlive)⟩

end Sys2Proof.Machine

/-! CERTIFICATE. How payload bits are split into codes: O41. -/

namespace Sys2Proof.Machine

/-- Settles O41: by induction over the bits, one rule for each thing a bit can do. -/
theorem feedSplitsBits : Obligations.FeedSplitsBits := by
  intro ct bits p remaining
  obtain ⟨consumed, left, hbits, h⟩ := feedBits_split ct bits remaining p
  exact ⟨consumed, left, hbits, h.codes, h.owed, h.stopped, h.dead, h.pushed,
    fun n hn hm => h.unmatched n hn (Nat.lt_succ_of_le hm), h.live⟩

end Sys2Proof.Machine

/-! SUPPORT. What the decoder's commands answer (46_decoder.md R170 to R172, R178): DEC_FEED with a slot for each of its
symbols, a byte fed once no symbol is owed, and DEC_END while one is. -/

namespace Sys2Proof.Machine

/-- R90: the header of DEC_START is its match value, whatever COUNT is. -/
theorem decStart_header (count : Word) : (Instr.decStart count).header = 0x60000000 :=
  show mkHeader Op.decStart.code 0 0 = 0x60000000 by decide

/-- R171, R190: with a slot for each symbol the byte completes and no push made, DEC_FEED pushes them all and makes its
writes. -/
theorem exec_decFeed_fresh {s : State} {b : Byte} (hm : s.dec.mode = .decoding)
    (hx : ∀ e, s.executing = some e → e.pushed = 0) (hs : (feedByte b s).out.length ≤ slots s) :
    exec (.decFeed b) s = .next (complete (feedWrites (feedByte b s) (Instr.decFeed b).header
      { s with outq := s.outq ++ (feedByte b s).out })) := by
  have hu : unpushed (.decFeed b) (feedByte b s).out s = (feedByte b s).out := unpushed_fresh _ _ hx
  rw [exec_decFeed hm, emit_all _ (by rw [hu]; exact hs), hu]

/-- R178: once no symbol is owed a byte pushes nothing and leaves the partial code. -/
theorem feedByte_done {s : State} (b : Byte) (hr : s.dec.remaining = 0) :
    feedByte b s = { out := [], remaining := 0, rest := s.dec.partialCode, dead := none } := by
  rw [feedByte, hr, feedBits_done]

/-- R14, R37: zero-filled storage is the storage of the partial code it holds. -/
theorem withPartial_partialCode {d : Decoder} (h : PartialCanonical d) : d.withPartial d.partialCode = d := by
  have hbits : store 256 d.partialCode = d.pbits := store_load _ _ d.plen.isLt.le h
  rw [Decoder.withPartial, hbits, Decoder.partialCode, length_load, BitVec.ofNat_toNat, BitVec.setWidth_eq]

/-- R172: DEC_END with a symbol owed raises TRUNCATED_STREAM. -/
theorem exec_decEnd_owed {s : State} (hm : s.dec.mode = .decoding) (hr : s.dec.remaining ≠ 0) :
    exec .decEnd s = .next (raise .truncatedStream (if s.dec.plen = 0 then 0 else 1) s.dec.remaining 0
      Instr.decEnd.header s) := by
  rw [exec, execDecEnd, whenAccepted_yes (by rw [hm]; rfl), if_neg hr]

end Sys2Proof.Machine

/-! CERTIFICATE. Decoding as the inverse of encoding, and the statements on DEC_FEED, DEC_START and DEC_END: O45, O42,
O43, O44, O40, O46. -/

namespace Sys2Proof.Machine

/-- Settles O45: where no code begins with another, each code is matched at its last bit and not before, so the codes
give the string one symbol after another, and with the last of them no symbol is owed. -/
theorem decodeInvertsEncode : Obligations.DecodeInvertsEncode :=
  fun _ _ tail hfree hx hlen => feedBits_codes hfree hx hlen tail

/-- Settles O42: without a dead prefix the writes are DEC_REMAINING and the partial code. -/
theorem decFeedDecodes : Obligations.DecFeedDecodes := by
  intro s b hm hx hs hd
  rw [exec_decFeed_fresh hm hx hs, feedWrites, hd]
  rfl

/-- Settles O43: with a dead prefix the record is written beside them, the byte being the header's SYM field. -/
theorem decFeedDeadPrefix : Obligations.DecFeedDeadPrefix := by
  intro s b k hm hx hs hd
  rw [exec_decFeed_fresh hm hx hs, feedWrites, hd]
  simp only [raise, Instr.header, opcOf_mkHeader, symOf_mkHeader]
  rfl

/-- Settles O44: nothing is pushed, and what is written to DEC_REMAINING and the partial code is what they hold. -/
theorem paddingIgnored : Obligations.PaddingIgnored := by
  intro s b hm hx hr hcan
  have hf := feedByte_done b hr
  have hdec : { s.dec.withPartial s.dec.partialCode with remaining := 0 } = s.dec := by
    rw [withPartial_partialCode hcan, ← hr]
  rw [exec_decFeed_fresh hm hx (by rw [hf]; exact Nat.zero_le _), hf]
  simp only [feedWrites, hdec, List.append_nil]
  rfl

/-- Settles O40: accepted in IDLE, refused in DECODING. -/
theorem decStartBegins : Obligations.DecStartBegins := by
  refine fun count => ⟨?_, fun s => ⟨fun hm => exec_decStart count hm, fun hm => ?_⟩⟩
  · rw [← decStart_header count]
    exact decode_encode (i := .decStart count) rfl
  · rw [exec, execDecStart, whenAccepted_no (by rw [hm]; rfl), decStart_header]
    rfl

/-- Settles O46: in DECODING the number of symbols owed decides, in IDLE the command is refused. -/
theorem decEndFinishes : Obligations.DecEndFinishes := by
  refine ⟨rfl, fun s => ⟨exec_decEnd, exec_decEnd_owed, fun hm => ?_⟩⟩
  rw [exec, execDecEnd, whenAccepted_no (by rw [hm]; rfl)]
  rfl

end Sys2Proof.Machine

/-! SUPPORT. The commands a mode refuses, and turns that leave the engine where it was (47_control.md R190 to R195). -/

namespace Sys2Proof.Machine

/-- R193: the mode table by its refusals. -/
theorem accepted_eq_false_iff (op : Op) (m : Mode) : accepted op m = false ↔
    (m = .decoding ∧ op ≠ .nop ∧ op ≠ .decFeed ∧ op ≠ .decEnd) ∨ (m = .idle ∧ (op = .decFeed ∨ op = .decEnd)) := by
  cases m with
  | idle => cases op <;> decide
  | decoding => cases op <;> decide

/-- R193: no command's meaning goes past a mode that refuses it. -/
theorem exec_refused {i : Instr} {s : State} (ha : accepted i.op s.dec.mode = false) :
    exec i s = .next (refuseMode i.header s) := by
  cases i with
  | _ => exact whenAccepted_no ha _

/-- R209: the record of a refused command carries the command's own opcode. -/
theorem refuseMode_header (i : Instr) (s : State) : refuseMode i.header s = { s with
    err := { error := true, code := .illegalCommand, sub := 3, opc := i.op.code, arg := symOf i.header, bitpos := 0,
             info := i.header }
    executing := none } := by
  rw [refuseMode, raise, (headerShape i).1]

/-- R190: a turn of the engine. -/
theorem step_engine {s : State} {k : Option Nat} {ts : List Turn} (h : s.sched = .engine k :: ts) :
    step s = engineTurn k { s with sched := ts } := by
  unfold step nextTurn
  rw [h]

/-! ## The error state -/

/-- R192: in the error state with EXEC = NONE the engine's turn changes nothing but CMDQ and the grant. -/
theorem engineTurn_error_frame (k : Option Nat) {s : State} (he : s.err.error = true) (hx : s.executing = none) :
    ∃ q, engineTurn k s = .next { s with cmdq := q, grant := k } := by
  rcases Bool.eq_false_or_eq_true s.rstN with hr | hr
  · cases hq : s.cmdq with
    | nil => exact ⟨s.cmdq, engineTurn_idle k hx hq⟩
    | cons w rest =>
      exact ⟨rest, (engineTurn_take k hr hx hq).trans (takeHeader_discards w rest (s := { s with grant := k }) he)⟩
  · exact ⟨s.cmdq, engineTurn_low k hr⟩

/-! ## The hold on a full OUTQ -/

/-- R195: a full OUTQ has no slot, whatever the turn grants. -/
theorem slots_full {s : State} (h : s.params.outDepth.toNat ≤ s.outq.length) : slots s = 0 :=
  Nat.le_zero.1 ((slots_le s).trans_eq (Nat.sub_eq_zero_of_le h))

/-- R195 (b): with bytes left and no slot pushing changes nothing. -/
theorem emit_holds {i : Instr} {bytes : List Byte} {final : State → State} {s : State} {e : Exec}
    (hx : s.executing = some e) (hk : e.pushed < bytes.length) (hs : slots s = 0) : emit i bytes final s = s := by
  have hp : progress i s = e := by rw [progress, hx, Option.getD_some]
  have hleft : slots s < (unpushed i bytes s).length := by
    rw [hs, unpushed, hp, List.length_drop]
    exact Nat.sub_pos_of_lt hk
  rw [emit_some final hleft, hs, hp, List.take_zero, List.append_nil, Nat.add_zero, ← hx]

/-- R89: a command in EXEC that misses no word takes none. -/
theorem takeWords_of_missing_eq_zero {e : Exec} {s : State} (hx : s.executing = some e) (hm : e.missing = 0) :
    takeWords e s = (e, s) := by
  simp [takeWords, hm, ← hx]

/-- A hold does not depend on the schedule and the grant. -/
theorem HoldsOnPush.with_sched_grant {s : State} (h : HoldsOnPush s) (ts : List Turn) (k : Option Nat) :
    HoldsOnPush { s with sched := ts, grant := k } := by
  obtain ⟨e, i, hx, hm, hd, ha, hk, hfull⟩ := h
  exact ⟨e, i, hx, hm, hd, ha, hk.trans_eq (congrArg List.length (pushesOf_congr i rfl rfl rfl).symm), hfull⟩

/-- R195 (b): a command that holds on a full OUTQ is run again to no effect. -/
theorem HoldsOnPush.runCommand {s : State} (h : HoldsOnPush s) :
    ∃ e, s.executing = some e ∧ runCommand e s = .next s := by
  obtain ⟨e, i, hx, hm, hd, ha, hk, hfull⟩ := h
  have ht := takeWords_of_missing_eq_zero hx hm
  refine ⟨e, hx, ?_⟩
  rw [runCommand_runs (by rw [ht]; exact hm) (by rw [ht]; exact hd), ht,
    exec_pushing ha (List.ne_nil_of_length_pos (Nat.zero_lt_of_lt hk)), emit_holds hx hk (slots_full hfull)]

/-- R239: while the host's bus is stalled on a full CMDQ and cannot read, its turn changes nothing. -/
theorem HostStalled.hostTurn {s : State} (h : HostStalled s) : hostTurn s = s := by
  obtain ⟨hstalled, hroom, hreads⟩ := h
  obtain ⟨v, hv⟩ := Option.isSome_iff_exists.1 hstalled
  unfold Machine.hostTurn
  simp [hv, hroom, hreads]

end Sys2Proof.Machine

/-! CERTIFICATE. The statements on control: O7, O9, O11, O13. -/

namespace Sys2Proof.Machine

/-- Settles O7: the mode table decides, in the meaning and at the header alike, and the step takes the header alone. -/
theorem modeRefusal : Obligations.ModeRefusal := by
  intro i s refused record
  have hrefused : accepted i.op s.dec.mode = false ↔ refused := accepted_eq_false_iff i.op s.dec.mode
  refine ⟨fun h => ?_, fun h => ?_, fun rest h hsched hr hx herr hq => ?_⟩
  · rw [exec_refused (hrefused.2 h), refuseMode_header]
  · exact Bool.of_not_eq_false fun ha => h (hrefused.1 ha)
  · rw [step_unscheduled hsched, engineTurn_take none hr hx hq,
      takeHeader_refused (s := { s with grant := none }) _ herr (classify_header i) (hrefused.2 h), refuseMode_header,
      hx]
    rfl

/-- Settles O9: the engine discards words, the host's turn keeps the record and the units or is a soft reset, and
`rst_n` keeps them or is a hard reset. -/
theorem errorStateLasts : Obligations.ErrorStateLasts := by
  intro s he hx
  refine ⟨fun h rest hsched hr hq => ?_, fun t ht => ?_⟩
  · rw [step_unscheduled hsched, engineTurn_take none hr hx hq,
      takeHeader_discards (s := { s with grant := none }) h rest he]
  · rcases step_cases s with ⟨k, ts, e⟩ | ⟨ts, e⟩ | ⟨level, ts, e⟩
    · obtain ⟨q, hq⟩ := engineTurn_error_frame k (s := { s with sched := ts }) he hx
      obtain rfl := Host.Outcome.next.inj ((e.trans hq).symm.trans ht)
      exact .inl ⟨rfl, hx, rfl, rfl, rfl, rfl, rfl⟩
    · obtain rfl := Host.Outcome.next.inj (e.symm.trans ht)
      rcases hostTurn_cases { s with sched := ts } with h | ⟨p, h⟩
      · exact .inl ⟨h.err, h.executing.trans hx, h.freq, h.tree, h.ct, h.enc, h.dec⟩
      · exact .inr (by rw [h]; rfl)
    · obtain rfl := Host.Outcome.next.inj (e.symm.trans ht)
      cases level with
      | true => exact .inl ⟨rfl, hx, rfl, rfl, rfl, rfl, rfl⟩
      | false => exact .inr rfl

/-- Settles O11: each agent waits for the other, the host for a slot of CMDQ and the engine for one of OUTQ. -/
theorem deadlockStays : Obligations.DeadlockStays := by
  intro s k ts hpush hhost
  refine ⟨?_, fun hr => ?_⟩
  · rw [step_host rfl]
    exact congrArg _ (HostStalled.hostTurn (s := { s with sched := ts }) hhost)
  · obtain ⟨e, hx, hrun⟩ := (hpush.with_sched_grant ts k).runCommand
    rw [step_engine rfl]
    exact (engineTurn_run k (s := { s with sched := ts }) hr hx).trans hrun

/-- Settles O13: NOP is accepted in both modes. -/
theorem nopDoesNothing : Obligations.NopDoesNothing := by
  intro s
  have ha : accepted (Instr.op .nop) s.dec.mode = true := by cases s.dec.mode <;> rfl
  exact whenAccepted_yes ha _

end Sys2Proof.Machine

/-! SUPPORT. Errors and the hard reset (60_exceptions.md R200, R205, R209; 70_reset_and_hazards.md R230 to R232): what
the answer of a command with an error is, and what the machine does while `rst_n` is low. -/

namespace Sys2Proof.Machine

/-! ## Error entry -/

/-- R200, R209: an answer of the command with the header `h` in `s` that leaves the record, or is the error entry in
`s` itself with ERR_BITPOS 0, or is a stop. -/
inductive Precise (h : Word) (s : State) : Result → Prop
  | kept {t : State} (err : t.err = s.err) : Precise h s (.next t)
  | raised (code : ErrCode) (sub : BitVec 4) (info : Word) : Precise h s (.next (raise code sub info 0 h s))
  | stopped (r : Fault) : Precise h s (.fault r)

/-- A check between two precise answers. -/
theorem Precise.ite {h : Word} {s a b : State} {c : Prop} [Decidable c] (ha : Precise h s (.next a))
    (hb : Precise h s (.next b)) : Precise h s (.next (if c then a else b)) := by
  split
  · exact ha
  · exact hb

/-- R193: the refusal of a mode is precise, so a command is where its meaning is. -/
theorem Precise.whenAccepted {i : Instr} {s : State} {r : Result} (h : Precise i.header s r) :
    Precise i.header s (whenAccepted i s r) := by
  rcases whenAccepted_cases i s r with ⟨-, e⟩ | ⟨-, e⟩
  · rw [e]
    exact h
  · rw [e]
    exact .raised ..

/-- R190: pushing leaves the record when the writes after it do. -/
theorem Precise.emit {h : Word} {i : Instr} {bytes : List Byte} {final : State → State} {s : State}
    (hfinal : ∀ u, (final u).err = u.err) : Precise h s (.next (emit i bytes final s)) :=
  .kept (emit_keeps (·.err) (· = s.err) (fun _ _ _ => rfl) hfinal rfl)

/-- R200, R209: every command but DEC_FEED is precise. -/
theorem exec_precise (i : Instr) (s : State) (hi : i.op ≠ .decFeed) : Precise i.header s (exec i s) := by
  cases i with
  | nop | freqClear | encInit | ctClear | decStart => exact .whenAccepted (.kept rfl)
  | freqAcc | build => exact .whenAccepted (.ite (.raised ..) (.kept rfl))
  | genCodes =>
    refine .whenAccepted (i := .genCodes) ?_
    split
    · exact .raised ..
    · cases treeCodes s.tree with
      | none => exact .stopped _
      | some codes => exact .kept rfl
  | encByte => exact .whenAccepted (.ite (.raised ..) (.emit (encodeWrites_err _ _)))
  | encFlush => exact .whenAccepted (.ite (.kept rfl) (.emit flushWrites_err))
  | ctLoad sym len data =>
    refine .whenAccepted (i := .ctLoad sym len data) (.ite (.raised ..) (.ite (.raised ..) ?_))
    cases s.ct.holder len (loadWords data len.toNat) with
    | none => exact .kept rfl
    | some t => exact .raised ..
  | decEnd => exact .whenAccepted (.ite (.kept rfl) (.raised ..))
  | decFeed => exact absurd rfl hi

section
variable {i : Instr} {s t : State} (h : exec i s = .next t) (hs : s.err.error = false) (ht : t.err.error = true)
include hs ht

/-- A record that was written is another one. -/
theorem err_ne_of_raised : t.err ≠ s.err := fun e => Bool.false_ne_true (hs.symm.trans (e ▸ ht))

include h

/-- R209: a command other than DEC_FEED that raises an error makes the error entry alone. -/
theorem exec_raises (hi : i.op ≠ .decFeed) : ∃ code sub info, t = raise code sub info 0 i.header s := by
  have hp := exec_precise i s hi
  rw [h] at hp
  cases hp with
  | kept err => exact absurd err (err_ne_of_raised hs ht)
  | raised code sub info => exact ⟨code, sub, info, rfl⟩

/-- R171, R209: DEC_FEED makes it after its pushes and its writes to the decoder. -/
theorem exec_decFeed_raises (hi : i.op = .decFeed) :
    ∃ code sub info bp q d, t = raise code sub info bp i.header { s with outq := q, dec := d } := by
  cases exec_effect h with
  | raised code sub info bp => exact ⟨code, sub, info, bp, s.outq, s.dec, rfl⟩
  | decFeed sym =>
    rcases emit_cases (.decFeed sym) (feedByte sym s).out
      (feedWrites (feedByte sym s) (Instr.decFeed sym).header) s with e | ⟨x, e⟩
    · rw [e] at ht ⊢
      cases hd : (feedByte sym s).dead with
      | none => exact (err_ne_of_raised hs ht (feedWrites_err_of_alive _ _ hd)).elim
      | some k =>
        rw [feedWrites, hd]
        exact ⟨_, _, _, _, _, _, rfl⟩
    · exact absurd (congrArg State.err e) (err_ne_of_raised hs ht)
  | _ => cases hi

end

/-- R205: ENC_BYTE of a symbol without a code raises MISSING_CODE. -/
theorem exec_encByte_missing {s : State} {sym : Byte} (hm : s.dec.mode = .idle) (hc : entry s.ct.len sym = 0) :
    exec (.encByte sym) s = .next (raise .missingCode 0 0 0 (Instr.encByte sym).header s) := by
  rw [exec, execEncByte, whenAccepted_yes (by rw [hm]; rfl), if_pos hc]

/-! ## While `rst_n` is low -/

/-- R230: a turn of the pin. -/
theorem step_rstN {s : State} {level : Bool} {ts : List Turn} (h : s.sched = .rstN level :: ts) :
    step s = .next (setRstN level { s with sched := ts }) := by
  unfold step nextTurn
  rw [h]

/-- R232: a read returns 0 and has no effect. -/
theorem busRead_low (a : Addr) {s : State} (hr : s.rstN = false) : busRead a s = (0, s) := if_pos hr

/-- R232: a write is ignored and does not wait. -/
theorem busWrite_low (a : Addr) (v : Word) {s : State} (hr : s.rstN = false) : busWrite a v s = some s := if_pos hr

end Sys2Proof.Machine

/-! CERTIFICATE. The statements on errors and the hard reset: O49, O31, O57. -/

namespace Sys2Proof.Machine

/-- Settles O49: the answer is an error entry, after DEC_FEED's pushes and writes to the decoder, else from the state
itself. -/
theorem errorsArePrecise : Obligations.ErrorsArePrecise := by
  intro i s t h hs ht
  by_cases hi : i.op = .decFeed
  · obtain ⟨code, sub, info, bp, q, d, rfl⟩ := exec_decFeed_raises h hs ht hi
    exact ⟨(headerShape i).1, rfl, rfl, fun hne => absurd hi hne, rfl⟩
  · obtain ⟨code, sub, info, rfl⟩ := exec_raises h hs ht hi
    exact ⟨(headerShape i).1, rfl, rfl, fun _ => ⟨rfl, rfl⟩, rfl⟩

/-- Settles O31: the error entry of MISSING_CODE, the symbol being the header's SYM field. -/
theorem encByteNeedsCode : Obligations.EncByteNeedsCode := by
  intro s sym hm hc
  rw [exec_encByte_missing hm hc, raise, Instr.header, opcOf_mkHeader, symOf_mkHeader]
  rfl

/-- Settles O57: the falling pin gives the elements their reset values, and the bus and the engine look at its level
first. The pin as a field (log 11) and the turn of an engine that has no step (log 2) are the model's. -/
theorem heldInReset : Obligations.HeldInReset := by
  refine fun s ts => ⟨⟨setRstN false { s with sched := ts }, step_rstN rfl, rfl, rfl, rfl, rfl, rfl, rfl, rfl, rfl, rfl,
    rfl⟩, fun hr => ⟨fun a => busRead_low a hr, fun a v => busWrite_low a v hr, fun k => ?_⟩⟩
  rw [step_engine rfl]
  exact engineTurn_low k hr

end Sys2Proof.Machine
